-- ==== Sys2Proof/Word.lean ====
section
/-! DEFINITION. The word and byte types of the BFC (00_scope.md section 7.1, rule R7) and nothing else. -/

namespace Sys2Proof

/-- A raw word, a physical word or a host register: 64 bits (R7). -/
abbrev Word := BitVec 64

/-- One cell of the frame buffer: 8 bits (R7). -/
abbrev Byte := BitVec 8

end Sys2Proof
end

