-- ==== Sys2Proof/Syntax.lean ====
section
/-! DEFINITION. The sixteen commands of the BFC (30_encoding.md rules R60 to R66). -/

namespace Sys2Proof

/-- One constructor per row of spec/opcode_table.json. `sig` is the signal index of format S (R62, R64);
format F has no operand (R61). -/
inductive Instr where
  /-- `NOP`, opcode 0x00 (R130). -/
  | nop
  /-- `SRESET`, opcode 0x01 (R131). -/
  | sreset
  /-- `FLD_READ s`, opcode 0x10 (R84). -/
  | fldRead (sig : Nat)
  /-- `FLD_WRITE s`, opcode 0x11 (R85). -/
  | fldWrite (sig : Nat)
  /-- `TO_SIGNED s`, opcode 0x20 (R90). -/
  | toSigned (sig : Nat)
  /-- `TO_UBITS s`, opcode 0x21 (R91). -/
  | toUbits (sig : Nat)
  /-- `DECODE s`, opcode 0x30 (R98). -/
  | decode (sig : Nat)
  /-- `ENCODE s`, opcode 0x31 (R99). -/
  | encode (sig : Nat)
  /-- `RANGE_RAW s`, opcode 0x40 (R106). -/
  | rangeRaw (sig : Nat)
  /-- `RANGE_PHYS s`, opcode 0x41 (R107). -/
  | rangePhys (sig : Nat)
  /-- `INIT`, opcode 0x50 (R111). -/
  | init
  /-- `INIT.P`, opcode 0x51 (R112). -/
  | initP
  /-- `PACK`, opcode 0x52 (R113). -/
  | pack
  /-- `PACK.P`, opcode 0x53 (R115). -/
  | packP
  /-- `UNPACK`, opcode 0x54 (R117). -/
  | unpack
  /-- `UNPACK.P`, opcode 0x55 (R118). -/
  | unpackP
  deriving DecidableEq, Repr

/-- The signal operand of a format-S command, `none` for format F (R61, R62). -/
def Instr.signal? : Instr → Option Nat
  | .fldRead s => some s
  | .fldWrite s => some s
  | .toSigned s => some s
  | .toUbits s => some s
  | .decode s => some s
  | .encode s => some s
  | .rangeRaw s => some s
  | .rangePhys s => some s
  | .nop => none
  | .sreset => none
  | .init => none
  | .initP => none
  | .pack => none
  | .packP => none
  | .unpack => none
  | .unpackP => none

end Sys2Proof
end

