-- ==== Sys2Proof/WellFormed.lean ====
section
/-! DEFINITION. When a command has a command word (30_encoding.md rules R60, R64). -/

namespace Sys2Proof

/-- R64: the one operand, `SIG`, is an unsigned number 0..255. Format F has nothing to check. -/
abbrev Instr.WellFormed (i : Instr) : Prop := ∀ s, i.signal? = some s → s < 256

end Sys2Proof
end

