-- ==== Sys2Proof/Decode.lean ====
section
/-! DEFINITION. The command decoder and encoder (30_encoding.md rules R60 to R67). -/

namespace Sys2Proof

/-- Why a word is no command: steps (2) to (4) of R63, in its order. All three are IllegalCommand. -/
inductive DecodeError where
  /-- R63 step (2): one of bits 63:16 is set. -/
  | reservedBits
  /-- R63 step (3): bits 7:0 are not one of the sixteen opcodes of R66. -/
  | unknownOpcode (opc : Nat)
  /-- R63 step (4): a format-F opcode with bits 15:8 not zero. -/
  | formatFOperand (sig : Nat)
  deriving DecidableEq, Repr

/-- `OPC`, bits 7:0 (R60). -/
def fieldOpc (v : Word) : Nat := v.toNat % 256

/-- `SIG`, bits 15:8, unsigned (R60, R64). -/
def fieldSig (v : Word) : Nat := v.toNat / 256 % 256

/-- Bits 63:16, reserved (R60). -/
def fieldReserved (v : Word) : Nat := v.toNat / 65536

/-- A format-F command, legal only with bits 15:8 zero (R63 step (4)). -/
def formatF (i : Instr) (sig : Nat) : Except DecodeError Instr :=
  if sig = 0 then .ok i else .error (.formatFOperand sig)

/-- The opcode map R66, matched on the full 8-bit opcode (R65). -/
def decodeOpcode (opc sig : Nat) : Except DecodeError Instr :=
  match opc with
  | 0x00 => formatF .nop sig
  | 0x01 => formatF .sreset sig
  | 0x10 => .ok (.fldRead sig)
  | 0x11 => .ok (.fldWrite sig)
  | 0x20 => .ok (.toSigned sig)
  | 0x21 => .ok (.toUbits sig)
  | 0x30 => .ok (.decode sig)
  | 0x31 => .ok (.encode sig)
  | 0x40 => .ok (.rangeRaw sig)
  | 0x41 => .ok (.rangePhys sig)
  | 0x50 => formatF .init sig
  | 0x51 => formatF .initP sig
  | 0x52 => formatF .pack sig
  | 0x53 => formatF .packP sig
  | 0x54 => formatF .unpack sig
  | 0x55 => formatF .unpackP sig
  | other => .error (.unknownOpcode other)

/-- R63 steps (2) to (5): total on all 64-bit words. -/
def decodeWord (v : Word) : Except DecodeError Instr :=
  if fieldReserved v ≠ 0 then .error .reservedBits
  else decodeOpcode (fieldOpc v) (fieldSig v)

/-- The opcode of a command (R66). -/
def opcodeOf : Instr → Nat
  | .nop => 0x00
  | .sreset => 0x01
  | .fldRead _ => 0x10
  | .fldWrite _ => 0x11
  | .toSigned _ => 0x20
  | .toUbits _ => 0x21
  | .decode _ => 0x30
  | .encode _ => 0x31
  | .rangeRaw _ => 0x40
  | .rangePhys _ => 0x41
  | .init => 0x50
  | .initP => 0x51
  | .pack => 0x52
  | .packP => 0x53
  | .unpack => 0x54
  | .unpackP => 0x55

/-- The command word: `OPC + 256*s` for format S, `OPC` for format F (R60, R69). -/
def encodeWord (i : Instr) : Word :=
  BitVec.ofNat 64 (opcodeOf i + 256 * i.signal?.getD 0)

/-- The command word whose low `nbits` bits are `w` and whose other bits are 0. A command is one 64-bit word and
is never cut into bytes (R44, R47, R60). -/
def wordOfBits (nbits w : Nat) : Word := BitVec.ofNat 64 (w % 2 ^ nbits)

/-- What the decoder reads from an opcode-table row's bits `w`, bit 0 the least significant of the word. -/
def decodeTableWord (nbits w : Nat) : Option Instr :=
  match decodeWord (wordOfBits nbits w) with
  | .ok i => some i
  | .error _ => none

end Sys2Proof
end

