-- ==== Sys2Proof/Config.lean ====
section
/-! DEFINITION. The implementation parameters of the BFC (00_scope.md rule R6). -/

namespace Sys2Proof

/-- The three implementation parameters of R6. `QUANTUM` is a positive rational, held as numerator and
denominator. R8: it enters no computation. R28 calls all three arguments of the step. -/
structure Params where
  /-- `MAXB`: the number of bytes in the frame buffer. -/
  maxb : Nat
  /-- `NSIG_MAX`: the number of entries of the descriptor table and of the value file. -/
  nsigMax : Nat
  /-- The numerator of `QUANTUM`. -/
  quantumNum : Nat
  /-- The denominator of `QUANTUM`. -/
  quantumDen : Nat
  deriving DecidableEq, Repr

/-- The legal values of R6: `MAXB` a multiple of 8 from 8 to 64, `NSIG_MAX` from 1 to 256, `QUANTUM` positive. -/
abbrev Params.Legal (p : Params) : Prop :=
  p.maxb % 8 = 0 ∧ 8 ≤ p.maxb ∧ p.maxb ≤ 64 ∧ 1 ≤ p.nsigMax ∧ p.nsigMax ≤ 256 ∧
    0 < p.quantumNum ∧ 0 < p.quantumDen

/-- The column "this hardware" of R6: MAXB = 8, NSIG_MAX = 64, QUANTUM = 2^-32. -/
def Params.thisHardware : Params :=
  { maxb := 8, nsigMax := 64, quantumNum := 1, quantumDen := 2 ^ 32 }

end Sys2Proof
end

