-- ==== Sys2Proof/Machine/State.lean ====
section
/-! DEFINITION. The architectural state of one BFC instance (10_state.md rule R10), the model's own fields
beside it (the arguments of the step, rule R28), the reasons a step can stop, and the state after reset. -/

namespace Sys2Proof.Machine

/-- The frame buffer FB (R15, R41) as (byte index, byte) pairs in one canonical form. -/
abbrev Memory := List Host.Cell

/-- What a byte of FB reads as when nothing lists it. R29 leaves FB unspecified after reset.
DESIGN CHOICE (log 3), unsafe: 0x00. -/
def unlistedByte : Byte := 0

/-- The canonical form: indices strictly rising, and no entry equal to what an unlisted index reads as. -/
abbrev Memory.wf (m : Memory) : Prop :=
  m.Pairwise (fun c d => c.1 < d.1) ∧ ∀ c ∈ m, c.2 ≠ unlistedByte

/-- BYTE_ORDER of R17: 0 = LittleEndian ("Intel"), 1 = BigEndian ("Motorola"). -/
inductive ByteOrder where
  | littleEndian
  | bigEndian
  deriving DecidableEq, Repr

/-- One descriptor DESC[s] (R16): the fields of its LAYOUT word (R17), whose reserved bits have no storage
(R30, log 8), and its five full words (R18, R19). -/
structure Descriptor where
  startBit : BitVec 16
  lengthBits : BitVec 7
  byteOrder : ByteOrder
  isSigned : Bool
  hasBounds : Bool
  scale : Word
  offset : Word
  rawMin : Word
  rawMax : Word
  defaultRaw : Word
  deriving DecidableEq, Repr

/-- The descriptor all of whose words are 0. -/
def Descriptor.blank : Descriptor :=
  { startBit := 0, lengthBits := 0, byteOrder := .littleEndian, isSigned := false, hasBounds := false,
    scale := 0, offset := 0, rawMin := 0, rawMax := 0, defaultRaw := 0 }

/-- The MSG register (R20). -/
structure MsgReg where
  lengthBytes : BitVec 8
  numSignals : BitVec 9
  deriving DecidableEq, Repr

/-- The CTRL register (R21). -/
structure CtrlReg where
  bufcap : BitVec 8
  bufv : Bool
  valv : Bool
  deriving DecidableEq, Repr

/-- STATUS.ERR (R22, R142). -/
inductive ErrCode where
  /-- 0: the command ran to its end. -/
  | ok
  /-- 1: CapacityError. -/
  | capacity
  /-- 2: ArgumentError. -/
  | argument
  /-- 3: IllegalCommand. -/
  | illegal
  deriving DecidableEq, Repr

/-- The STATUS register (R22). -/
structure StatusReg where
  err : ErrCode
  inr : Bool
  sat : Bool
  fatal : Bool
  fsig : BitVec 8
  fcause : BitVec 3
  deriving DecidableEq, Repr

/-- The layout assertions of R144, by what they assert; the cause number is `LayoutCause.code`. -/
inductive LayoutCause where
  /-- Cause 1: LENGTH_BITS is 0 or above 64. -/
  | fieldLength
  /-- Cause 2: the field does not lie inside the frame. -/
  | fieldPlace
  /-- Cause 3: SCALE is 0. -/
  | scaleZero
  /-- Cause 4: NUM_SIGNALS is above NSIG_MAX. -/
  | signalCount
  /-- Cause 5: LENGTH_BYTES is above MAXB. -/
  | frameLength
  deriving DecidableEq, Repr

/-- `LayoutFault(cause, s)` (R145). `sig` is 0 for causes 4 and 5. -/
structure LayoutFault where
  cause : LayoutCause
  sig : Nat
  deriving DecidableEq, Repr

/-- The contents of the items that a hardware reset leaves unspecified (R29, R160): the data of one reset
event. Entries that a list does not reach are 0; entries beyond the hardware's size do not exist. -/
structure Storage where
  fb : List Byte
  raw : List Word
  phys : List Word
  desc : List Descriptor
  deriving DecidableEq, Repr

/-- What can reach the BFC from outside, between commands (R9, R44, R47, R160, R161). -/
inductive PortEvent where
  /-- `HostRead(n)` (R44). -/
  | read (n : BitVec 12)
  /-- `HostWrite(n, v)` (R44). -/
  | write (n : BitVec 12) (v : Word)
  /-- A read of `size` bytes at byte `offset` from the block's base, on a byte-addressed bus (R47). -/
  | busRead (offset size : Nat)
  /-- A write of `size` bytes at byte `offset` from the block's base, on a byte-addressed bus (R47). -/
  | busWrite (offset size : Nat) (v : Word)
  /-- A hardware reset (R160) that leaves `contents` in the items with no reset value. -/
  | hardReset (contents : Storage)
  deriving DecidableEq, Repr

/-- What the port answers to one transaction (R44). -/
inductive PortAnswer where
  /-- The word a read returns. -/
  | data (w : Word)
  /-- `Done`. -/
  | done
  /-- `PortError`: the register number is not implemented (R46). -/
  | portError
  deriving DecidableEq, Repr

/-- The state. The first eleven fields are the list of R10. `params`, `pending` and `answers` are the model's
own: the implementation parameters and the host's sequence of accesses, which R28 calls arguments of the
step, and what the port answered. -/
structure State where
  /-- XR (R11). -/
  xr : Word
  /-- XP (R12). -/
  xp : Word
  /-- RAW[s] (R13), `params.nsigMax` words. -/
  raw : List Word
  /-- PHYS[s] (R14), `params.nsigMax` words. -/
  phys : List Word
  /-- FB[i] (R15). -/
  fb : Memory
  /-- DESC[s] (R16), `params.nsigMax` descriptors. -/
  desc : List Descriptor
  /-- MSG (R20). -/
  msg : MsgReg
  /-- CTRL (R21). -/
  ctrl : CtrlReg
  /-- STATUS (R22). -/
  status : StatusReg
  /-- RESULT (R23). -/
  result : Word
  /-- MAXB, NSIG_MAX, QUANTUM (R6). -/
  params : Params
  /-- Transactions and resets not yet served, oldest first (R28, log 4). -/
  pending : List PortEvent
  /-- Answers of the port, newest first (R44, log 4). -/
  answers : List PortAnswer
  deriving DecidableEq, Repr

/-- Why a step stops with a fault. -/
inductive Fault where
  /-- The engine would address the byte `index` of FB, and there is no such byte (R41). Raised by
  `guardBytes`, in the commands that use the buffer. Safe: the machine stops. R83 says no rule can form
  such an index (log 9). -/
  | noSuchByte (index : Nat)
  deriving DecidableEq, Repr

/-- Why a step is refused. -/
inductive Refusal where
  /-- The instruction has no meaning yet. Raised by an arm of `exec`; no arm raises it in this model. Safe. -/
  | notModelled (mnemonic : String)
  /-- A bus access that is not one whole, naturally aligned 64-bit register of the block: R47 gives it no
  meaning and asks a model to refuse it. Raised by `fetch`. Safe (log 7). -/
  | undefinedBusAccess (offset size : Nat)
  deriving DecidableEq, Repr

/-- STATUS with every field 0. -/
def StatusReg.zero : StatusReg :=
  { err := .ok, inr := false, sat := false, fatal := false, fsig := 0, fcause := 0 }

/-- CTRL = 0: no buffer, no value object. -/
def CtrlReg.zero : CtrlReg := { bufcap := 0, bufv := false, valv := false }

/-- MSG = 0: empty frame, no signals. -/
def MsgReg.zero : MsgReg := { lengthBytes := 0, numSignals := 0 }

/-- The machine right after reset (R29, R160), with the parameters of "this hardware" (R6). The contents of
RAW, PHYS, DESC and FB are unspecified by R29. DESIGN CHOICE (log 1, 2, 3), unsafe: all 0. -/
def State.reset : State :=
  { xr := 0, xp := 0,
    raw := List.replicate Params.thisHardware.nsigMax 0,
    phys := List.replicate Params.thisHardware.nsigMax 0,
    fb := [],
    desc := List.replicate Params.thisHardware.nsigMax Descriptor.blank,
    msg := MsgReg.zero, ctrl := CtrlReg.zero, status := StatusReg.zero, result := 0,
    params := Params.thisHardware, pending := [], answers := [] }

end Sys2Proof.Machine
end

