-- ==== Sys2Proof/Machine/Flags.lean ====
section
/-! DEFINITION. The words the host sees for STATUS, CTRL, MSG and LAYOUT, and the updates of the STATUS flags
(10_state.md rules R17, R20, R21, R22, R26). -/

namespace Sys2Proof.Machine

/-- A Boolean field as the number its bit holds. -/
def bit (b : Bool) : Nat := if b then 1 else 0

/-- Bit `k` of a word. -/
def wordBit (v : Word) (k : Nat) : Bool := v.getLsbD k

/-- The slice of `n` bits of a word that starts at bit `lo`. -/
def slice (v : Word) (lo n : Nat) : BitVec n := v.extractLsb' lo n

/-- The number STATUS.ERR holds (R22, R142). -/
def ErrCode.code : ErrCode → Nat
  | .ok => 0
  | .capacity => 1
  | .argument => 2
  | .illegal => 3

/-- The number FCAUSE holds (R144). -/
def LayoutCause.code : LayoutCause → BitVec 3
  | .fieldLength => 1
  | .fieldPlace => 2
  | .scaleZero => 3
  | .signalCount => 4
  | .frameLength => 5

/-- BYTE_ORDER as its bit (R17). -/
def ByteOrder.isBig : ByteOrder → Bool
  | .littleEndian => false
  | .bigEndian => true

/-- BYTE_ORDER from its bit (R17). -/
def ByteOrder.ofBit (b : Bool) : ByteOrder := if b then .bigEndian else .littleEndian

/-- STATUS as the host reads it (R22): ERR 1:0, INR 2, SAT 3, FATAL 4, FSIG 15:8, FCAUSE 18:16, the rest 0. -/
def StatusReg.word (r : StatusReg) : Word :=
  BitVec.ofNat 64 (r.err.code + 4 * bit r.inr + 8 * bit r.sat + 16 * bit r.fatal
    + 256 * r.fsig.toNat + 65536 * r.fcause.toNat)

/-- CTRL as the host reads it (R21): BUFCAP 7:0, BUFV 8, VALV 9, the rest 0. -/
def CtrlReg.word (r : CtrlReg) : Word :=
  BitVec.ofNat 64 (r.bufcap.toNat + 256 * bit r.bufv + 512 * bit r.valv)

/-- CTRL as a host write stores it; reserved bits are ignored (R21, R30). -/
def CtrlReg.ofWord (v : Word) : CtrlReg :=
  { bufcap := slice v 0 8, bufv := wordBit v 8, valv := wordBit v 9 }

/-- MSG as the host reads it (R20): LENGTH_BYTES 7:0, NUM_SIGNALS 24:16, the rest 0. -/
def MsgReg.word (r : MsgReg) : Word :=
  BitVec.ofNat 64 (r.lengthBytes.toNat + 65536 * r.numSignals.toNat)

/-- MSG as a host write stores it; reserved bits are ignored (R20, R30). -/
def MsgReg.ofWord (v : Word) : MsgReg :=
  { lengthBytes := slice v 0 8, numSignals := slice v 16 9 }

/-- LAYOUT as the host reads it (R17): START_BIT 15:0, LENGTH_BITS 22:16, BYTE_ORDER 24, IS_SIGNED 25,
HAS_BOUNDS 26, the rest 0. -/
def Descriptor.layoutWord (d : Descriptor) : Word :=
  BitVec.ofNat 64 (d.startBit.toNat + 2 ^ 16 * d.lengthBits.toNat + 2 ^ 24 * bit d.byteOrder.isBig
    + 2 ^ 25 * bit d.isSigned + 2 ^ 26 * bit d.hasBounds)

/-- LAYOUT as a host write stores it; reserved bits are ignored (R17, R30). -/
def Descriptor.withLayoutWord (d : Descriptor) (v : Word) : Descriptor :=
  { d with
    startBit := slice v 0 16
    lengthBits := slice v 16 7
    byteOrder := ByteOrder.ofBit (wordBit v 24)
    isSigned := wordBit v 25
    hasBounds := wordBit v 26 }

/-- `STATUS.ERR <- e`. -/
def State.setErr (s : State) (e : ErrCode) : State := { s with status := { s.status with err := e } }

/-- `STATUS.INR <- b`. -/
def State.setInr (s : State) (b : Bool) : State := { s with status := { s.status with inr := b } }

/-- `if sat: STATUS.SAT <- 1`. Sticky: never cleared here (R26). -/
def State.noteSat (s : State) (sat : Bool) : State :=
  { s with status := { s.status with sat := s.status.sat || sat } }

/-- A host write to STATUS: `STATUS.SAT <- STATUS.SAT & ~v[3]`, nothing else (R22). -/
def State.clearSat (s : State) (v : Word) : State :=
  { s with status := { s.status with sat := s.status.sat && !wordBit v 3 } }

end Sys2Proof.Machine
end

