-- ==== Sys2Proof/Machine/Operands.lean ====
section
/-! DEFINITION. The operand forms of the BFC: the notation of 00_scope.md section 7, the bytes of FB, the triple
list and the accessor (40_bitfield_accessor.md), the raw integer model (41_sign_extension.md), the transform
(42_scale_offset.md) and the bounds (43_range.md). -/

namespace Sys2Proof.Machine

/-! ## Words as integers (00_scope.md section 7.1) -/

/-- `uint(w)`. -/
def uint (w : Word) : Int := (w.toNat : Int)

/-- `sint(w)`. -/
def sint (w : Word) : Int := if w.getLsbD 63 then (w.toNat : Int) - 2 ^ 64 else (w.toNat : Int)

/-- `word(n)`: `n mod 2^64`; it wraps, it never saturates. -/
def wordOf (n : Int) : Word := BitVec.ofInt 64 n

/-- `mask(L) = 2^L - 1`, for L in 1..64. -/
def mask (len : Nat) : Word := BitVec.ofNat 64 (2 ^ len - 1)

/-- `zext_L(v)`. -/
def zextL (len : Nat) (v : Word) : Word := v &&& mask len

/-- `sext_L(v)`. -/
def sextL (len : Nat) (v : Word) : Word :=
  let u := zextL len v
  if u.getLsbD (len - 1) then wordOf (uint u - 2 ^ len) else u

/-- `sat64(a)`: the word and whether it was saturated. -/
def sat64 (a : Int) : Word × Bool :=
  if a > 2 ^ 63 - 1 then (0x7FFFFFFFFFFFFFFF, true)
  else if a < -2 ^ 63 then (0x8000000000000000, true)
  else (wordOf a, false)

/-! ## Bytes of the frame buffer (R40, R41, R49) -/

/-- `FB[i]`. -/
def fbRead : Memory → Nat → Byte
  | [], _ => unlistedByte
  | (k, v) :: m, i => if k = i then v else fbRead m i

/-- `FB[i] <- b`, in canonical form. -/
def fbWrite : Memory → Nat → Byte → Memory
  | [], i, b => if b = unlistedByte then [] else [(i, b)]
  | (k, v) :: m, i, b =>
    if i < k then (if b = unlistedByte then (k, v) :: m else (i, b) :: (k, v) :: m)
    else if i = k then (if b = unlistedByte then m else (i, b) :: m)
    else (k, v) :: fbWrite m i b

/-- Bit `k` of `FB[b]`: `(FB[b] >> k) & 1` (R49). -/
def fbBit (m : Memory) (b k : Nat) : Bool := (fbRead m b).getLsbD k

/-- One bit of FB replaced, the other seven bits of its byte kept (R49, R82):
`FB[b] = (FB[b] & ~(1 << k)) | (bit << k)`. -/
def fbSetBit (m : Memory) (b k : Nat) (x : Bool) : Memory :=
  fbWrite m b ((fbRead m b &&& ~~~((1 : Byte) <<< k)) ||| ((if x then 1 else 0 : Byte) <<< k))

/-- `for i = 0 .. n-1: FB[i] <- 0x00` (R113). -/
def fbZero (m : Memory) (n : Nat) : Memory := (List.range n).foldl (fun m i => fbWrite m i 0) m

/-- Byte `j` of a word, byte 0 the least significant (R48). -/
def byteOf (v : Word) (j : Nat) : Byte := v.extractLsb' (8 * j) 8

/-- `FBWk`: eight bytes of FB packed little-endian (R48). -/
def fbWindow (m : Memory) (k : Nat) : Word :=
  (List.range 8).foldl (fun w j => w ||| ((fbRead m (8 * k + j)).setWidth 64 <<< (8 * j))) 0

/-- A host write to `FBWk`: `FB[8k+j] <- v[8j+7:8j]` for all eight j (R48). -/
def fbSetWindow (m : Memory) (k : Nat) (v : Word) : Memory :=
  (List.range 8).foldl (fun m j => fbWrite m (8 * k + j) (byteOf v j)) m

/-! ## The triple list (R80) -/

/-- `(byte_index, bit_in_byte, bit_weight)`. -/
structure Triple where
  byte : Nat
  pos : Nat
  weight : Nat
  deriving DecidableEq, Repr

/-- `START_BIT` as a number. -/
def Descriptor.start (d : Descriptor) : Nat := d.startBit.toNat

/-- `LENGTH_BITS` as a number. -/
def Descriptor.len (d : Descriptor) : Nat := d.lengthBits.toNat

/-- The LittleEndian branch of R80: weights ascend with the stream position `p = a + i`. -/
def triplesLittle (a len : Nat) : List Triple :=
  (List.range len).map fun i => { byte := (a + i) / 8, pos := (a + i) % 8, weight := i }

/-- The BigEndian branch of R80 from bit `k` of byte `b` on, with `n` bits still to come: the next has weight
`n - 1`; after bit 0 of a byte comes bit 7 of the next. -/
def triplesBig (b k : Nat) : Nat → List Triple
  | 0 => []
  | n + 1 =>
    { byte := b, pos := k, weight := n } :: (if k = 0 then triplesBig (b + 1) 7 n else triplesBig b (k - 1) n)

/-- `triples(s)` (R80). -/
def triples (d : Descriptor) : List Triple :=
  match d.byteOrder with
  | .littleEndian => triplesLittle d.start d.len
  | .bigEndian => triplesBig (d.start / 8) (d.start % 8) d.len

/-- The byte indices the accessor addresses for a field (R83). -/
def touchedBytes (d : Descriptor) : List Nat := (triples d).map Triple.byte

/-- The first bit past the field, counted in the direction of travel: `a + L` (LittleEndian), `q0 + L`
(BigEndian) with `q0 = 8*(a div 8) + 7 - (a mod 8)` (R86, R144 cause 2). -/
def Descriptor.endBit (d : Descriptor) : Nat :=
  match d.byteOrder with
  | .littleEndian => d.start + d.len
  | .bigEndian => 8 * (d.start / 8) + 7 - d.start % 8 + d.len

/-! ## The accessor (R81, R82) -/

/-- `fld_read(s)` (R81): a 64-bit unsigned accumulator, OR of `((FB[b] >> k) & 1) << wgt`. -/
def fldRead (d : Descriptor) (m : Memory) : Word :=
  (triples d).foldl
    (fun u t => u ||| ((if fbBit m t.byte t.pos then 1 else 0 : Word) <<< t.weight)) 0

/-- `fld_write(s, w)` (R82): bit `wgt` of `w` into each triple's place. -/
def fldWrite (d : Descriptor) (m : Memory) (w : Word) : Memory :=
  (triples d).foldl (fun m t => fbSetBit m t.byte t.pos (wordBit w t.weight)) m

/-! ## The raw integer model (R18, R90) -/

/-- `ival(s, w)` (R18). -/
def ival (d : Descriptor) (w : Word) : Int := if d.isSigned then sint w else uint w

/-- What TO_SIGNED makes of a word: `sext_L` when IS_SIGNED, `zext_L` otherwise (R90, R92 `sx`). -/
def extendRaw (d : Descriptor) (w : Word) : Word :=
  if d.isSigned then sextL d.len w else zextL d.len w

/-- What UNPACK stores for a field: the bits read, sign-extended when IS_SIGNED (R117). -/
def fldValue (d : Descriptor) (m : Memory) : Word :=
  if d.isSigned then sextL d.len (fldRead d m) else fldRead d m

/-! ## The transform (R95 to R97) -/

/-- `S`. -/
def Descriptor.scaleInt (d : Descriptor) : Int := sint d.scale

/-- `O`. -/
def Descriptor.offsetInt (d : Descriptor) : Int := sint d.offset

/-- `dec(s, r)` (R95): the exact `r*S + O`, saturated. -/
def dec (d : Descriptor) (r : Int) : Word × Bool := sat64 (r * d.scaleInt + d.offsetInt)

/-- `rha(a, b)` (R96): `a / b` to the nearest integer, ties away from zero. -/
def rha (a b : Int) : Int :=
  a.sign * b.sign * (((2 * a.natAbs + b.natAbs) / (2 * b.natAbs) : Nat) : Int)

/-- `enc(s, p)` (R97). -/
def enc (d : Descriptor) (p : Word) : Int := rha (sint p - d.offsetInt) d.scaleInt

/-! ## The bounds (R105 to R107) -/

/-- `lo(s)` (R105). -/
def loBound (d : Descriptor) : Int :=
  if d.hasBounds then ival d d.rawMin
  else if d.isSigned then -2 ^ (d.len - 1)
  else 0

/-- `hi(s)` (R105). -/
def hiBound (d : Descriptor) : Int :=
  if d.hasBounds then ival d d.rawMax
  else if d.isSigned then 2 ^ (d.len - 1) - 1
  else 2 ^ d.len - 1

/-- The predicate of RANGE_RAW (R106): `lo(s) <= r <= hi(s)`. -/
def inRangeRaw (d : Descriptor) (w : Word) : Bool :=
  decide (loBound d ≤ ival d w ∧ ival d w ≤ hiBound d)

/-- The predicate of RANGE_PHYS (R107): XP between the saturating decodes of the raw bounds. -/
def inRangePhys (d : Descriptor) (p : Word) : Bool :=
  let pa := sint (dec d (loBound d)).1
  let pb := sint (dec d (hiBound d)).1
  decide (min pa pb ≤ sint p ∧ sint p ≤ max pa pb)

end Sys2Proof.Machine
end

