-- ==== Sys2Proof/Machine/Ops.lean ====
section
/-! DEFINITION. The shared operations over the state: the value file and the descriptor table, the ways a
command ends (60_exceptions.md), the tests that precede a command's effect in the order of rule R146, the
signal loop (44_frame_codec.md rule R110), and reset (10_state.md rule R29). -/

namespace Sys2Proof.Machine

/-- What `exec` and `step` answer. -/
abbrev Result := Host.Outcome State Fault Refusal

/-! ## Registers -/

/-- `RAW[i]` (R13). -/
def State.rawAt (s : State) (i : Nat) : Word := s.raw.getD i 0

/-- `PHYS[i]` (R14). -/
def State.physAt (s : State) (i : Nat) : Word := s.phys.getD i 0

/-- `DESC[i]` (R16). -/
def State.descAt (s : State) (i : Nat) : Descriptor := s.desc.getD i Descriptor.blank

/-- `XR <- w` (R11). -/
def State.setXr (s : State) (w : Word) : State := { s with xr := w }

/-- `XP <- w` (R12). -/
def State.setXp (s : State) (w : Word) : State := { s with xp := w }

/-- `RESULT <- w` (R23). -/
def State.setResult (s : State) (w : Word) : State := { s with result := w }

/-- `RAW[i] <- w` (R13). -/
def State.setRaw (s : State) (i : Nat) (w : Word) : State := { s with raw := s.raw.set i w }

/-- `PHYS[i] <- w` (R14). -/
def State.setPhys (s : State) (i : Nat) (w : Word) : State := { s with phys := s.phys.set i w }

/-- A host write to one word of `DESC[i]` (R16). -/
def State.setDesc (s : State) (i : Nat) (d : Descriptor) : State := { s with desc := s.desc.set i d }

/-- FB replaced as a whole by what an accessor left of it. -/
def State.setFb (s : State) (m : Memory) : State := { s with fb := m }

/-- `CTRL.VALV <- 1` (R21). -/
def State.setValv (s : State) : State := { s with ctrl := { s.ctrl with valv := true } }

/-- `N = MSG.NUM_SIGNALS`. -/
def State.numSignals (s : State) : Nat := s.msg.numSignals.toNat

/-- `n = MSG.LENGTH_BYTES`. -/
def State.frameBytes (s : State) : Nat := s.msg.lengthBytes.toNat

/-! ## How a command ends (R140, R141, R145) -/

/-- Success: `STATUS.ERR <- 0` is the last write (R140 (5)). -/
def succeed (s : State) : Result := .next (s.setErr .ok)

/-- `raise Err(code)` (R141): `STATUS.ERR <- code`; `s` is the state with the writes the same line names. -/
def raiseErr (code : ErrCode) (s : State) : Result := .next (s.setErr code)

/-- The entry into the fatal state (R145): FATAL, FCAUSE, FSIG, and nothing else. -/
def State.raiseLayoutFault (s : State) (f : LayoutFault) : State :=
  { s with status :=
      { s.status with fatal := true, fcause := f.cause.code, fsig := BitVec.ofNat 8 f.sig } }

/-- IllegalCommand (R63, R67): `STATUS.ERR <- 3`, nothing else; ignored in the fatal state (R63 step (1)). -/
def illegalCommand (s : State) : Result := if s.status.fatal then .next s else raiseErr .illegal s

/-! ## The tests before a command's effect (R146) -/

/-- R146 step 1, R147: in the fatal state the command is ignored. -/
def whenLive (s : State) (k : Result) : Result := if s.status.fatal then .next s else k

/-- R146 step 3, R64: `SIG >= MSG.NUM_SIGNALS` is an ArgumentError; `onErr` holds the line's other writes. -/
def requireSignal (s : State) (i : Nat) (onErr : State) (k : Result) : Result :=
  if s.numSignals ≤ i then raiseErr .argument onErr else k

/-- R146 step 4 for the commands that use the buffer only: `CTRL.BUFV = 0` is an ArgumentError. -/
def requireBuffer (s onErr : State) (k : Result) : Result :=
  if s.ctrl.bufv then k else raiseErr .argument onErr

/-- R146 step 4 for PACK and PACK.P: `CTRL.VALV = 0 or CTRL.BUFV = 0` is an ArgumentError. -/
def requireBufferAndValues (s onErr : State) (k : Result) : Result :=
  if s.ctrl.valv && s.ctrl.bufv then k else raiseErr .argument onErr

/-- R146 step 5: `CTRL.BUFCAP < MSG.LENGTH_BYTES` is a CapacityError. -/
def requireCapacity (s onErr : State) (k : Result) : Result :=
  if s.ctrl.bufcap.toNat < s.frameBytes then raiseErr .capacity onErr else k

/-- `assert_msg()`, cause 4 (R144). -/
def assertMsg (s : State) : Option LayoutFault :=
  if s.params.nsigMax < s.numSignals then some { cause := .signalCount, sig := 0 } else none

/-- `assert_frame()`, cause 5 (R144). -/
def assertFrame (s : State) : Option LayoutFault :=
  if s.params.maxb < s.frameBytes then some { cause := .frameLength, sig := 0 } else none

/-- `assert_field(s)`, cause 1 (R144). -/
def assertField (s : State) (i : Nat) : Option LayoutFault :=
  if (s.descAt i).len = 0 ∨ 64 < (s.descAt i).len then some { cause := .fieldLength, sig := i } else none

/-- `assert_place(s)`, cause 2 (R144): the sum is formed without wrapping. -/
def assertPlace (s : State) (i : Nat) : Option LayoutFault :=
  if 8 * s.frameBytes < (s.descAt i).endBit then some { cause := .fieldPlace, sig := i } else none

/-- `assert_xform(s)`, cause 3 (R144). -/
def assertXform (s : State) (i : Nat) : Option LayoutFault :=
  if (s.descAt i).scale = 0 then some { cause := .scaleZero, sig := i } else none

/-- The first assertion that fails, in the order of the list (R146 step 6). -/
def firstFault : List (Option LayoutFault) → Option LayoutFault
  | [] => none
  | some f :: _ => some f
  | none :: rest => firstFault rest

/-- R146 step 6: the assertions in order; the first failing one is the LayoutFault raised (R145). -/
def asserting (s : State) (checks : List (Option LayoutFault)) (k : Result) : Result :=
  match firstFault checks with
  | some f => .next (s.raiseLayoutFault f)
  | none => k

/-- The per-signal part of an assertion pass: signals ascending, each with its own assertions in order
(R110 phase 3, R146 step 6). -/
def assertEach (s : State) (checks : Nat → List (Option LayoutFault)) : List (Option LayoutFault) :=
  (List.range s.numSignals).flatMap checks

/-- An engine access to FB is an access to bytes that exist (R41): otherwise a fault, which R83 rules out. -/
def guardBytes (s : State) (bytes : List Nat) (k : Result) : Result :=
  match bytes.find? (fun b => s.params.maxb ≤ b) with
  | some b => .fault (.noSuchByte b)
  | none => k

/-- The bytes the accessor addresses for every signal of the layout. -/
def State.layoutBytes (s : State) : List Nat :=
  (List.range s.numSignals).flatMap fun i => touchedBytes (s.descAt i)

/-! ## The signal loop (R110 phase 4, R126) -/

/-- `for s = 0 .. N-1: body`, one signal completely before the next. -/
def forSignals (s : State) (body : Nat → State → State) : State :=
  (List.range s.numSignals).foldl (fun t i => body i t) s

/-! ## Reset (R29, R131, R160) -/

/-- The items that have a reset value, at that value (R29); the others unchanged. -/
def State.resetControl (s : State) : State :=
  { s with
    status := StatusReg.zero, result := 0, ctrl := CtrlReg.zero, msg := MsgReg.zero, xr := 0, xp := 0 }

/-- SRESET's effect, the way out of the fatal state (R131, R148): FB, RAW, PHYS and DESC survive. -/
def State.softReset (s : State) : State := s.resetControl

/-- A list of exactly `n` entries: `l`, cut or filled up with `z`. -/
def fitTo {α : Type} (n : Nat) (z : α) (l : List α) : List α := (List.range n).map fun i => l.getD i z

/-- FB holding the bytes of a list from index 0 on. -/
def fbOfBytes (bytes : List Byte) : Memory :=
  (List.range bytes.length).foldl (fun m i => fbWrite m i (bytes.getD i 0)) []

/-- A hardware reset (R160): the items that R29 calls unspecified hold what the event brings (log 6). -/
def State.hardReset (s : State) (c : Storage) : State :=
  { s.resetControl with
    fb := fbOfBytes (c.fb.take s.params.maxb)
    raw := fitTo s.params.nsigMax 0 c.raw
    phys := fitTo s.params.nsigMax 0 c.phys
    desc := fitTo s.params.nsigMax Descriptor.blank c.desc }

end Sys2Proof.Machine
end

