-- ==== Sys2Proof/Machine/Accessor.lean ====
section
/-! DEFINITION. The Bit-Field Accessor commands FLD_READ and FLD_WRITE (40_bitfield_accessor.md). -/

namespace Sys2Proof.Machine

/-- The tests FLD_READ and FLD_WRITE share, in their order (R84, R85). -/
def onField (i : Nat) (s : State) (k : Result) : Result :=
  whenLive s <|
  requireSignal s i s <|
  requireBuffer s s <|
  requireCapacity s s <|
  asserting s [assertMsg s, assertFrame s, assertField s i, assertPlace s i] <|
  guardBytes s (touchedBytes (s.descAt i)) k

/-- FLD_READ s (R84): the bare bits of the field into XR, no sign extension. -/
def execFldRead (sig : Nat) (s : State) : Result :=
  onField sig s (succeed (s.setXr (fldRead (s.descAt sig) s.fb)))

/-- FLD_WRITE s (R85): the low L bits of XR into the field, every other bit of FB kept. -/
def execFldWrite (sig : Nat) (s : State) : Result :=
  onField sig s (succeed (s.setFb (fldWrite (s.descAt sig) s.fb s.xr)))

end Sys2Proof.Machine
end

