-- ==== Sys2Proof/Machine/Frame.lean ====
section
/-! DEFINITION. The frame codec commands INIT, INIT.P, PACK, PACK.P, UNPACK, UNPACK.P (44_frame_codec.md): the
five phases of rule R110. -/

namespace Sys2Proof.Machine

/-- One signal of INIT (R111): `RAW[s] <- DESC[s].DEFAULT_RAW`, the whole word, not masked. -/
def initSignal (i : Nat) (s : State) : State := s.setRaw i (s.descAt i).defaultRaw

/-- `PHYS[s] <- w; if sat: STATUS.SAT <- 1`, for the decode of a raw word (R112, R118). -/
def decodeSignal (i : Nat) (w : Word) (s : State) : State :=
  let d := s.descAt i
  let r := dec d (ival d w)
  (s.setPhys i r.1).noteSat r.2

/-- One signal of INIT.P (R112). -/
def initSignalP (i : Nat) (s : State) : State :=
  decodeSignal i (s.descAt i).defaultRaw (initSignal i s)

/-- One signal of PACK (R113): the low L bits of `RAW[s]`. -/
def packSignal (i : Nat) (s : State) : State := s.setFb (fldWrite (s.descAt i) s.fb (s.rawAt i))

/-- One signal of PACK.P (R115): the encoded `PHYS[s]`; the value file is not written. -/
def packSignalP (i : Nat) (s : State) : State :=
  s.setFb (fldWrite (s.descAt i) s.fb (wordOf (enc (s.descAt i) (s.physAt i))))

/-- One signal of UNPACK (R117). -/
def unpackSignal (i : Nat) (s : State) : State := s.setRaw i (fldValue (s.descAt i) s.fb)

/-- One signal of UNPACK.P (R118). -/
def unpackSignalP (i : Nat) (s : State) : State :=
  decodeSignal i (fldValue (s.descAt i) s.fb) (unpackSignal i s)

/-- The zero-fill and the completion of PACK and PACK.P around the signal loop (R113, R115, R116). -/
def packWith (body : Nat → State → State) (s : State) : Result :=
  let filled := s.setFb (fbZero s.fb s.frameBytes)
  succeed ((forSignals filled body).setResult (BitVec.ofNat 64 s.frameBytes))

/-- The signal loop and the completion of INIT, INIT.P, UNPACK and UNPACK.P: they produce a value object. -/
def produceValues (body : Nat → State → State) (s : State) : Result := succeed (forSignals s body).setValv

/-- The argument and capacity checks of PACK and PACK.P, each with `RESULT <- 0` (R113, R115, R23). -/
def onPackArguments (s : State) (k : Result) : Result :=
  whenLive s <|
  requireBufferAndValues s (s.setResult 0) <|
  requireCapacity s (s.setResult 0) k

/-- The argument and capacity checks of UNPACK and UNPACK.P (R117, R118). -/
def onUnpackArguments (s : State) (k : Result) : Result :=
  whenLive s <|
  requireBuffer s s <|
  requireCapacity s s k

/-- INIT (R111): no argument and no capacity check. -/
def execInit (s : State) : Result :=
  whenLive s <|
  asserting s (assertMsg s :: assertEach s fun i => [assertField s i]) <|
  produceValues initSignal s

/-- INIT.P (R112). -/
def execInitP (s : State) : Result :=
  whenLive s <|
  asserting s (assertMsg s :: assertEach s fun i => [assertField s i, assertXform s i]) <|
  produceValues initSignalP s

/-- PACK (R113). -/
def execPack (s : State) : Result :=
  onPackArguments s <|
  asserting s (assertMsg s :: assertFrame s :: assertEach s fun i => [assertField s i, assertPlace s i]) <|
  guardBytes s (List.range s.frameBytes ++ s.layoutBytes) <|
  packWith packSignal s

/-- PACK.P (R115). -/
def execPackP (s : State) : Result :=
  onPackArguments s <|
  asserting s (assertMsg s :: assertFrame s ::
    assertEach s fun i => [assertField s i, assertPlace s i, assertXform s i]) <|
  guardBytes s (List.range s.frameBytes ++ s.layoutBytes) <|
  packWith packSignalP s

/-- UNPACK (R117). -/
def execUnpack (s : State) : Result :=
  onUnpackArguments s <|
  asserting s (assertMsg s :: assertFrame s :: assertEach s fun i => [assertField s i, assertPlace s i]) <|
  guardBytes s s.layoutBytes <|
  produceValues unpackSignal s

/-- UNPACK.P (R118). -/
def execUnpackP (s : State) : Result :=
  onUnpackArguments s <|
  asserting s (assertMsg s :: assertFrame s ::
    assertEach s fun i => [assertField s i, assertPlace s i, assertXform s i]) <|
  guardBytes s s.layoutBytes <|
  produceValues unpackSignalP s

end Sys2Proof.Machine
end

