-- ==== Sys2Proof/Machine/Range.lean ====
section
/-! DEFINITION. The range commands RANGE_RAW and RANGE_PHYS (43_range.md). -/

namespace Sys2Proof.Machine

/-- RANGE_RAW s (R106). An invalid signal index also clears INR. -/
def execRangeRaw (sig : Nat) (s : State) : Result :=
  whenLive s <|
  requireSignal s sig (s.setInr false) <|
  asserting s [assertMsg s, assertField s sig] <|
  succeed (s.setInr (inRangeRaw (s.descAt sig) s.xr))

/-- RANGE_PHYS s (R107). SAT is not changed even when a bound saturates. -/
def execRangePhys (sig : Nat) (s : State) : Result :=
  whenLive s <|
  requireSignal s sig (s.setInr false) <|
  asserting s [assertMsg s, assertField s sig, assertXform s sig] <|
  succeed (s.setInr (inRangePhys (s.descAt sig) s.xp))

end Sys2Proof.Machine
end

