-- ==== Sys2Proof/Machine/Sign.lean ====
section
/-! DEFINITION. The sign-extension commands TO_SIGNED and TO_UBITS (41_sign_extension.md). -/

namespace Sys2Proof.Machine

/-- The tests TO_SIGNED and TO_UBITS share (R90, R91): no buffer check. -/
def onWidth (i : Nat) (s : State) (k : Result) : Result :=
  whenLive s <|
  requireSignal s i s <|
  asserting s [assertMsg s, assertField s i] k

/-- TO_SIGNED s (R90). -/
def execToSigned (sig : Nat) (s : State) : Result :=
  onWidth sig s (succeed (s.setXr (extendRaw (s.descAt sig) s.xr)))

/-- TO_UBITS s (R91). -/
def execToUbits (sig : Nat) (s : State) : Result :=
  onWidth sig s (succeed (s.setXr (s.xr &&& mask (s.descAt sig).len)))

end Sys2Proof.Machine
end

