-- ==== Sys2Proof/Machine/System.lean ====
section
/-! DEFINITION. The system commands NOP and SRESET (45_system.md). -/

namespace Sys2Proof.Machine

/-- NOP (R130): `STATUS.ERR <- 0`; ignored in the fatal state. -/
def execNop (s : State) : Result := whenLive s (succeed s)

/-- SRESET (R131): runs in the fatal state too, and leaves it. -/
def execSreset (s : State) : Result := .next s.softReset

end Sys2Proof.Machine
end

