-- ==== Sys2Proof/Machine/Transform.lean ====
section
/-! DEFINITION. The scale/offset commands DECODE and ENCODE (42_scale_offset.md). -/

namespace Sys2Proof.Machine

/-- The tests DECODE and ENCODE share (R98, R99). -/
def onTransform (i : Nat) (s : State) (k : Result) : Result :=
  whenLive s <|
  requireSignal s i s <|
  asserting s [assertMsg s, assertField s i, assertXform s i] k

/-- DECODE s (R98): XP from all 64 bits of XR; SAT is set on saturation and never cleared here. -/
def execDecode (sig : Nat) (s : State) : Result :=
  let d := s.descAt sig
  let r := dec d (ival d s.xr)
  onTransform sig s (succeed ((s.setXp r.1).noteSat r.2))

/-- ENCODE s (R99): XR is the exact rounded quotient modulo 2^64; SAT is not changed. -/
def execEncode (sig : Nat) (s : State) : Result :=
  onTransform sig s (succeed (s.setXr (wordOf (enc (s.descAt sig) s.xp))))

end Sys2Proof.Machine
end

