-- ==== Sys2Proof/Machine/Dispatch.lean ====
section
/-! DEFINITION. The meaning of every command (30_encoding.md rule R66), one arm per constructor. -/

namespace Sys2Proof.Machine

-- One command, executed completely (00_scope.md R9, 60_exceptions.md R140).
def exec (i : Instr) (s : State) : Host.Outcome State Fault Refusal :=
  match i with
  | .nop => Sys2Proof.Machine.execNop s
  | .sreset => Sys2Proof.Machine.execSreset s
  | .fldRead sig => Sys2Proof.Machine.execFldRead sig s
  | .fldWrite sig => Sys2Proof.Machine.execFldWrite sig s
  | .toSigned sig => Sys2Proof.Machine.execToSigned sig s
  | .toUbits sig => Sys2Proof.Machine.execToUbits sig s
  | .decode sig => Sys2Proof.Machine.execDecode sig s
  | .encode sig => Sys2Proof.Machine.execEncode sig s
  | .rangeRaw sig => Sys2Proof.Machine.execRangeRaw sig s
  | .rangePhys sig => Sys2Proof.Machine.execRangePhys sig s
  | .init => Sys2Proof.Machine.execInit s
  | .initP => Sys2Proof.Machine.execInitP s
  | .pack => Sys2Proof.Machine.execPack s
  | .packP => Sys2Proof.Machine.execPackP s
  | .unpack => Sys2Proof.Machine.execUnpack s
  | .unpackP => Sys2Proof.Machine.execUnpackP s

end Sys2Proof.Machine
end

