-- ==== Sys2Proof/Machine/Port.lean ====
section
/-! DEFINITION. The host register port (20_memory.md rules R44 to R48): the register map, the transactions, and
what the next transaction asks of the engine. -/

namespace Sys2Proof.Machine

/-- The six words of a descriptor (R16). -/
inductive DescWord where
  | layout
  | scale
  | offset
  | rawMin
  | rawMax
  | defaultRaw
  deriving DecidableEq, Repr

/-- The implemented registers by name (R45). -/
inductive Reg where
  | cmd
  | status
  | result
  | ctrl
  | msg
  | xr
  | xp
  | fbw (k : Nat)
  | raw (i : Nat)
  | phys (i : Nat)
  | desc (i : Nat) (w : DescWord)
  deriving DecidableEq, Repr

/-- What the next pending event asks for. -/
inductive Fetched where
  /-- No transaction is pending: nothing happens (R160, R179). -/
  | idle
  /-- A write of `v` to CMD: the engine decodes and executes `v` in the state `s` (R24). -/
  | command (v : Word) (s : State)
  /-- The event is over and left the state `s`. -/
  | settled (s : State)
  /-- The event has no meaning in the spec (R47). -/
  | refused (r : Refusal)

/-- The word number of a descriptor word (R16, R45). -/
def DescWord.code : DescWord → Nat
  | .layout => 0
  | .scale => 1
  | .offset => 2
  | .rawMin => 3
  | .rawMax => 4
  | .defaultRaw => 5

/-- The descriptor word of a word number; 6 and 7 are unimplemented (R16, R46). -/
def descWordOf : Nat → Option DescWord
  | 0 => some .layout
  | 1 => some .scale
  | 2 => some .offset
  | 3 => some .rawMin
  | 4 => some .rawMax
  | 5 => some .defaultRaw
  | _ => none

/-- The register number of a register (R45). -/
def Reg.number : Reg → Nat
  | .cmd => 0x000
  | .status => 0x001
  | .result => 0x002
  | .ctrl => 0x003
  | .msg => 0x004
  | .xr => 0x005
  | .xp => 0x006
  | .fbw k => 0x010 + k
  | .raw i => 0x100 + i
  | .phys i => 0x200 + i
  | .desc i w => 0x800 + 8 * i + w.code

/-- The seven registers that are always implemented, numbers 0x000 to 0x006 (R45). -/
def fixedReg : Nat → Option Reg
  | 0 => some .cmd
  | 1 => some .status
  | 2 => some .result
  | 3 => some .ctrl
  | 4 => some .msg
  | 5 => some .xr
  | 6 => some .xp
  | _ => none

/-- The register at number `n`, `none` where no register is implemented (R45, R46). -/
def regAt (p : Params) (n : Nat) : Option Reg :=
  if n < 0x010 then fixedReg n
  else if n < 0x100 then (if n - 0x010 < p.maxb / 8 then some (.fbw (n - 0x010)) else none)
  else if n < 0x200 then (if n - 0x100 < p.nsigMax then some (.raw (n - 0x100)) else none)
  else if n < 0x800 then (if n - 0x200 < p.nsigMax then some (.phys (n - 0x200)) else none)
  else if (n - 0x800) / 8 < p.nsigMax then
    (descWordOf ((n - 0x800) % 8)).map (Reg.desc ((n - 0x800) / 8))
  else none

/-- One word of a descriptor as the host reads it (R16 to R19). -/
def Descriptor.word (d : Descriptor) : DescWord → Word
  | .layout => d.layoutWord
  | .scale => d.scale
  | .offset => d.offset
  | .rawMin => d.rawMin
  | .rawMax => d.rawMax
  | .defaultRaw => d.defaultRaw

/-- One word of a descriptor as a host write stores it (R16 to R19). -/
def Descriptor.withWord (d : Descriptor) (w : DescWord) (v : Word) : Descriptor :=
  match w with
  | .layout => d.withLayoutWord v
  | .scale => { d with scale := v }
  | .offset => { d with offset := v }
  | .rawMin => { d with rawMin := v }
  | .rawMax => { d with rawMax := v }
  | .defaultRaw => { d with defaultRaw := v }

/-- What a host read of a register returns; no read has a side effect (R45, R47), CMD reads 0 (R24). -/
def regRead (s : State) : Reg → Word
  | .cmd => 0
  | .status => s.status.word
  | .result => s.result
  | .ctrl => s.ctrl.word
  | .msg => s.msg.word
  | .xr => s.xr
  | .xp => s.xp
  | .fbw k => fbWindow s.fb k
  | .raw i => s.rawAt i
  | .phys i => s.physAt i
  | .desc i w => (s.descAt i).word w

/-- What a host write to a register other than CMD stores (R45): STATUS is write-1-to-clear of SAT only
(R22), RESULT ignores writes (R23). CMD stores nothing (R24). -/
def regWrite (s : State) (r : Reg) (v : Word) : State :=
  match r with
  | .cmd => s
  | .status => s.clearSat v
  | .result => s
  | .ctrl => { s with ctrl := CtrlReg.ofWord v }
  | .msg => { s with msg := MsgReg.ofWord v }
  | .xr => s.setXr v
  | .xp => s.setXp v
  | .fbw k => s.setFb (fbSetWindow s.fb k v)
  | .raw i => s.setRaw i v
  | .phys i => s.setPhys i v
  | .desc i w => s.setDesc i ((s.descAt i).withWord w v)

/-- The port answers the transaction in hand. -/
def State.answer (s : State) (a : PortAnswer) : State := { s with answers := a :: s.answers }

/-- `HostRead(n)` (R44): works in the fatal state too (R147). -/
def hostRead (s : State) (n : BitVec 12) : State :=
  match regAt s.params n.toNat with
  | none => s.answer .portError
  | some r => s.answer (.data (regRead s r))

/-- `HostWrite(n, v)` (R44): an unimplemented number changes nothing (R46); in the fatal state every write but
one to CMD is accepted and ignored (R147); CMD goes to the engine, which always answers `Done` (log 10). -/
def hostWrite (s : State) (n : BitVec 12) (v : Word) : Fetched :=
  match regAt s.params n.toNat with
  | none => .settled (s.answer .portError)
  | some .cmd => .command v (s.answer .done)
  | some r => .settled ((if s.status.fatal then s else regWrite s r v).answer .done)

/-- The register a bus access moves: register n is at byte offset 8n, and only whole, naturally aligned
64-bit accesses are defined (R47). -/
def busRegister (offset size : Nat) : Option (BitVec 12) :=
  if size = 8 ∧ offset % 8 = 0 ∧ offset / 8 < 4096 then some (BitVec.ofNat 12 (offset / 8)) else none

/-- One event from outside, at its turn (R44, R47, R160, R161). -/
def serve (s : State) : PortEvent → Fetched
  | .read n => .settled (hostRead s n)
  | .write n v => hostWrite s n v
  | .busRead offset size =>
    match busRegister offset size with
    | some n => .settled (hostRead s n)
    | none => .refused (.undefinedBusAccess offset size)
  | .busWrite offset size v =>
    match busRegister offset size with
    | some n => hostWrite s n v
    | none => .refused (.undefinedBusAccess offset size)
  | .hardReset c => .settled (s.hardReset c)

/-- The next event, oldest first, taken from the queue and served (R44, R53). -/
def fetch (s : State) : Fetched :=
  match s.pending with
  | [] => .idle
  | e :: rest => serve { s with pending := rest } e

/-- The host's next transaction is a write of the command word `w` to CMD. -/
def State.withCommand (s : State) (w : Word) : State := { s with pending := .write 0 w :: s.pending }

end Sys2Proof.Machine
end

