-- ==== Sys2Proof/Machine/Step.lean ====
section
/-! DEFINITION. One step: the next transaction of the host, completely (20_memory.md rules R44, R53). -/

namespace Sys2Proof.Machine

/-- The engine's part of a write to CMD (R63): a legal word runs its command, any other is IllegalCommand. -/
def runCommand (v : Word) (s : State) : Host.Outcome State Fault Refusal :=
  match decodeWord v with
  | .ok i => exec i s
  | .error _ => illegalCommand s

/-- One event of the host or the platform. With none pending nothing happens (R160, R179). -/
def step (s : State) : Host.Outcome State Fault Refusal :=
  match fetch s with
  | .idle => .next s
  | .command v t => runCommand v t
  | .settled t => .next t
  | .refused r => .refused r

/-- `s` with the command word `w` as the host's next transaction, a write to CMD (log 4). -/
def State.withFetchWord (s : State) (nbits w : Nat) : State := s.withCommand (wordOfBits nbits w)

end Sys2Proof.Machine
end

