-- ==== Sys2Proof/Machine/Script.lean ====
section
/-! DEFINITION. The host-script notation and its pseudo-instructions (30_encoding.md rules R69, R70), as the
transactions each line stands for. -/

namespace Sys2Proof.Machine

/-- One line of a host script (R69) or one pseudo-instruction (R70). -/
inductive ScriptLine where
  /-- `WR <reg>, <word>`. -/
  | wr (r : Reg) (v : Word)
  /-- `RD <reg>`. -/
  | rd (r : Reg)
  /-- `<MNEMONIC>` or `<MNEMONIC> <s>`. -/
  | cmd (i : Instr)
  /-- `LAYOUT <s>, start, len, order, signed, bounds`. -/
  | layout (s start len : Nat) (order : ByteOrder) (signed bounds : Bool)
  /-- `XFORM <s>, scale, offset`, integers counting QUANTUM. -/
  | xform (s : Nat) (scale offset : Int)
  /-- `BOUNDS <s>, min, max, default`. -/
  | bounds (s : Nat) (min max default : Int)
  /-- `MESSAGE bytes, signals`. -/
  | message (bytes signals : Nat)
  /-- `BUFFER cap`; R70 expands it with the old CTRL word. -/
  | buffer (oldCtrl : Word) (cap : Nat)
  /-- `CLRSAT`. -/
  | clrsat
  deriving DecidableEq, Repr

/-- `HostWrite(number of r, v)`. -/
def writeTo (r : Reg) (v : Word) : PortEvent := .write (BitVec.ofNat 12 r.number) v

/-- A flag in a word at bit `k`. -/
def flagWord (b : Bool) (k : Nat) : Word := (if b then 1 else 0 : Word) <<< k

/-- The LAYOUT word of R70: `a | (L << 16) | (o << 24) | (signed << 25) | (bounds << 26)`. -/
def layoutLiteral (start len : Nat) (order : ByteOrder) (signed bounds : Bool) : Word :=
  BitVec.ofNat 64 start ||| (BitVec.ofNat 64 len <<< 16) ||| flagWord order.isBig 24 |||
    flagWord signed 25 ||| flagWord bounds 26

/-- The transactions of a line (R69, R70). -/
def ScriptLine.expand : ScriptLine → List PortEvent
  | .wr r v => [writeTo r v]
  | .rd r => [.read (BitVec.ofNat 12 r.number)]
  | .cmd i => [writeTo .cmd (encodeWord i)]
  | .layout s a len o sg bd => [writeTo (.desc s .layout) (layoutLiteral a len o sg bd)]
  | .xform s sc off => [writeTo (.desc s .scale) (wordOf sc), writeTo (.desc s .offset) (wordOf off)]
  | .bounds s a b d =>
    [writeTo (.desc s .rawMin) (wordOf a), writeTo (.desc s .rawMax) (wordOf b),
      writeTo (.desc s .defaultRaw) (wordOf d)]
  | .message n m => [writeTo .msg (BitVec.ofNat 64 n ||| (BitVec.ofNat 64 m <<< 16))]
  | .buffer old c => [writeTo .ctrl ((old &&& 0x200) ||| BitVec.ofNat 64 c ||| 0x100)]
  | .clrsat => [writeTo .status 0x8]

/-- A script is put behind the transactions already pending (R69: in order). -/
def State.load (s : State) (script : List ScriptLine) : State :=
  { s with pending := s.pending ++ script.flatMap ScriptLine.expand }

end Sys2Proof.Machine
end

