-- ==== Sys2Proof/Safety.lean ====
section
/-! DEFINITION. The words in which claims about the BFC are made: the premises the spec names "well-formed" and
"disjoint" (section 5 of 44_frame_codec.md), the number-level meaning of a raw word, a decode and a rounding,
the failures of a command in the order of rule R146, the invariant of the state, and a run gone wrong. -/

namespace Sys2Proof.Machine

/-! ## Premises -/

/-- The engine is not in the fatal state (R147). -/
abbrev Live (s : State) : Prop := s.status.fatal = false

/-- R179: a run whose final state has STATUS.FATAL = 1 has gone wrong. -/
abbrev GoneWrong (s : State) : Prop := s.status.fatal = true

/-- The signal index names a signal of the layout (R64). -/
abbrev SignalOk (s : State) (i : Nat) : Prop := i < s.msg.numSignals.toNat

/-- The assertion of cause 4 holds (R144). -/
abbrev CountOk (s : State) : Prop := s.msg.numSignals.toNat ≤ s.params.nsigMax

/-- The assertion of cause 5 holds (R144). -/
abbrev FrameOk (s : State) : Prop := s.msg.lengthBytes.toNat ≤ s.params.maxb

/-- The assertion of cause 1 holds (R144). -/
abbrev FieldOk (d : Descriptor) : Prop := 1 ≤ d.lengthBits.toNat ∧ d.lengthBits.toNat ≤ 64

/-- `q0` of R86: the place of a BigEndian field's first bit, counted in the direction of travel. -/
def bigStart (d : Descriptor) : Nat := 8 * (d.startBit.toNat / 8) + 7 - d.startBit.toNat % 8

/-- `a + L` for LittleEndian, `q0 + L` for BigEndian (R86). -/
def fieldEnd (d : Descriptor) : Nat :=
  match d.byteOrder with
  | .littleEndian => d.startBit.toNat + d.lengthBits.toNat
  | .bigEndian => bigStart d + d.lengthBits.toNat

/-- The assertion of cause 2 holds in a frame of `n` bytes (R144). -/
abbrev PlaceOk (n : Nat) (d : Descriptor) : Prop := fieldEnd d ≤ 8 * n

/-- The assertion of cause 3 holds (R144). -/
abbrev XformOk (d : Descriptor) : Prop := d.scale ≠ 0

/-- The buffer contract holds: BUFV = 1 and BUFCAP >= LENGTH_BYTES (R143). -/
abbrev BufferOk (s : State) : Prop :=
  s.ctrl.bufv = true ∧ s.msg.lengthBytes.toNat ≤ s.ctrl.bufcap.toNat

/-- Every assertion INIT makes holds (R111). -/
abbrev InitLayoutOk (s : State) : Prop :=
  CountOk s ∧ ∀ i, i < s.msg.numSignals.toNat → FieldOk (s.descAt i)

/-- Every assertion PACK and UNPACK make holds (R113, R117). -/
abbrev FrameLayoutOk (s : State) : Prop :=
  CountOk s ∧ FrameOk s ∧
    ∀ i, i < s.msg.numSignals.toNat → FieldOk (s.descAt i) ∧ PlaceOk s.msg.lengthBytes.toNat (s.descAt i)

/-- Every descriptor of the layout has a usable transform (R144 cause 3). -/
abbrev AllXformOk (s : State) : Prop := ∀ i, i < s.msg.numSignals.toNat → XformOk (s.descAt i)

/-- The storage has the size the parameters say (R6, R10). -/
abbrev Sized (s : State) : Prop :=
  s.raw.length = s.params.nsigMax ∧ s.phys.length = s.params.nsigMax ∧ s.desc.length = s.params.nsigMax

/-! ## Places of bits -/

/-- The place (byte_index, bit_in_byte) of the bit of weight `w` of a field, in the closed form of R86. -/
def bitPlace (d : Descriptor) (w : Nat) : Nat × Nat :=
  match d.byteOrder with
  | .littleEndian => ((d.startBit.toNat + w) / 8, (d.startBit.toNat + w) % 8)
  | .bigEndian =>
    let q := bigStart d + (d.lengthBits.toNat - 1 - w)
    (q / 8, 7 - q % 8)

/-- The bit at a place of the frame buffer. -/
def bitAt (m : Memory) (p : Nat × Nat) : Bool := (fbRead m p.1).getLsbD p.2

/-- The place belongs to the field. -/
abbrev Covers (d : Descriptor) (p : Nat × Nat) : Prop := ∃ w, w < d.lengthBits.toNat ∧ bitPlace d w = p

/-- The fields share no place. -/
abbrev DisjointFields (d e : Descriptor) : Prop := ∀ w, w < d.lengthBits.toNat → ¬ Covers e (bitPlace d w)

/-- No two signals of the layout share a place (section 5 of 44_frame_codec.md). -/
abbrev Disjoint (s : State) : Prop :=
  ∀ i, i < s.msg.numSignals.toNat → ∀ j, j < s.msg.numSignals.toNat → i ≠ j →
    DisjointFields (s.descAt i) (s.descAt j)

/-! ## Numbers -/

/-- The integer a raw word stands for (R18). -/
def rawInt (d : Descriptor) (w : Word) : Int := if d.isSigned then w.toInt else (w.toNat : Int)

/-- The representable range of the field (R90, R105, R120): `-2^(L-1) .. 2^(L-1)-1` or `0 .. 2^L-1`. -/
abbrev Representable (d : Descriptor) (r : Int) : Prop :=
  (d.isSigned = true ∧ -2 ^ (d.lengthBits.toNat - 1) ≤ r ∧ r < 2 ^ (d.lengthBits.toNat - 1)) ∨
  (d.isSigned = false ∧ 0 ≤ r ∧ r < 2 ^ d.lengthBits.toNat)

/-- `w` has the low L bits of `bits` and stands for a representable integer: it is the field's value. -/
abbrev IsFieldValue (d : Descriptor) (w : Word) (bits : Nat → Bool) : Prop :=
  (∀ k, k < d.lengthBits.toNat → w.getLsbD k = bits k) ∧ Representable d (rawInt d w)

/-- The exact sum `r*S + O` (R95). -/
def exactPhys (d : Descriptor) (r : Int) : Int := r * d.scale.toInt + d.offset.toInt

/-- The nearest integer to `a` that a physical word holds (R95, `sat64`). -/
def clamp64 (a : Int) : Int := max (-2 ^ 63) (min (2 ^ 63 - 1) a)

/-- `a` does not fit a physical word. -/
abbrev Overflows64 (a : Int) : Prop := a < -2 ^ 63 ∨ 2 ^ 63 - 1 < a

/-- `q` is `a / b` rounded to the nearest integer, ties away from zero (R96). -/
abbrev RoundsTo (a b q : Int) : Prop :=
  2 * |a - q * b| ≤ |b| ∧ (2 * |a - q * b| = |b| → |a| < |q * b|)

/-- `lo` and `hi` are the raw bounds of the signal (R105). -/
abbrev BoundsOf (d : Descriptor) (lo hi : Int) : Prop :=
  (d.hasBounds = true ∧ lo = rawInt d d.rawMin ∧ hi = rawInt d d.rawMax) ∨
  (d.hasBounds = false ∧ d.isSigned = true ∧
    lo = -2 ^ (d.lengthBits.toNat - 1) ∧ hi = 2 ^ (d.lengthBits.toNat - 1) - 1) ∨
  (d.hasBounds = false ∧ d.isSigned = false ∧ lo = 0 ∧ hi = 2 ^ d.lengthBits.toNat - 1)

/-! ## What each command asserts and how it fails (R142, R144, R146) -/

/-- The commands that use the buffer (R142, R144 causes 5 and 2). -/
def usesBuffer : Instr → Bool
  | .fldRead _ => true
  | .fldWrite _ => true
  | .pack => true
  | .packP => true
  | .unpack => true
  | .unpackP => true
  | .nop => false
  | .sreset => false
  | .toSigned _ => false
  | .toUbits _ => false
  | .decode _ => false
  | .encode _ => false
  | .rangeRaw _ => false
  | .rangePhys _ => false
  | .init => false
  | .initP => false

/-- PACK and PACK.P: they need the value object, and they write RESULT (R119, R142, R23). -/
def isPack : Instr → Bool
  | .pack => true
  | .packP => true
  | .nop => false
  | .sreset => false
  | .fldRead _ => false
  | .fldWrite _ => false
  | .toSigned _ => false
  | .toUbits _ => false
  | .decode _ => false
  | .encode _ => false
  | .rangeRaw _ => false
  | .rangePhys _ => false
  | .init => false
  | .initP => false
  | .unpack => false
  | .unpackP => false

/-- RANGE_RAW and RANGE_PHYS (R106, R107). -/
def isRange : Instr → Bool
  | .rangeRaw _ => true
  | .rangePhys _ => true
  | .nop => false
  | .sreset => false
  | .fldRead _ => false
  | .fldWrite _ => false
  | .toSigned _ => false
  | .toUbits _ => false
  | .decode _ => false
  | .encode _ => false
  | .init => false
  | .initP => false
  | .pack => false
  | .packP => false
  | .unpack => false
  | .unpackP => false

/-- The commands that assert the transform (R144 cause 3). -/
def usesTransform : Instr → Bool
  | .decode _ => true
  | .encode _ => true
  | .rangePhys _ => true
  | .initP => true
  | .packP => true
  | .unpackP => true
  | .nop => false
  | .sreset => false
  | .fldRead _ => false
  | .fldWrite _ => false
  | .toSigned _ => false
  | .toUbits _ => false
  | .rangeRaw _ => false
  | .init => false
  | .pack => false
  | .unpack => false

/-- The signals whose descriptors the command asserts: its own for format S, all below NUM_SIGNALS for a frame
command (R144). -/
abbrev Asserts (i : Instr) (s : State) (j : Nat) : Prop :=
  i.signal? = some j ∨ (i.signal? = none ∧ i ≠ .nop ∧ i ≠ .sreset ∧ j < s.msg.numSignals.toNat)

/-- Descriptor `j` passes the assertions the command makes of it (R144 causes 1, 2, 3). -/
abbrev DescriptorOk (i : Instr) (s : State) (j : Nat) : Prop :=
  FieldOk (s.descAt j) ∧
  (usesBuffer i = true → PlaceOk s.msg.lengthBytes.toNat (s.descAt j)) ∧
  (usesTransform i = true → XformOk (s.descAt j))

/-- The cause a failing descriptor is reported with: 1, then 2, then 3 (R146 step 6). -/
def descriptorCause (i : Instr) (s : State) (j : Nat) : BitVec 3 :=
  if ¬ FieldOk (s.descAt j) then 1
  else if usesBuffer i = true ∧ ¬ PlaceOk s.msg.lengthBytes.toNat (s.descAt j) then 2
  else 3

/-- The state `raise LayoutFault(cause, sig)` leaves (R145). -/
abbrev State.faulted (s : State) (cause : BitVec 3) (sig : Nat) : State :=
  { s with status := { s.status with fatal := true, fcause := cause, fsig := BitVec.ofNat 8 sig } }

/-- The state `STATUS.ERR <- e` leaves. -/
abbrev State.withErr (s : State) (e : ErrCode) : State := { s with status := { s.status with err := e } }

/-- The state `raise Err(code)` leaves, with the writes its line names: `RESULT <- 0` in PACK and PACK.P,
`STATUS.INR <- 0` in RANGE_RAW and RANGE_PHYS (R141). -/
abbrev State.failed (s : State) (i : Instr) (e : ErrCode) : State :=
  { s with
    result := if isPack i then 0 else s.result
    status := { s.status with err := e, inr := if isRange i then false else s.status.inr } }

/-- R146 step 3. -/
abbrev BadSignal (i : Instr) (s : State) : Prop := ∃ k, i.signal? = some k ∧ ¬ SignalOk s k

/-- R146 step 4. -/
abbrev MissingReference (i : Instr) (s : State) : Prop :=
  usesBuffer i = true ∧ (s.ctrl.bufv = false ∨ (isPack i = true ∧ s.ctrl.valv = false))

/-- R146 step 5. -/
abbrev ShortBuffer (i : Instr) (s : State) : Prop :=
  usesBuffer i = true ∧ s.ctrl.bufcap.toNat < s.msg.lengthBytes.toNat

/-- None of R146 steps 3 to 5 applies. -/
abbrev ArgumentsOk (i : Instr) (s : State) : Prop :=
  ¬ BadSignal i s ∧ ¬ MissingReference i s ∧ ¬ ShortBuffer i s

/-- R146 steps 1 and 3 to 6 for a command other than NOP and SRESET: the failing cases, each only when no
earlier one applies. -/
def FailsInOrder (i : Instr) (s : State) : Prop :=
  (s.status.fatal = true → exec i s = .next s) ∧
  (Live s → BadSignal i s → exec i s = .next (s.failed i .argument)) ∧
  (Live s → ¬ BadSignal i s → MissingReference i s → exec i s = .next (s.failed i .argument)) ∧
  (Live s → ¬ BadSignal i s → ¬ MissingReference i s → ShortBuffer i s →
    exec i s = .next (s.failed i .capacity)) ∧
  (Live s → ArgumentsOk i s → ¬ CountOk s → exec i s = .next (s.faulted 4 0)) ∧
  (Live s → ArgumentsOk i s → CountOk s → usesBuffer i = true → ¬ FrameOk s →
    exec i s = .next (s.faulted 5 0)) ∧
  (Live s → ArgumentsOk i s → CountOk s → (usesBuffer i = true → FrameOk s) →
    ∀ j, Asserts i s j → ¬ DescriptorOk i s j → (∀ j', j' < j → Asserts i s j' → DescriptorOk i s j') →
      exec i s = .next (s.faulted (descriptorCause i s j) j))

/-! ## The state as a whole -/

/-- The registers R29 gives a reset value hold it; the storage holds anything. -/
abbrev ResetRegisters (s : State) : Prop :=
  s.status = StatusReg.zero ∧ s.result = 0 ∧ s.ctrl = CtrlReg.zero ∧ s.msg = MsgReg.zero ∧ s.xr = 0 ∧ s.xp = 0

/-- STATUS is one the rules can leave: FSIG and FCAUSE are 0 while FATAL is 0 (R22); while FATAL is 1 the cause
is 1..5 and the signal is one of the table (R144, R145). -/
abbrev StatusOk (p : Params) (r : StatusReg) : Prop :=
  (r.fatal = false → r.fsig = 0 ∧ r.fcause = 0) ∧
  (r.fatal = true → 1 ≤ r.fcause.toNat ∧ r.fcause.toNat ≤ 5 ∧ r.fsig.toNat < p.nsigMax)

/-- The invariant of the state: legal parameters, storage of their size, FB canonical and inside MAXB bytes,
and a STATUS the rules can leave. -/
abbrev Inv (s : State) : Prop :=
  s.params.Legal ∧ Sized s ∧ Memory.wf s.fb ∧ (∀ c ∈ s.fb, c.1 < s.params.maxb) ∧
    StatusOk s.params s.status

/-- A register's bits that a host write stores (R17, R20, R21, R30); CMD, STATUS and RESULT store none. -/
def storedBits : Reg → Word
  | .cmd => 0
  | .status => 0
  | .result => 0
  | .ctrl => 0x3FF
  | .msg => 0x1FF00FF
  | .xr => 0xFFFFFFFFFFFFFFFF
  | .xp => 0xFFFFFFFFFFFFFFFF
  | .fbw _ => 0xFFFFFFFFFFFFFFFF
  | .raw _ => 0xFFFFFFFFFFFFFFFF
  | .phys _ => 0xFFFFFFFFFFFFFFFF
  | .desc _ .layout => 0x77FFFFF
  | .desc _ _ => 0xFFFFFFFFFFFFFFFF

/-- The register numbers that R46 lists as unimplemented. -/
abbrev Unimplemented (p : Params) (n : Nat) : Prop :=
  (0x007 ≤ n ∧ n ≤ 0x00F) ∨
  (0x010 + p.maxb / 8 ≤ n ∧ n ≤ 0x0FF) ∨
  (0x100 + p.nsigMax ≤ n ∧ n ≤ 0x1FF) ∨
  (0x200 + p.nsigMax ≤ n ∧ n ≤ 0x7FF) ∨
  (0x800 ≤ n ∧ (p.nsigMax ≤ (n - 0x800) / 8 ∨ (n - 0x800) % 8 = 6 ∨ (n - 0x800) % 8 = 7))

/-- The same state of a hardware whose QUANTUM is `a / b`. -/
abbrev State.withQuantum (s : State) (a b : Nat) : State :=
  { s with params := { s.params with quantumNum := a, quantumDen := b } }

/-- A descriptor without what R108 reserves to the range commands. -/
def stripBounds (d : Descriptor) : Descriptor := { d with hasBounds := false, rawMin := 0, rawMax := 0 }

/-- The next event is taken, and its answer recorded. -/
abbrev State.served (s : State) (rest : List PortEvent) (a : PortAnswer) : State :=
  { s with pending := rest, answers := a :: s.answers }

/-- In state `s`, `HostRead(n)` returns the word `w` and changes nothing (R44, R47). -/
abbrev ReadsAs (s : State) (n : Nat) (w : Word) : Prop :=
  ∀ rest, step { s with pending := .read (BitVec.ofNat 12 n) :: rest } = .next (s.served rest (.data w))

/-- In state `s`, `HostWrite(n, v)` is answered `Done` and leaves the registers of `t` (R44). -/
abbrev WritesAs (s : State) (n : Nat) (v : Word) (t : State) : Prop :=
  ∀ rest, step { s with pending := .write (BitVec.ofNat 12 n) v :: rest } = .next (t.served rest .done)

/-- `s` with `DESC[i]` replaced (R16). -/
abbrev State.withDesc (s : State) (i : Nat) (d : Descriptor) : State := { s with desc := s.desc.set i d }

end Sys2Proof.Machine
end

