-- ==== Sys2Proof/Certificates/Slice0/Obligations.lean ====
section
/-! DEFINITION. The statements for the provers, from the numbered rules of spec/. -/

open Sys2Proof Sys2Proof.Machine

/-! ## Encoding -/

/-- Decode and encode agree (30_encoding.md R60, R64, R66): no bit of a command's encoding is dropped. -/
def Obligations.DecodeOfEncodedCommand : Prop :=
  ∀ i : Instr, i.WellFormed → decodeWord (encodeWord i) = .ok i

/-- Each legal word has one meaning: a word that decodes is the encoding of what it decodes to (R60, R63, R66). -/
def Obligations.EncodeOfDecodedWord : Prop :=
  ∀ (v : Word) (i : Instr), decodeWord v = .ok i → i.WellFormed ∧ encodeWord i = v

/-- The opcode map R66 with its own masks: a word selects a row iff `v & mask = match`, and then decodes to that
row's command, with `SIG = v[15:8]` in format S (R64). -/
def Obligations.DecodeFollowsTheOpcodeMap : Prop :=
  ∀ v : Word,
    (v &&& 0xFFFFFFFFFFFFFFFF = 0x00 ↔ decodeWord v = .ok .nop) ∧
    (v &&& 0xFFFFFFFFFFFFFFFF = 0x01 ↔ decodeWord v = .ok .sreset) ∧
    (v &&& 0xFFFFFFFFFFFF00FF = 0x10 ↔ decodeWord v = .ok (.fldRead (v.extractLsb' 8 8).toNat)) ∧
    (v &&& 0xFFFFFFFFFFFF00FF = 0x11 ↔ decodeWord v = .ok (.fldWrite (v.extractLsb' 8 8).toNat)) ∧
    (v &&& 0xFFFFFFFFFFFF00FF = 0x20 ↔ decodeWord v = .ok (.toSigned (v.extractLsb' 8 8).toNat)) ∧
    (v &&& 0xFFFFFFFFFFFF00FF = 0x21 ↔ decodeWord v = .ok (.toUbits (v.extractLsb' 8 8).toNat)) ∧
    (v &&& 0xFFFFFFFFFFFF00FF = 0x30 ↔ decodeWord v = .ok (.decode (v.extractLsb' 8 8).toNat)) ∧
    (v &&& 0xFFFFFFFFFFFF00FF = 0x31 ↔ decodeWord v = .ok (.encode (v.extractLsb' 8 8).toNat)) ∧
    (v &&& 0xFFFFFFFFFFFF00FF = 0x40 ↔ decodeWord v = .ok (.rangeRaw (v.extractLsb' 8 8).toNat)) ∧
    (v &&& 0xFFFFFFFFFFFF00FF = 0x41 ↔ decodeWord v = .ok (.rangePhys (v.extractLsb' 8 8).toNat)) ∧
    (v &&& 0xFFFFFFFFFFFFFFFF = 0x50 ↔ decodeWord v = .ok .init) ∧
    (v &&& 0xFFFFFFFFFFFFFFFF = 0x51 ↔ decodeWord v = .ok .initP) ∧
    (v &&& 0xFFFFFFFFFFFFFFFF = 0x52 ↔ decodeWord v = .ok .pack) ∧
    (v &&& 0xFFFFFFFFFFFFFFFF = 0x53 ↔ decodeWord v = .ok .packP) ∧
    (v &&& 0xFFFFFFFFFFFFFFFF = 0x54 ↔ decodeWord v = .ok .unpack) ∧
    (v &&& 0xFFFFFFFFFFFFFFFF = 0x55 ↔ decodeWord v = .ok .unpackP)

/-- Worked command words, written out from R66 and R70, decode to the commands they stand for: one a family. -/
def Obligations.WorkedCommandWordsDecode : Prop :=
  decodeWord 0x0000000000000001 = .ok .sreset ∧
  decodeWord 0x0000000000000310 = .ok (.fldRead 3) ∧
  decodeWord 0x0000000000004020 = .ok (.toSigned 64) ∧
  decodeWord 0x000000000000FF31 = .ok (.encode 255) ∧
  decodeWord 0x0000000000003F41 = .ok (.rangePhys 63) ∧
  decodeWord 0x0000000000000053 = .ok .packP

/-! ## The step and the port -/

/-- A step runs the decoded command: when the host's next transaction is a write of a legal word to CMD (as a port
transaction, or as a whole aligned bus access), the step is `exec` of that command, with the transaction taken
and its answer `Done` recorded (R24, R44; the queue of transactions is the model's, log 4, log 10). -/
def Obligations.StepRunsTheDecodedCommand : Prop :=
  ∀ (s : State) (v : Word) (i : Instr) (rest : List PortEvent), decodeWord v = .ok i →
    (s.pending = .write 0 v :: rest → step s = exec i (s.served rest .done)) ∧
    (s.pending = .busWrite 0 8 v :: rest → step s = exec i (s.served rest .done))

/-- R63 (and R67, R140 (1) and (2)): what a write of `v` to CMD does, in the order of the rule's five steps. -/
def Obligations.CommandWordsDecodeInOrder : Prop :=
  ∀ (s : State) (v : Word) (rest : List PortEvent), s.pending = .write 0 v :: rest →
    let t := s.served rest .done
    let formatF : List Nat := [0x00, 0x01, 0x50, 0x51, 0x52, 0x53, 0x54, 0x55]
    let formatS : List Nat := [0x10, 0x11, 0x20, 0x21, 0x30, 0x31, 0x40, 0x41]
    let opc := (v.extractLsb' 0 8).toNat
    let sig := (v.extractLsb' 8 8).toNat
    let reserved := (v.extractLsb' 16 48).toNat
    (s.status.fatal = true → v = 1 → step s = exec .sreset t) ∧
    (s.status.fatal = true → v ≠ 1 → step s = .next t) ∧
    (Live s → reserved ≠ 0 → step s = .next (t.withErr .illegal)) ∧
    (Live s → reserved = 0 → opc ∉ formatF → opc ∉ formatS → step s = .next (t.withErr .illegal)) ∧
    (Live s → reserved = 0 → opc ∈ formatF → sig ≠ 0 → step s = .next (t.withErr .illegal)) ∧
    (Live s → reserved = 0 → opc ∈ formatF → sig = 0 →
      ∃ i, i.signal? = none ∧ encodeWord i = v ∧ step s = exec i t) ∧
    (Live s → reserved = 0 → opc ∈ formatS →
      ∃ i, i.signal? = some sig ∧ encodeWord i = v ∧ step s = exec i t)

/-- R46: the unimplemented register numbers are those the rule lists; a read or a write of one answers PortError and
changes no state, in the fatal state too. -/
def Obligations.UnimplementedNumbersAnswerPortError : Prop :=
  ∀ (s : State) (n : BitVec 12) (rest : List PortEvent), s.params.Legal →
    (Unimplemented s.params n.toNat →
      (s.pending = .read n :: rest → step s = .next (s.served rest .portError)) ∧
      (∀ v, s.pending = .write n v :: rest → step s = .next (s.served rest .portError))) ∧
    (¬ Unimplemented s.params n.toNat →
      (s.pending = .read n :: rest → ∃ w, step s = .next (s.served rest (.data w))) ∧
      (∀ v, n ≠ 0 → s.pending = .write n v :: rest → ∃ t, step s = .next t ∧ t.answers = .done :: s.answers))

/-- R48: `FBWk` shows eight bytes of FB, the byte of lower index in the less significant place, and a write sets
exactly those eight bytes. -/
def Obligations.FrameWindowPacksLittleEndian : Prop :=
  ∀ (s : State) (k : Nat) (n : BitVec 12) (rest : List PortEvent),
    s.params.Legal → Memory.wf s.fb → k < s.params.maxb / 8 → n.toNat = 0x010 + k →
    (s.pending = .read n :: rest →
      ∃ w : Word, step s = .next (s.served rest (.data w)) ∧
        ∀ j, j < 8 → w.extractLsb' (8 * j) 8 = fbRead s.fb (8 * k + j)) ∧
    (∀ v : Word, Live s → s.pending = .write n v :: rest →
      ∃ m, step s = .next { s.served rest .done with fb := m } ∧
        (∀ j, j < 8 → fbRead m (8 * k + j) = v.extractLsb' (8 * j) 8) ∧
        (∀ a, a < 8 * k ∨ 8 * k + 8 ≤ a → fbRead m a = fbRead s.fb a))

/-- A host write is seen by the next read (R53): the bits R30 lets a register store come back, the others read 0. -/
def Obligations.HostWriteIsReadBack : Prop :=
  ∀ (s : State) (r : Reg) (n : BitVec 12) (v : Word) (rest : List PortEvent),
    Live s → s.params.Legal → Sized s → Memory.wf s.fb →
    regAt s.params n.toNat = some r → r ≠ .cmd → r ≠ .status → r ≠ .result →
    s.pending = .write n v :: .read n :: rest →
    ∃ t u, step s = .next t ∧ step t = .next u ∧ u.pending = rest ∧
      u.answers = .data (v &&& storedBits r) :: .done :: s.answers

/-- A host write to a register other than CMD changes no other register, no parameter and no earlier answer (R45, R53). -/
def Obligations.HostWriteLeavesTheOtherRegisters : Prop :=
  ∀ (s : State) (r : Reg) (n : BitVec 12) (v : Word) (rest : List PortEvent),
    s.params.Legal → Memory.wf s.fb → regAt s.params n.toNat = some r → r ≠ .cmd → s.pending = .write n v :: rest →
    ∃ t, step s = .next t ∧ t.params = s.params ∧ t.pending = rest ∧ t.answers = .done :: s.answers ∧
      ∀ n' r', regAt s.params n' = some r' → r' ≠ r → regRead t r' = regRead s r'

/-- A host write to STATUS clears SAT where bit 3 of the written word is 1 and changes nothing else; one to RESULT
changes nothing (R22, R23). -/
def Obligations.StatusAndResultWrites : Prop :=
  ∀ (s : State) (v : Word) (rest : List PortEvent), Live s →
    (s.pending = .write 1 v :: rest → step s = .next
      { s.served rest .done with
        status := { s.status with sat := s.status.sat && !v.getLsbD 3 } }) ∧
    (s.pending = .write 2 v :: rest → step s = .next (s.served rest .done))

/-- The places of the fields of STATUS, CTRL, MSG and LAYOUT in the words the host reads (R22, R21, R20, R17), with
the four numbers of ERR (R22, R142); every other bit reads 0. -/
def Obligations.RegisterFieldsStandWhereTheMapSays : Prop :=
  (∀ r : StatusReg,
    r.word.extractLsb' 0 2 =
      (match r.err with
        | .ok => 0
        | .capacity => 1
        | .argument => 2
        | .illegal => 3) ∧
    r.word.getLsbD 2 = r.inr ∧ r.word.getLsbD 3 = r.sat ∧
    r.word.getLsbD 4 = r.fatal ∧ r.word.extractLsb' 8 8 = r.fsig ∧ r.word.extractLsb' 16 3 = r.fcause ∧
    r.word &&& 0xFFFFFFFFFFF800E0 = 0) ∧
  (∀ r : CtrlReg,
    r.word.extractLsb' 0 8 = r.bufcap ∧ r.word.getLsbD 8 = r.bufv ∧ r.word.getLsbD 9 = r.valv ∧
    r.word &&& 0xFFFFFFFFFFFFFC00 = 0) ∧
  (∀ r : MsgReg,
    r.word.extractLsb' 0 8 = r.lengthBytes ∧ r.word.extractLsb' 16 9 = r.numSignals ∧
    r.word &&& 0xFFFFFFFFFE00FF00 = 0) ∧
  (∀ d : Descriptor,
    d.layoutWord.extractLsb' 0 16 = d.startBit ∧ d.layoutWord.extractLsb' 16 7 = d.lengthBits ∧
    (d.layoutWord.getLsbD 24 = true ↔ d.byteOrder = .bigEndian) ∧ d.layoutWord.getLsbD 25 = d.isSigned ∧
    d.layoutWord.getLsbD 26 = d.hasBounds ∧ d.layoutWord &&& 0xFFFFFFFFF8800000 = 0)

/-- R45: the register map, number by number. What a host read of each implemented number returns, in the fatal state
too; what a host write to it leaves, outside the fatal state (R147 says what it does there); every other number
answers PortError. The bytes of an FBW word are the matter of R48. -/
def Obligations.RegisterNumbersNameTheirRegisters : Prop :=
  ∀ (s : State) (v : Word), s.params.Legal →
    (ReadsAs s 0x000 0 ∧ ReadsAs s 0x001 s.status.word ∧ ReadsAs s 0x002 s.result ∧ ReadsAs s 0x003 s.ctrl.word ∧
      ReadsAs s 0x004 s.msg.word ∧ ReadsAs s 0x005 s.xr ∧ ReadsAs s 0x006 s.xp ∧
      (∀ k, k < s.params.maxb / 8 → ReadsAs s (0x010 + k) (fbWindow s.fb k)) ∧
      (∀ i, i < s.params.nsigMax →
        let d := s.desc.getD i Descriptor.blank
        ReadsAs s (0x100 + i) (s.raw.getD i 0) ∧ ReadsAs s (0x200 + i) (s.phys.getD i 0) ∧
        ReadsAs s (0x800 + 8 * i + 0) d.layoutWord ∧ ReadsAs s (0x800 + 8 * i + 1) d.scale ∧
        ReadsAs s (0x800 + 8 * i + 2) d.offset ∧ ReadsAs s (0x800 + 8 * i + 3) d.rawMin ∧
        ReadsAs s (0x800 + 8 * i + 4) d.rawMax ∧ ReadsAs s (0x800 + 8 * i + 5) d.defaultRaw)) ∧
    (∀ rest, step { s with pending := .write 0x000 v :: rest } = runCommand v (s.served rest .done)) ∧
    (Live s →
      WritesAs s 0x001 v { s with status := { s.status with sat := s.status.sat && !v.getLsbD 3 } } ∧
      WritesAs s 0x002 v s ∧
      WritesAs s 0x003 v
        { s with ctrl := { bufcap := v.extractLsb' 0 8, bufv := v.getLsbD 8, valv := v.getLsbD 9 } } ∧
      WritesAs s 0x004 v { s with msg := { lengthBytes := v.extractLsb' 0 8, numSignals := v.extractLsb' 16 9 } } ∧
      WritesAs s 0x005 v { s with xr := v } ∧ WritesAs s 0x006 v { s with xp := v } ∧
      (∀ k, k < s.params.maxb / 8 → WritesAs s (0x010 + k) v { s with fb := fbSetWindow s.fb k v }) ∧
      (∀ i, i < s.params.nsigMax →
        let d := s.desc.getD i Descriptor.blank
        WritesAs s (0x100 + i) v { s with raw := s.raw.set i v } ∧
        WritesAs s (0x200 + i) v { s with phys := s.phys.set i v } ∧
        WritesAs s (0x800 + 8 * i + 0) v (s.withDesc i
          { d with
            startBit := v.extractLsb' 0 16, lengthBits := v.extractLsb' 16 7,
            byteOrder := if v.getLsbD 24 then .bigEndian else .littleEndian,
            isSigned := v.getLsbD 25, hasBounds := v.getLsbD 26 }) ∧
        WritesAs s (0x800 + 8 * i + 1) v (s.withDesc i { d with scale := v }) ∧
        WritesAs s (0x800 + 8 * i + 2) v (s.withDesc i { d with offset := v }) ∧
        WritesAs s (0x800 + 8 * i + 3) v (s.withDesc i { d with rawMin := v }) ∧
        WritesAs s (0x800 + 8 * i + 4) v (s.withDesc i { d with rawMax := v }) ∧
        WritesAs s (0x800 + 8 * i + 5) v (s.withDesc i { d with defaultRaw := v }))) ∧
    (∀ n : BitVec 12, Unimplemented s.params n.toNat → ∀ rest,
      step { s with pending := .read n :: rest } = .next (s.served rest .portError) ∧
      step { s with pending := .write n v :: rest } = .next (s.served rest .portError))

/-- Events are served one at a time, oldest first, and a command serves none itself (R44, R53). With none pending
nothing happens (R160, R179; that the step is then the identity is the model's form of it, log 4). -/
def Obligations.EventsAreServedInOrder : Prop :=
  (∀ s : State, s.pending = [] → step s = .next s) ∧
  (∀ (s t : State) (e : PortEvent) (rest : List PortEvent),
    s.pending = e :: rest → step s = .next t → t.pending = rest)

/-- A bus access that is one whole, aligned register is the port transaction on that register, at byte offset 8n;
any other has no meaning and is refused (R47; the refusal is the one 93_implementation_defined.md U4 asks for). That
an offset from 8*4096 on is no register of the block is the model's deduction from the 12-bit numbers of R44 (log 7). -/
def Obligations.BusAccessesMoveWholeRegisters : Prop :=
  ∀ (s : State) (rest : List PortEvent) (v : Word),
    (∀ n : BitVec 12,
      step { s with pending := .busRead (8 * n.toNat) 8 :: rest } =
        step { s with pending := .read n :: rest } ∧
      step { s with pending := .busWrite (8 * n.toNat) 8 v :: rest } =
        step { s with pending := .write n v :: rest }) ∧
    (∀ offset size, size ≠ 8 ∨ offset % 8 ≠ 0 ∨ 8 * 4096 ≤ offset →
      step { s with pending := .busRead offset size :: rest } = .refused (.undefinedBusAccess offset size) ∧
      step { s with pending := .busWrite offset size v :: rest } = .refused (.undefinedBusAccess offset size))

/-! ## Errors, the layout fault, the fatal state -/

/-- R146: of the conditions that hold for one command word exactly the first in the rule's order is reported, with
its own writes only; when none holds the command succeeds. -/
def Obligations.FirstFailureIsTheOneReported : Prop :=
  ∀ (s : State) (v : Word),
    (s.status.fatal = true → v ≠ 1 → runCommand v s = .next s) ∧
    (Live s → (∀ i, decodeWord v ≠ .ok i) → runCommand v s = .next (s.withErr .illegal)) ∧
    (∀ i, decodeWord v = .ok i → runCommand v s = exec i s ∧
      (i ≠ .nop → i ≠ .sreset → FailsInOrder i s ∧
        (Live s → ArgumentsOk i s → CountOk s → (usesBuffer i = true → FrameOk s) →
          (∀ j, Asserts i s j → DescriptorOk i s j) →
          ∃ t, exec i s = .next t ∧ t.status.err = .ok ∧ Live t)))

/-- R145: a command that ends in a LayoutFault leaves exactly the state before it plus the three STATUS fields, and
those name an assertion of R144 that failed. -/
def Obligations.LayoutFaultIsPrecise : Prop :=
  ∀ (i : Instr) (s t : State), s.params.Legal → Live s → exec i s = .next t → t.status.fatal = true →
    ∃ (cause : BitVec 3) (sig : Nat), t = s.faulted cause sig ∧
      ((cause = 1 ∧ sig < s.params.nsigMax ∧ ¬ FieldOk (s.descAt sig)) ∨
       (cause = 2 ∧ sig < s.params.nsigMax ∧ ¬ PlaceOk s.msg.lengthBytes.toNat (s.descAt sig)) ∨
       (cause = 3 ∧ sig < s.params.nsigMax ∧ ¬ XformOk (s.descAt sig)) ∨
       (cause = 4 ∧ sig = 0 ∧ ¬ CountOk s) ∨
       (cause = 5 ∧ sig = 0 ∧ ¬ FrameOk s))

/-- R141: a command that ends with an error value writes STATUS.ERR, RESULT <- 0 in PACK and PACK.P, INR <- 0 in the
range commands, and nothing else; the value is 1 or 2. -/
def Obligations.ErrorValuesLeaveTheRest : Prop :=
  ∀ (i : Instr) (s t : State), Live s → exec i s = .next t → Live t → t.status.err ≠ .ok →
    t = s.failed i t.status.err ∧ (t.status.err = .capacity ∨ t.status.err = .argument)

/-- R140: a write of `v` to CMD has one of five outcomes, and always leaves a next state. -/
def Obligations.CommandsHaveFiveOutcomes : Prop :=
  ∀ (s : State) (v : Word), ∃ t, runCommand v s = .next t ∧
    ((s.status.fatal = true ∧ v ≠ 1 ∧ t = s) ∨
     (Live s ∧ (∀ i, decodeWord v ≠ .ok i) ∧ t = s.withErr .illegal) ∨
     (Live s ∧ Live t ∧ ∃ i, decodeWord v = .ok i ∧ exec i s = .next t ∧
        (t.status.err = .capacity ∨ t.status.err = .argument)) ∨
     (Live s ∧ t.status.fatal = true ∧ ∃ i, decodeWord v = .ok i ∧ exec i s = .next t) ∨
     (Live t ∧ t.status.err = .ok ∧ ∃ i, decodeWord v = .ok i ∧ exec i s = .next t))

/-- The engine never addresses a byte FB does not have and never stops: `exec` answers a next state for every
command in every state (R41, R83, R178; the model reads "addresses" through the guard of log 9), and only a bus access
without meaning makes a step refuse (R47, 93_implementation_defined.md U4, log 7). -/
def Obligations.TheEngineNeverStops : Prop :=
  (∀ (i : Instr) (s : State), ∃ t, exec i s = .next t) ∧
  (∀ s : State, (∃ t, step s = .next t) ∨ ∃ offset size, step s = .refused (.undefinedBusAccess offset size))

/-- R147: in the fatal state reads work as usual, SRESET runs, every other write to an implemented register is
answered Done and ignored, an unimplemented number answers PortError, and only SRESET or a hardware reset leaves
the state. -/
def Obligations.FatalStateFreezesTheEngine : Prop :=
  ∀ (s : State) (rest : List PortEvent), s.status.fatal = true →
    (∀ n r, regAt s.params n.toNat = some r → s.pending = .read n :: rest →
      step s = .next (s.served rest (.data (regRead s r)))) ∧
    (∀ n r v, regAt s.params n.toNat = some r → ¬ (n = 0 ∧ v = 1) → s.pending = .write n v :: rest →
      step s = .next (s.served rest .done)) ∧
    (s.pending = .write 0 1 :: rest → ∃ t, step s = .next t ∧ Live t ∧ t.desc = s.desc) ∧
    (∀ n v, regAt s.params n.toNat = none →
      (s.pending = .read n :: rest → step s = .next (s.served rest .portError)) ∧
      (s.pending = .write n v :: rest → step s = .next (s.served rest .portError))) ∧
    (∀ t, step s = .next t → Live t →
      ∃ r, s.pending = .write 0 1 :: r ∨ s.pending = .busWrite 0 8 1 :: r ∨ ∃ c, s.pending = .hardReset c :: r)

/-- R131 (and R148): SRESET clears STATUS, RESULT, CTRL, MSG, XR and XP in any state, the fatal one too, and
changes nothing else. -/
def Obligations.SresetClearsTheControlRegisters : Prop :=
  ∀ s : State, exec .sreset s = .next
    { s with
      status := { err := .ok, inr := false, sat := false, fatal := false, fsig := 0, fcause := 0 }
      result := 0
      ctrl := { bufcap := 0, bufv := false, valv := false }
      msg := { lengthBytes := 0, numSignals := 0 }
      xr := 0, xp := 0 }

/-- R130: NOP writes STATUS.ERR <- 0 whatever the layout holds, and nothing else; in the fatal state it is ignored. -/
def Obligations.NopWritesOnlyErr : Prop :=
  ∀ s : State, (Live s → exec .nop s = .next (s.withErr .ok)) ∧
    (s.status.fatal = true → exec .nop s = .next s)

/-- A hardware reset (R29, R160) puts the control registers at 0 and leaves any contents `c` in the storage that has
no reset value; `State.reset` is such a state (that its storage is 0 is the model's choice, log 1, 2, 3). That the
contents come with the event, a short list being filled with 0, and that the queue behind the reset and the earlier
answers are kept, is the model's deduction (log 6). -/
def Obligations.HardwareResetLeavesAnyStorage : Prop :=
  (∀ (s : State) (c : Storage) (rest : List PortEvent), s.pending = .hardReset c :: rest →
    ∃ t, step s = .next t ∧ ResetRegisters t ∧ Sized t ∧ t.params = s.params ∧ t.pending = rest ∧
      t.answers = s.answers ∧
      (∀ i, i < s.params.maxb → fbRead t.fb i = c.fb.getD i 0) ∧
      (∀ i, i < s.params.nsigMax → t.rawAt i = c.raw.getD i 0 ∧ t.physAt i = c.phys.getD i 0 ∧
        t.descAt i = c.desc.getD i Descriptor.blank)) ∧
  ResetRegisters State.reset ∧ State.reset.params = Params.thisHardware

/-- R162: what the reset state guarantees, whatever the unspecified storage holds. -/
def Obligations.ResetStateGuarantees : Prop :=
  ∀ s : State, ResetRegisters s →
    (∀ i k, i.signal? = some k → exec i s = .next (s.withErr .argument)) ∧
    exec .pack s = .next (s.withErr .argument) ∧ exec .packP s = .next (s.withErr .argument) ∧
    exec .unpack s = .next (s.withErr .argument) ∧ exec .unpackP s = .next (s.withErr .argument) ∧
    exec .init s = .next { s with ctrl := { s.ctrl with valv := true } } ∧
    exec .initP s = .next { s with ctrl := { s.ctrl with valv := true } } ∧
    exec .nop s = .next s ∧ exec .sreset s = .next s

/-- The state after reset meets the invariant. -/
def Obligations.ResetMeetsTheInvariant : Prop := Inv State.reset

/-- Every step keeps the invariant: legal parameters, storage of its size, FB canonical and inside MAXB bytes, FSIG
and FCAUSE 0 while FATAL is 0, a cause 1..5 and a signal of the table while it is 1 (R22, R41, R83, R144, R145). -/
def Obligations.EveryStepKeepsTheInvariant : Prop :=
  ∀ s t : State, Inv s → step s = .next t → Inv t

/-! ## The accessor -/

/-- R84 (with R80, R81): FLD_READ puts bit `w` of the field at bit `w` of XR, zeros above, and changes nothing else but
ERR; its failures are those of R146. -/
def Obligations.FldReadPutsTheFieldInXR : Prop :=
  ∀ (s : State) (i : Nat), FailsInOrder (.fldRead i) s ∧
    (Live s → SignalOk s i → BufferOk s → CountOk s → FrameOk s → FieldOk (s.descAt i) →
      PlaceOk s.msg.lengthBytes.toNat (s.descAt i) →
      ∃ w : Word, exec (.fldRead i) s = .next { s with xr := w, status := { s.status with err := .ok } } ∧
        (∀ k, k < (s.descAt i).lengthBits.toNat → w.getLsbD k = bitAt s.fb (bitPlace (s.descAt i) k)) ∧
        (∀ k, (s.descAt i).lengthBits.toNat ≤ k → w.getLsbD k = false))

/-- R85 (with R80, R82): FLD_WRITE puts the low L bits of XR at the field's places, keeps every other bit of FB, and
changes nothing else but ERR; its failures are those of R146. -/
def Obligations.FldWriteChangesOnlyTheField : Prop :=
  ∀ (s : State) (i : Nat), FailsInOrder (.fldWrite i) s ∧
    (Live s → SignalOk s i → BufferOk s → CountOk s → FrameOk s → FieldOk (s.descAt i) →
      PlaceOk s.msg.lengthBytes.toNat (s.descAt i) → Memory.wf s.fb →
      ∃ m : Memory, exec (.fldWrite i) s = .next { s with fb := m, status := { s.status with err := .ok } } ∧
        (∀ k, k < (s.descAt i).lengthBits.toNat → bitAt m (bitPlace (s.descAt i) k) = s.xr.getLsbD k) ∧
        (∀ p, ¬ Covers (s.descAt i) p → bitAt m p = bitAt s.fb p))

/-- R88: the four laws of the accessor. -/
def Obligations.AccessorLaws : Prop :=
  ∀ (d e : Descriptor) (m : Memory) (w w' : Word), FieldOk d → FieldOk e → Memory.wf m →
    fldRead d (fldWrite d m w) = w &&& BitVec.ofNat 64 (2 ^ d.lengthBits.toNat - 1) ∧
    fldWrite d m (fldRead d m) = m ∧
    (∀ p, ¬ Covers d p → bitAt (fldWrite d m w) p = bitAt m p) ∧
    (DisjointFields d e →
      fldRead e (fldWrite d m w) = fldRead e m ∧
      fldWrite e (fldWrite d m w) w' = fldWrite d (fldWrite e m w') w)

/-- R86: the closed forms. The triple list position by position; the whole-frame forms, with `LEint` and `BEint` the
frame read as one number; when the field lies inside the frame; the first and the last byte touched. -/
def Obligations.WholeFrameClosedForms : Prop :=
  ∀ (d : Descriptor) (m : Memory) (n : Nat), FieldOk d →
    let a := d.startBit.toNat
    let len := d.lengthBits.toNat
    let q0 := 8 * (a / 8) + 7 - a % 8
    let leInt := (List.range n).foldl (fun acc i => acc + (fbRead m i).toNat * 2 ^ (8 * i)) 0
    let beInt := (List.range n).foldl (fun acc i => acc + (fbRead m i).toNat * 2 ^ (8 * (n - 1 - i))) 0
    ((∀ t ∈ triples d, t.byte < n) ↔ PlaceOk n d) ∧
    (d.byteOrder = .littleEndian →
      triples d = (List.range len).map (fun i => ⟨(a + i) / 8, (a + i) % 8, i⟩) ∧
      (PlaceOk n d → (fldRead d m).toNat = leInt / 2 ^ a % 2 ^ len) ∧
      touchedBytes d = (touchedBytes d).filter (fun b => a / 8 ≤ b && b ≤ (a + len - 1) / 8) ∧
      a / 8 ∈ touchedBytes d ∧ (a + len - 1) / 8 ∈ touchedBytes d) ∧
    (d.byteOrder = .bigEndian →
      triples d = (List.range len).map (fun j => ⟨(q0 + j) / 8, 7 - (q0 + j) % 8, len - 1 - j⟩) ∧
      (PlaceOk n d → (fldRead d m).toNat = beInt / 2 ^ (8 * n - q0 - len) % 2 ^ len) ∧
      touchedBytes d = (touchedBytes d).filter (fun b => a / 8 ≤ b && b ≤ (q0 + len - 1) / 8) ∧
      a / 8 ∈ touchedBytes d ∧ (q0 + len - 1) / 8 ∈ touchedBytes d)

/-! ## Sign extension -/

/-- R90: TO_SIGNED leaves in XR the field value that has the low L bits of the old XR; its failures are those of
R146. -/
def Obligations.ToSignedLeavesTheFieldValue : Prop :=
  ∀ (s : State) (i : Nat), FailsInOrder (.toSigned i) s ∧
    (Live s → SignalOk s i → CountOk s → FieldOk (s.descAt i) →
      ∃ w : Word, exec (.toSigned i) s = .next { s with xr := w, status := { s.status with err := .ok } } ∧
        IsFieldValue (s.descAt i) w (fun k => s.xr.getLsbD k))

/-- R91: TO_UBITS leaves in XR the old XR modulo 2^L, for either signedness; its failures are those of R146. -/
def Obligations.ToUbitsReducesModuloTwoToTheL : Prop :=
  ∀ (s : State) (i : Nat), FailsInOrder (.toUbits i) s ∧
    (Live s → SignalOk s i → CountOk s → FieldOk (s.descAt i) →
      ∃ w : Word, exec (.toUbits i) s = .next { s with xr := w, status := { s.status with err := .ok } } ∧
        w.toNat = s.xr.toNat % 2 ^ (s.descAt i).lengthBits.toNat)

/-- R92: masking and extending; the result is the one representable integer that is congruent modulo 2^L. -/
def Obligations.MaskAndExtendLaws : Prop :=
  ∀ (d : Descriptor) (w : Word), FieldOk d →
    let len := d.lengthBits.toNat
    zextL len (extendRaw d w) = zextL len w ∧
    extendRaw d (zextL len w) = extendRaw d w ∧
    (∀ r : Int, Representable d r → rawInt d (extendRaw d (zextL len (BitVec.ofInt 64 r))) = r) ∧
    (∀ r r' : Int, r' = rawInt d (extendRaw d (zextL len (BitVec.ofInt 64 r))) ↔
      Representable d r' ∧ (2 ^ len : Int) ∣ r' - r)

/-! ## The transform -/

/-- R98 (with R95): DECODE puts `r*S + O` in XP, exactly where it fits a physical word and the nearest one where it does
not; SAT is set in that case and never cleared; nothing else but ERR changes; its failures are those of R146. -/
def Obligations.DecodeComputesTheExactSumSaturated : Prop :=
  ∀ (s : State) (i : Nat), FailsInOrder (.decode i) s ∧
    (Live s → SignalOk s i → CountOk s → FieldOk (s.descAt i) → XformOk (s.descAt i) →
      let acc := exactPhys (s.descAt i) (rawInt (s.descAt i) s.xr)
      ∃ (w : Word) (sat : Bool),
        exec (.decode i) s = .next { s with xp := w, status := { s.status with err := .ok, sat := sat } } ∧
        w.toInt = clamp64 acc ∧ (sat = true ↔ s.status.sat = true ∨ Overflows64 acc))

/-- R99 (with R96, R97): ENCODE puts in XR, modulo 2^64, the integer nearest to `(P - O) / S`, ties away from zero;
nothing else but ERR changes; its failures are those of R146. -/
def Obligations.EncodeRoundsToTheNearestRaw : Prop :=
  ∀ (s : State) (i : Nat), FailsInOrder (.encode i) s ∧
    (Live s → SignalOk s i → CountOk s → FieldOk (s.descAt i) → XformOk (s.descAt i) →
      let d := s.descAt i
      ∃ q : Int, RoundsTo (s.xp.toInt - d.offset.toInt) d.scale.toInt q ∧ |q| ≤ 2 ^ 64 - 1 ∧
        exec (.encode i) s =
          .next { s with xr := BitVec.ofInt 64 q, status := { s.status with err := .ok } })

/-- R96: `rha` rounds to the nearest integer, ties away from zero, with the rule's own values. -/
def Obligations.RoundHalfAwayFromZero : Prop :=
  (∀ a b : Int, b ≠ 0 → RoundsTo a b (rha a b)) ∧
  (∀ a b q : Int, b ≠ 0 → RoundsTo a b q → q = rha a b) ∧
  rha 1 2 = 1 ∧ rha (-1) 2 = -1 ∧ rha 3 2 = 2 ∧ rha (-3) 2 = -2 ∧ rha 5 2 = 3 ∧ rha 1 (-2) = -1 ∧
  rha (-5) (-2) = 3 ∧ rha 7 3 = 2 ∧ rha (-7) 3 = -2 ∧ rha 2 4 = 1 ∧ rha 0 5 = 0

/-- R100: where decode does not saturate, encode undoes it; so DECODE then ENCODE restores XR. -/
def Obligations.EncodeUndoesDecode : Prop :=
  (∀ (d : Descriptor) (r : Int), d.scale ≠ 0 → (dec d r).2 = false → enc d (dec d r).1 = r) ∧
  (∀ (s : State) (i : Nat), Live s → SignalOk s i → CountOk s → FieldOk (s.descAt i) → XformOk (s.descAt i) →
    s.status.sat = false →
    ∃ t u, exec (.decode i) s = .next t ∧ exec (.encode i) t = .next u ∧
      (t.status.sat = false → u.xr = s.xr))

/-- R102: where nothing saturates, `dec(enc p)` is a point of the grid `O + S * integer` nearest to `p`, at most
`|S|/2` away, and of two nearest points the one farther from `O`. -/
def Obligations.EncodeThenDecodeQuantises : Prop :=
  ∀ (d : Descriptor) (p : Word), d.scale ≠ 0 → (dec d (enc d p)).2 = false →
    let g := (dec d (enc d p)).1.toInt
    let sc := d.scale.toInt
    let off := d.offset.toInt
    (∃ k : Int, g = off + sc * k) ∧ 2 * |p.toInt - g| ≤ |sc| ∧
    (∀ k : Int, |p.toInt - g| ≤ |p.toInt - (off + sc * k)|) ∧
    (∀ k : Int, |p.toInt - g| = |p.toInt - (off + sc * k)| → |off + sc * k - off| ≤ |g - off|)

/-! ## The bounds -/

/-- R105: the bounds are the explicit ones, read with the signal's signedness, or the representable range. -/
def Obligations.BoundsDefaultToTheRepresentableRange : Prop :=
  ∀ d : Descriptor, FieldOk d → BoundsOf d (loBound d) (hiBound d) ∧
    (d.hasBounds = false → ∀ r : Int, Representable d r ↔ loBound d ≤ r ∧ r ≤ hiBound d)

/-- R106: RANGE_RAW answers in INR whether `lo <= r <= hi`, and changes nothing else but ERR; its failures are those
of R146. -/
def Obligations.RangeRawComparesInclusively : Prop :=
  ∀ (s : State) (i : Nat), FailsInOrder (.rangeRaw i) s ∧
    (Live s → SignalOk s i → CountOk s → FieldOk (s.descAt i) →
      ∀ lo hi, BoundsOf (s.descAt i) lo hi →
      ∃ b : Bool, exec (.rangeRaw i) s = .next { s with status := { s.status with err := .ok, inr := b } } ∧
        (b = true ↔ lo ≤ rawInt (s.descAt i) s.xr ∧ rawInt (s.descAt i) s.xr ≤ hi))

/-- R107: RANGE_PHYS answers in INR whether XP lies, inclusively, between the saturated decodes of the two raw bounds,
in whichever order they come; SAT does not change; its failures are those of R146. -/
def Obligations.RangePhysComparesDecodedBounds : Prop :=
  ∀ (s : State) (i : Nat), FailsInOrder (.rangePhys i) s ∧
    (Live s → SignalOk s i → CountOk s → FieldOk (s.descAt i) → XformOk (s.descAt i) →
      ∀ lo hi, BoundsOf (s.descAt i) lo hi →
      let pa := clamp64 (exactPhys (s.descAt i) lo)
      let pb := clamp64 (exactPhys (s.descAt i) hi)
      ∃ b : Bool, exec (.rangePhys i) s = .next { s with status := { s.status with err := .ok, inr := b } } ∧
        (b = true ↔ min pa pb ≤ s.xp.toInt ∧ s.xp.toInt ≤ max pa pb))

/-- R108: no command but RANGE_RAW and RANGE_PHYS evaluates the bounds: two states that differ in RAW_MIN, RAW_MAX and
HAS_BOUNDS only go the same way under every other command. -/
def Obligations.OnlyRangeCommandsReadTheBounds : Prop :=
  ∀ (i : Instr) (s : State) (desc' : List Descriptor), isRange i = false →
    desc'.map stripBounds = s.desc.map stripBounds →
    ∃ t, exec i s = .next t ∧ exec i { s with desc := desc' } = .next { t with desc := desc' }

/-! ## The frame codec -/

/-- R111: INIT copies every DEFAULT_RAW whole, sets VALV, and changes nothing else but ERR; its failures are those of
R146. -/
def Obligations.InitCopiesTheDefaults : Prop :=
  ∀ s : State, FailsInOrder .init s ∧
    (Live s → Sized s → InitLayoutOk s →
      ∃ raw', exec .init s = .next
          { s with
            raw := raw', ctrl := { s.ctrl with valv := true }, status := { s.status with err := .ok } } ∧
        (∀ j, SignalOk s j → raw'.getD j 0 = (s.descAt j).defaultRaw) ∧
        (∀ j, ¬ SignalOk s j → raw'.getD j 0 = s.rawAt j))

/-- R112: INIT.P also sets every PHYS to the decoded default, and SAT if one saturated; its failures are those of
R146. -/
def Obligations.InitPAlsoDecodesTheDefaults : Prop :=
  ∀ s : State, FailsInOrder .initP s ∧
    (Live s → Sized s → InitLayoutOk s → AllXformOk s →
      let phys (j : Nat) := exactPhys (s.descAt j) (rawInt (s.descAt j) (s.descAt j).defaultRaw)
      ∃ raw' phys' sat, exec .initP s = .next
          { s with
            raw := raw', phys := phys', ctrl := { s.ctrl with valv := true },
            status := { s.status with err := .ok, sat := sat } } ∧
        (∀ j, SignalOk s j → raw'.getD j 0 = (s.descAt j).defaultRaw ∧
          (phys'.getD j 0).toInt = clamp64 (phys j)) ∧
        (∀ j, ¬ SignalOk s j → raw'.getD j 0 = s.rawAt j ∧ phys'.getD j 0 = s.physAt j) ∧
        (sat = true ↔ s.status.sat = true ∨ ∃ j, SignalOk s j ∧ Overflows64 (phys j)))

/-- R113 (with R114, R116, R125): PACK zeroes the frame and writes the low bits of every RAW at its field's places,
where fields overlap the highest index last; bits of the frame in no field are 0, bytes beyond it are kept;
RESULT is the frame's length; nothing else but ERR changes; its failures are those of R146. -/
def Obligations.PackBuildsTheFrameFromRaw : Prop :=
  ∀ s : State, FailsInOrder .pack s ∧
    (Live s → BufferOk s → s.ctrl.valv = true → FrameLayoutOk s → Memory.wf s.fb →
      ∃ m : Memory, exec .pack s = .next
          { s with
            fb := m, result := BitVec.ofNat 64 s.msg.lengthBytes.toNat, status := { s.status with err := .ok } } ∧
        (∀ j w, SignalOk s j → w < (s.descAt j).lengthBits.toNat →
          (∀ j', j < j' → SignalOk s j' → ¬ Covers (s.descAt j') (bitPlace (s.descAt j) w)) →
          bitAt m (bitPlace (s.descAt j) w) = (s.rawAt j).getLsbD w) ∧
        (∀ p, p.1 < s.msg.lengthBytes.toNat → (∀ j, SignalOk s j → ¬ Covers (s.descAt j) p) →
          bitAt m p = false) ∧
        (∀ a, s.msg.lengthBytes.toNat ≤ a → fbRead m a = fbRead s.fb a))

/-- R115: PACK.P writes instead the rounded quotient of every PHYS, and does not write the value file; its failures are
those of R146. -/
def Obligations.PackPBuildsTheFrameFromPhys : Prop :=
  ∀ s : State, FailsInOrder .packP s ∧
    (Live s → BufferOk s → s.ctrl.valv = true → FrameLayoutOk s → AllXformOk s → Memory.wf s.fb →
      ∃ m : Memory, exec .packP s = .next
          { s with
            fb := m, result := BitVec.ofNat 64 s.msg.lengthBytes.toNat, status := { s.status with err := .ok } } ∧
        (∀ j, SignalOk s j → ∃ q : Int,
          RoundsTo ((s.physAt j).toInt - (s.descAt j).offset.toInt) (s.descAt j).scale.toInt q ∧
          ∀ w, w < (s.descAt j).lengthBits.toNat →
            (∀ j', j < j' → SignalOk s j' → ¬ Covers (s.descAt j') (bitPlace (s.descAt j) w)) →
            bitAt m (bitPlace (s.descAt j) w) = (BitVec.ofInt 64 q).getLsbD w) ∧
        (∀ p, p.1 < s.msg.lengthBytes.toNat → (∀ j, SignalOk s j → ¬ Covers (s.descAt j) p) →
          bitAt m p = false) ∧
        (∀ a, s.msg.lengthBytes.toNat ≤ a → fbRead m a = fbRead s.fb a))

/-- R116: the frame after a successful PACK or PACK.P is a function of the layout and the value object alone: its bits
in no field are 0, it does not depend on what FB held before, and the bytes beyond it keep their values. -/
def Obligations.PackedFrameForgetsTheOldBuffer : Prop :=
  ∀ (s : State) (m : Memory), Live s → BufferOk s → s.ctrl.valv = true → FrameLayoutOk s → AllXformOk s →
    Memory.wf s.fb → Memory.wf m → ∀ i ∈ [Instr.pack, .packP],
    ∃ t m', exec i s = .next t ∧ exec i { s with fb := m } = .next { t with fb := m' } ∧
      (∀ a, a < s.msg.lengthBytes.toNat → fbRead m' a = fbRead t.fb a) ∧
      (∀ p, p.1 < s.msg.lengthBytes.toNat → (∀ j, SignalOk s j → ¬ Covers (s.descAt j) p) →
        bitAt t.fb p = false) ∧
      (∀ a, s.msg.lengthBytes.toNat ≤ a → fbRead t.fb a = fbRead s.fb a ∧ fbRead m' a = fbRead m a)

/-- R117: UNPACK puts in every RAW the field value its bits of FB stand for, sets VALV, and changes nothing else but
ERR; its failures are those of R146. -/
def Obligations.UnpackExtractsTheFieldValues : Prop :=
  ∀ s : State, FailsInOrder .unpack s ∧
    (Live s → Sized s → BufferOk s → FrameLayoutOk s →
      ∃ raw', exec .unpack s = .next
          { s with
            raw := raw', ctrl := { s.ctrl with valv := true }, status := { s.status with err := .ok } } ∧
        (∀ j, SignalOk s j → IsFieldValue (s.descAt j) (raw'.getD j 0)
          (fun k => bitAt s.fb (bitPlace (s.descAt j) k))) ∧
        (∀ j, ¬ SignalOk s j → raw'.getD j 0 = s.rawAt j))

/-- R118: UNPACK.P also decodes every value it extracts, and sets SAT if one saturated; its failures are those of
R146. -/
def Obligations.UnpackPAlsoDecodesTheValues : Prop :=
  ∀ s : State, FailsInOrder .unpackP s ∧
    (Live s → Sized s → BufferOk s → FrameLayoutOk s → AllXformOk s →
      ∃ raw' phys' sat, exec .unpackP s = .next
          { s with
            raw := raw', phys := phys', ctrl := { s.ctrl with valv := true },
            status := { s.status with err := .ok, sat := sat } } ∧
        (∀ j, SignalOk s j →
          IsFieldValue (s.descAt j) (raw'.getD j 0) (fun k => bitAt s.fb (bitPlace (s.descAt j) k)) ∧
          (phys'.getD j 0).toInt =
            clamp64 (exactPhys (s.descAt j) (rawInt (s.descAt j) (raw'.getD j 0)))) ∧
        (∀ j, ¬ SignalOk s j → raw'.getD j 0 = s.rawAt j ∧ phys'.getD j 0 = s.physAt j) ∧
        (sat = true ↔ s.status.sat = true ∨ ∃ j, SignalOk s j ∧
          Overflows64 (exactPhys (s.descAt j) (rawInt (s.descAt j) (raw'.getD j 0)))))

/-- R120: PACK then UNPACK leaves every representable RAW as it was; a raw word outside the representable range comes
back as the field value with the same low L bits. -/
def Obligations.PackThenUnpackRoundTrip : Prop :=
  ∀ s : State, Live s → Sized s → Memory.wf s.fb → BufferOk s → s.ctrl.valv = true → FrameLayoutOk s →
    Disjoint s →
    ∃ t u, exec .pack s = .next t ∧ exec .unpack t = .next u ∧
      ∀ j, SignalOk s j →
        (Representable (s.descAt j) (rawInt (s.descAt j) (s.rawAt j)) → u.rawAt j = s.rawAt j) ∧
        IsFieldValue (s.descAt j) (u.rawAt j) (fun k => (s.rawAt j).getLsbD k)

/-- R121: for a disjoint layout PACK does not depend on the order of the descriptors, and two FLD_WRITEs commute. -/
def Obligations.DescriptorOrderDoesNotMatter : Prop :=
  (∀ (s s' : State) (f : Nat → Nat), Live s → Memory.wf s.fb → BufferOk s → s.ctrl.valv = true →
    FrameLayoutOk s → Disjoint s → s' = { s with desc := s'.desc, raw := s'.raw } →
    (∀ i, SignalOk s i → SignalOk s (f i) ∧ s'.descAt i = s.descAt (f i) ∧ s'.rawAt i = s.rawAt (f i)) →
    (∀ i j, SignalOk s i → SignalOk s j → f i = f j → i = j) →
    (∀ j, SignalOk s j → ∃ i, SignalOk s i ∧ f i = j) →
    ∃ t t', exec .pack s = .next t ∧ exec .pack s' = .next t' ∧ t'.fb = t.fb) ∧
  (∀ (s : State) (a b : Nat) (x y : Word), Live s → Memory.wf s.fb → BufferOk s → FrameLayoutOk s →
    SignalOk s a → SignalOk s b → DisjointFields (s.descAt a) (s.descAt b) →
    ∃ t1 t2 u1 u2,
      exec (.fldWrite a) { s with xr := x } = .next t1 ∧ exec (.fldWrite b) { t1 with xr := y } = .next t2 ∧
      exec (.fldWrite b) { s with xr := y } = .next u1 ∧ exec (.fldWrite a) { u1 with xr := x } = .next u2 ∧
      t2.fb = u2.fb)

/-- R122: UNPACK, UNPACK.P and FLD_READ done twice in a row leave what they leave done once, and never change FB. -/
def Obligations.UnpackIsIdempotent : Prop :=
  ∀ (s : State) (k : Nat), ∀ i ∈ [Instr.unpack, .unpackP, .fldRead k],
    ∃ t, exec i s = .next t ∧ t.fb = s.fb ∧ exec i t = .next t

/-- R123: with a buffer one byte too short the buffer commands end in CapacityError and write nothing; with a larger
BUFCAP the same command succeeds. -/
def Obligations.CapacityIsEnforcedAndRecoverable : Prop :=
  ∀ s : State, Live s → s.ctrl.bufv = true → s.ctrl.valv = true → 1 ≤ s.msg.lengthBytes.toNat →
    s.ctrl.bufcap.toNat = s.msg.lengthBytes.toNat - 1 →
    exec .pack s = .next { s.withErr .capacity with result := 0 } ∧
    exec .packP s = .next { s.withErr .capacity with result := 0 } ∧
    exec .unpack s = .next (s.withErr .capacity) ∧
    exec .unpackP s = .next (s.withErr .capacity) ∧
    ∀ (c : BitVec 8) (i : Instr), i ∈ [Instr.pack, .packP, .unpack, .unpackP] →
      s.msg.lengthBytes.toNat ≤ c.toNat → FrameLayoutOk s → AllXformOk s →
      ∃ t u, exec i s = .next t ∧ exec i { t with ctrl := { t.ctrl with bufcap := c } } = .next u ∧
        u.status.err = .ok ∧ Live u

/-- R124: after INIT and INIT.P every RAW is its default, after INIT.P every PHYS its decode; a default of 0 with
OFFSET 0 gives physical 0 for every SCALE. -/
def Obligations.DefaultInitialisation : Prop :=
  ∀ s : State, Live s → Sized s → InitLayoutOk s →
    (∃ t, exec .init s = .next t ∧ ∀ j, SignalOk s j → t.rawAt j = (s.descAt j).defaultRaw) ∧
    (AllXformOk s → ∃ t, exec .initP s = .next t ∧ ∀ j, SignalOk s j →
      t.rawAt j = (s.descAt j).defaultRaw ∧
      t.physAt j = (dec (s.descAt j) (ival (s.descAt j) (s.descAt j).defaultRaw)).1 ∧
      ((s.descAt j).defaultRaw = 0 → (s.descAt j).offset = 0 → t.physAt j = 0))

/-- R171: the two halves of the value object are independent: INIT and UNPACK neither read nor write PHYS, PACK reads
RAW only and PACK.P PHYS only, neither PACK writes the value file, and a host write to one half leaves the other. -/
def Obligations.RawAndPhysAreIndependent : Prop :=
  ∀ (s : State) (other : List Word),
    (∀ i ∈ [Instr.init, .unpack, .pack], ∃ t, exec i s = .next t ∧ t.phys = s.phys ∧
      exec i { s with phys := other } = .next { t with phys := other }) ∧
    (∃ t, exec .packP s = .next t ∧ t.raw = s.raw ∧ t.phys = s.phys ∧
      exec .packP { s with raw := other } = .next { t with raw := other }) ∧
    (∃ t, exec .pack s = .next t ∧ t.raw = s.raw) ∧
    (∀ (n : BitVec 12) (v : Word) (rest : List PortEvent) (k : Nat), s.pending = .write n v :: rest →
      (regAt s.params n.toNat = some (.raw k) → ∃ t, step s = .next t ∧ t.phys = s.phys) ∧
      (regAt s.params n.toNat = some (.phys k) → ∃ t, step s = .next t ∧ t.raw = s.raw))

/-! ## The machine as a whole -/

/-- Every command stays in the write set R66 and R10 give it: the descriptors are never written, MSG, BUFCAP and BUFV
by SRESET alone, each other register by the commands the rules name; SAT is sticky but for SRESET (R26). -/
def Obligations.EveryCommandStaysInItsWriteSet : Prop :=
  ∀ (i : Instr) (s t : State), exec i s = .next t →
    t.desc = s.desc ∧ t.params = s.params ∧ t.pending = s.pending ∧ t.answers = s.answers ∧
    (i ≠ .sreset → t.msg = s.msg ∧ t.ctrl.bufcap = s.ctrl.bufcap ∧ t.ctrl.bufv = s.ctrl.bufv ∧
      (s.status.sat = true → t.status.sat = true) ∧ (s.ctrl.valv = true → t.ctrl.valv = true) ∧
      (s.status.fatal = true → t = s)) ∧
    (t.ctrl.valv ≠ s.ctrl.valv → i ∈ [.init, .initP, .unpack, .unpackP, .sreset]) ∧
    (t.xr ≠ s.xr → i = .sreset ∨ ∃ k, i ∈ [.fldRead k, .toSigned k, .toUbits k, .encode k]) ∧
    (t.xp ≠ s.xp → i = .sreset ∨ ∃ k, i = .decode k) ∧
    (t.raw ≠ s.raw → i ∈ [.init, .initP, .unpack, .unpackP]) ∧
    (t.phys ≠ s.phys → i ∈ [.initP, .unpackP]) ∧
    (t.fb ≠ s.fb → i ∈ [.pack, .packP] ∨ ∃ k, i = .fldWrite k) ∧
    (t.result ≠ s.result → i ∈ [.pack, .packP, .sreset]) ∧
    (t.status.inr ≠ s.status.inr → i = .sreset ∨ ∃ k, i ∈ [.rangeRaw k, .rangePhys k]) ∧
    (t.status.sat ≠ s.status.sat → i ∈ [.initP, .unpackP, .sreset] ∨ ∃ k, i = .decode k)

/-- Bytes of FB beyond the frame are neither read nor written by any command (R41, R83, R116): two states that differ
there only go the same way, and those bytes keep their values. -/
def Obligations.BytesBeyondTheFrameDoNotMatter : Prop :=
  ∀ (i : Instr) (s : State) (m : Memory), Memory.wf s.fb → Memory.wf m →
    (∀ a, a < s.msg.lengthBytes.toNat → fbRead m a = fbRead s.fb a) →
    ∃ t m', exec i s = .next t ∧ exec i { s with fb := m } = .next { t with fb := m' } ∧
      (∀ a, a < s.msg.lengthBytes.toNat → fbRead m' a = fbRead t.fb a) ∧
      (∀ a, s.msg.lengthBytes.toNat ≤ a → fbRead m' a = fbRead m a ∧ fbRead t.fb a = fbRead s.fb a)

/-- R8: QUANTUM enters no computation: two hardwares with different QUANTUM take the same steps. -/
def Obligations.QuantumEntersNoComputation : Prop :=
  ∀ (s : State) (a b : Nat),
    (∀ t, step s = .next t → step (s.withQuantum a b) = .next (t.withQuantum a b)) ∧
    (∀ r, step s = .refused r → step (s.withQuantum a b) = .refused r) ∧
    (∀ f, step s = .fault f → step (s.withQuantum a b) = .fault f)
end

