-- ==== Sys2Proof/Laws/Memory.lean ====
section
/-! SUPPORT. The frame buffer: read after write, the canonical form, the bit operations, the zero-fill and the
host's window (20_memory.md rules R41, R48, R49). -/

namespace Sys2Proof.Machine

/-! ### one byte -/

theorem fbRead_fbWrite (m : Memory) (i j : Nat) (b : Byte) (hm : Memory.wf m) :
    fbRead (fbWrite m i b) j = if j = i then b else fbRead m j := by
  induction m with
  | nil =>
    by_cases hb : b = unlistedByte <;> by_cases hj : j = i <;> simp_all [fbWrite, fbRead, eq_comm]
  | cons c m ih =>
    obtain ⟨k, v⟩ := c
    have hm' : Memory.wf m := ⟨(List.pairwise_cons.mp hm.1).2, fun c hc => hm.2 c (List.mem_cons_of_mem _ hc)⟩
    have hlt : ∀ c ∈ m, k < c.1 := (List.pairwise_cons.mp hm.1).1
    have hout : ∀ (l : Memory) (a : Nat), (∀ c ∈ l, a < c.1) → fbRead l a = unlistedByte := by
      intro l
      induction l with
      | nil => intro a _; rfl
      | cons c l ihl =>
        intro a h
        obtain ⟨k', v'⟩ := c
        have h1 : a < k' := h (k', v') (List.mem_cons_self)
        rw [fbRead, if_neg (by omega)]
        exact ihl a fun c hc => h c (List.mem_cons_of_mem _ hc)
    by_cases h1 : i < k
    · by_cases hb : b = unlistedByte
      · rw [fbWrite, if_pos h1, if_pos hb]
        by_cases hj : j = i
        · subst hj; subst hb
          rw [if_pos rfl, fbRead, if_neg (by omega)]
          exact hout m j fun c hc => by have := hlt c hc; omega
        · rw [if_neg hj]
      · rw [fbWrite, if_pos h1, if_neg hb, fbRead]
        by_cases hj : j = i
        · rw [if_pos hj.symm, if_pos hj]
        · rw [if_neg (fun h => hj h.symm), if_neg hj]
    · by_cases h2 : i = k
      · subst h2
        by_cases hb : b = unlistedByte
        · rw [fbWrite, if_neg h1, if_pos rfl, if_pos hb]
          by_cases hj : j = i
          · subst hj; rw [if_pos rfl, hb]; exact hout m j hlt
          · rw [if_neg hj, fbRead, if_neg (fun h => hj h.symm)]
        · rw [fbWrite, if_neg h1, if_pos rfl, if_neg hb, fbRead]
          by_cases hj : j = i
          · rw [if_pos hj.symm, if_pos hj]
          · rw [if_neg (fun h => hj h.symm), if_neg hj, fbRead, if_neg (fun h => hj h.symm)]
      · rw [fbWrite, if_neg h1, if_neg h2, fbRead, fbRead, ih hm']
        by_cases hk : k = j
        · rw [if_pos hk, if_pos hk, if_neg (by omega)]
        · rw [if_neg hk, if_neg hk]

/-- Where a write's entry goes: every listed index is the written one or was listed before. -/
theorem fbWrite_mem {m : Memory} {i : Nat} {b : Byte} {c : Host.Cell} (h : c ∈ fbWrite m i b) :
    (c = (i, b) ∧ b ≠ unlistedByte) ∨ c ∈ m := by
  induction m with
  | nil =>
    by_cases hb : b = unlistedByte
    · simp [fbWrite, hb] at h
    · simp [fbWrite, hb] at h; exact .inl ⟨h, hb⟩
  | cons d m ih =>
    obtain ⟨k, v⟩ := d
    rw [fbWrite] at h
    split at h
    · split at h
      · exact .inr h
      · rename_i hb
        rcases List.mem_cons.mp h with h | h
        · exact .inl ⟨h, hb⟩
        · exact .inr h
    · split at h
      · split at h
        · exact .inr (List.mem_cons_of_mem _ h)
        · rename_i hb
          rcases List.mem_cons.mp h with h | h
          · exact .inl ⟨h, hb⟩
          · exact .inr (List.mem_cons_of_mem _ h)
      · rcases List.mem_cons.mp h with h | h
        · exact .inr (h ▸ List.mem_cons_self)
        · rcases ih h with h | h
          · exact .inl h
          · exact .inr (List.mem_cons_of_mem _ h)

/-- A write keeps the canonical form. -/
theorem fbWrite_wf {m : Memory} (i : Nat) (b : Byte) (hm : Memory.wf m) : Memory.wf (fbWrite m i b) := by
  refine ⟨?_, fun c hc => ?_⟩
  · induction m with
    | nil => by_cases hb : b = unlistedByte <;> simp [fbWrite, hb]
    | cons d m ih =>
      obtain ⟨k, v⟩ := d
      have hp := List.pairwise_cons.mp hm.1
      have hm' : Memory.wf m := ⟨hp.2, fun c hc => hm.2 c (List.mem_cons_of_mem _ hc)⟩
      rw [fbWrite]
      split
      · rename_i hik
        split
        · exact hm.1
        · refine List.pairwise_cons.mpr ⟨fun c hc => ?_, hm.1⟩
          rcases List.mem_cons.mp hc with h | h
          · subst h; exact hik
          · exact Nat.lt_trans hik (hp.1 c h)
      · split
        · rename_i hik
          split
          · exact hp.2
          · exact List.pairwise_cons.mpr ⟨fun c hc => by have := hp.1 c hc; simpa [hik] using this, hp.2⟩
        · refine List.pairwise_cons.mpr ⟨fun c hc => ?_, ih hm'⟩
          rcases fbWrite_mem hc with ⟨h, _⟩ | h
          · subst h; simp; omega
          · exact hp.1 c h
  · rcases fbWrite_mem hc with ⟨h, hb⟩ | h
    · subst h; exact hb
    · exact hm.2 c h

/-- A write below a bound keeps every listed index below it. -/
theorem fbWrite_lt {m : Memory} {i n : Nat} {b : Byte} (hm : ∀ c ∈ m, c.1 < n) (hi : i < n) :
    ∀ c ∈ fbWrite m i b, c.1 < n := by
  intro c hc
  rcases fbWrite_mem hc with ⟨h, _⟩ | h
  · subst h; exact hi
  · exact hm c h

/-! ### one bit -/

/-- Bit `k'` of a byte whose bit `k` is replaced by `x`. -/
theorem getLsbD_setBit (y : Byte) (k k' : Nat) (x : Bool) (hk' : k' < 8) :
    ((y &&& ~~~((1 : Byte) <<< k)) ||| ((if x then 1 else 0 : Byte) <<< k)).getLsbD k' =
      if k' = k then x else y.getLsbD k' := by
  have h1 : (1 : Byte).getLsbD (k' - k) = decide (k' - k = 0) := by
    simp [BitVec.getLsbD_one]
  have hx : ((if x then 1 else 0 : Byte)).getLsbD (k' - k) = (x && decide (k' - k = 0)) := by
    cases x
    · simp
    · rw [if_pos rfl, h1, Bool.true_and]
  rw [BitVec.getLsbD_or, BitVec.getLsbD_and, BitVec.getLsbD_not, BitVec.getLsbD_shiftLeft,
    BitVec.getLsbD_shiftLeft, h1, hx]
  rcases Nat.lt_trichotomy k' k with h | h | h
  · simp [hk', h, Nat.ne_of_lt h]
  · subst h; simp [hk']
  · have h2 : ¬ k' < k := by omega
    have h3 : k' - k ≠ 0 := by omega
    have h4 : k' ≠ k := by omega
    simp [hk', h2, h3, h4]

/-- A bit after one bit was replaced: the other bits of the byte and the other bytes are kept (R49). -/
theorem fbBit_fbSetBit (m : Memory) (b k b' k' : Nat) (x : Bool) (hm : Memory.wf m) (hk : k < 8) :
    fbBit (fbSetBit m b k x) b' k' = if b' = b ∧ k' = k then x else fbBit m b' k' := by
  unfold fbBit fbSetBit
  rw [fbRead_fbWrite _ _ _ _ hm]
  by_cases hb : b' = b
  · subst hb
    rw [if_pos rfl]
    by_cases hk' : k' < 8
    · rw [getLsbD_setBit _ _ _ _ hk']; simp
    · have hne : ¬ (b' = b' ∧ k' = k) := by omega
      rw [if_neg hne, BitVec.getLsbD_of_ge _ _ (by omega), BitVec.getLsbD_of_ge _ _ (by omega)]
  · have hne : ¬ (b' = b ∧ k' = k) := fun h => hb h.1
    rw [if_neg hb, if_neg hne]

/-- Replacing a bit keeps the canonical form. -/
theorem fbSetBit_wf {m : Memory} (b k : Nat) (x : Bool) (hm : Memory.wf m) : Memory.wf (fbSetBit m b k x) :=
  fbWrite_wf _ _ hm

/-! ### a list of writes -/

/-- A fold of writes keeps the canonical form. -/
theorem fbWrites_wf {α : Type} (l : List α) (f : α → Nat) (g : α → Byte) (m : Memory) (hm : Memory.wf m) :
    Memory.wf (l.foldl (fun m a => fbWrite m (f a) (g a)) m) := by
  induction l generalizing m with
  | nil => exact hm
  | cons a l ih => exact ih _ (fbWrite_wf _ _ hm)

/-- A fold of writes below a bound keeps every listed index below it. -/
theorem fbWrites_lt {α : Type} (l : List α) (f : α → Nat) (g : α → Byte) (m : Memory) (n : Nat)
    (hm : ∀ c ∈ m, c.1 < n) (hf : ∀ a ∈ l, f a < n) :
    ∀ c ∈ l.foldl (fun m a => fbWrite m (f a) (g a)) m, c.1 < n := by
  induction l generalizing m with
  | nil => exact hm
  | cons a l ih =>
    exact ih _ (fbWrite_lt hm (hf a List.mem_cons_self)) fun a' ha' => hf a' (List.mem_cons_of_mem _ ha')

/-- A byte after the writes `FB[f 0] <- g 0, …, FB[f (n-1)] <- g (n-1)` to distinct indices. -/
theorem fbRead_writes (n : Nat) (f : Nat → Nat) (g : Nat → Byte) (m : Memory) (hm : Memory.wf m)
    (hf : ∀ i j, i < n → j < n → f i = f j → i = j) (a : Nat) :
    (∀ i, i < n → f i = a →
      fbRead ((List.range n).foldl (fun m i => fbWrite m (f i) (g i)) m) a = g i) ∧
    ((∀ i, i < n → f i ≠ a) →
      fbRead ((List.range n).foldl (fun m i => fbWrite m (f i) (g i)) m) a = fbRead m a) := by
  induction n with
  | zero => exact ⟨fun i hi => absurd hi (Nat.not_lt_zero _), fun _ => rfl⟩
  | succ n ih =>
    obtain ⟨ih1, ih2⟩ := ih fun i j hi hj => hf i j (by omega) (by omega)
    rw [List.range_succ, List.foldl_append, List.foldl_cons, List.foldl_nil,
      fbRead_fbWrite _ _ _ _ (fbWrites_wf _ f g m hm)]
    refine ⟨fun i hi hfa => ?_, fun h => ?_⟩
    · by_cases hin : i = n
      · subst hin; rw [if_pos hfa.symm]
      · rw [if_neg (fun h => hin (hf i n (by omega) (by omega) (hfa.trans h)))]
        exact ih1 i (by omega) hfa
    · rw [if_neg (fun h' => h n (by omega) h'.symm)]
      exact ih2 fun i hi => h i (by omega)

/-! ### the zero-fill (R113, R116) -/

theorem fbZero_wf {m : Memory} (n : Nat) (hm : Memory.wf m) : Memory.wf (fbZero m n) :=
  fbWrites_wf (List.range n) (fun i => i) (fun _ => 0) m hm

/-- The first `n` bytes read 0, the others are unchanged. -/
theorem fbRead_fbZero (m : Memory) (n a : Nat) (hm : Memory.wf m) :
    fbRead (fbZero m n) a = if a < n then 0 else fbRead m a := by
  have h := fbRead_writes n (fun i => i) (fun _ => 0) m hm (fun i j _ _ h => h) a
  unfold fbZero
  by_cases ha : a < n
  · rw [if_pos ha]; exact h.1 a ha rfl
  · rw [if_neg ha]; exact h.2 fun i hi h' => ha (h' ▸ hi)

theorem fbZero_lt {m : Memory} {n k : Nat} (hm : ∀ c ∈ m, c.1 < k) (hn : n ≤ k) :
    ∀ c ∈ fbZero m n, c.1 < k :=
  fbWrites_lt (List.range n) (fun i => i) (fun _ => 0) m k hm fun i hi => by
    have := List.mem_range.mp hi; omega

/-! ### the host's window (R48) -/

theorem fbSetWindow_wf {m : Memory} (k : Nat) (v : Word) (hm : Memory.wf m) : Memory.wf (fbSetWindow m k v) :=
  fbWrites_wf (List.range 8) (fun j => 8 * k + j) (byteOf v) m hm

/-- A byte after a window write: byte `j` of the word at index `8k + j`, every other byte unchanged. -/
theorem fbRead_fbSetWindow (m : Memory) (k : Nat) (v : Word) (a : Nat) (hm : Memory.wf m) :
    fbRead (fbSetWindow m k v) a = if 8 * k ≤ a ∧ a < 8 * k + 8 then byteOf v (a - 8 * k) else fbRead m a := by
  have h := fbRead_writes 8 (fun j => 8 * k + j) (byteOf v) m hm (fun i j _ _ h => by omega) a
  unfold fbSetWindow
  by_cases ha : 8 * k ≤ a ∧ a < 8 * k + 8
  · rw [if_pos ha]; exact h.1 (a - 8 * k) (by omega) (by omega)
  · rw [if_neg ha]; exact h.2 fun i hi h' => ha (by omega)

theorem fbSetWindow_lt {m : Memory} {k n : Nat} (v : Word) (hm : ∀ c ∈ m, c.1 < n) (hk : 8 * k + 8 ≤ n) :
    ∀ c ∈ fbSetWindow m k v, c.1 < n :=
  fbWrites_lt (List.range 8) (fun j => 8 * k + j) (byteOf v) m n hm fun i hi => by
    have := List.mem_range.mp hi; omega

/-! ### contents brought by a reset event (R160) -/

theorem fbOfBytes_wf (l : List Byte) : Memory.wf (fbOfBytes l) :=
  fbWrites_wf (List.range l.length) (fun i => i) (fun i => l.getD i 0) [] ⟨List.Pairwise.nil, by simp⟩

/-- The buffer a reset event brings reads as the event says, and as an unlisted byte beyond it. -/
theorem fbRead_fbOfBytes (l : List Byte) (a : Nat) : fbRead (fbOfBytes l) a = l.getD a unlistedByte := by
  have h := fbRead_writes l.length (fun i => i) (fun i => l.getD i 0) [] ⟨List.Pairwise.nil, by simp⟩
    (fun i j _ _ h => h) a
  unfold fbOfBytes
  by_cases ha : a < l.length
  · rw [h.1 a ha rfl]; simp [List.getD_eq_getElem?_getD, ha]
  · rw [h.2 fun i hi h' => ha (h' ▸ hi)]
    simp [List.getD_eq_getElem?_getD, List.getElem?_eq_none (Nat.le_of_not_lt ha), fbRead]

theorem fbOfBytes_lt (l : List Byte) : ∀ c ∈ fbOfBytes l, c.1 < l.length :=
  fbWrites_lt (List.range l.length) (fun i => i) (fun i => l.getD i 0) [] l.length (by simp)
    fun i hi => List.mem_range.mp hi

/-- A list fitted to a size has that size. -/
@[simp] theorem fitTo_length {α : Type} (n : Nat) (z : α) (l : List α) : (fitTo n z l).length = n := by
  simp [fitTo]

/-- An entry of a fitted list is the list's own, where there is one. -/
theorem fitTo_getD {α : Type} (n : Nat) (z : α) (l : List α) (i : Nat) (hi : i < n) :
    (fitTo n z l).getD i z = l.getD i z := by
  simp [fitTo, List.getD_eq_getElem?_getD, hi]

end Sys2Proof.Machine
end

