-- ==== Sys2Proof/Laws/Accessor.lean ====
section
/-! SUPPORT. The triple list in closed form (40_bitfield_accessor.md rule R86), and what the accessor's read and
write do to one bit (rules R81, R82). -/

namespace Sys2Proof.Machine

/-! ### the triple list -/

/-- The BigEndian branch in closed form, for any start. -/
theorem triplesBig_eq (n b k : Nat) (hk : k ≤ 7) :
    triplesBig b k n = (List.range n).map fun j =>
      { byte := (8 * b + 7 - k + j) / 8, pos := 7 - (8 * b + 7 - k + j) % 8, weight := n - 1 - j } := by
  induction n generalizing b k with
  | zero => rfl
  | succ n ih =>
    rw [triplesBig, List.range_succ_eq_map, List.map_cons, List.map_map]
    have h0 : (8 * b + 7 - k + 0) / 8 = b ∧ 7 - (8 * b + 7 - k + 0) % 8 = k := by omega
    congr 1
    · simp only [h0]; simp
    · split
      · rename_i hk0
        rw [ih _ _ (by omega)]
        apply List.map_congr_left
        intro j _
        simp only [Function.comp, Triple.mk.injEq]
        omega
      · rename_i hk0
        rw [ih _ _ (by omega)]
        apply List.map_congr_left
        intro j _
        simp only [Function.comp, Triple.mk.injEq]
        omega

/-- Which triples a field has: one for each weight below L, at the closed-form place. -/
theorem mem_triples (d : Descriptor) (t : Triple) :
    t ∈ triples d ↔ t.weight < d.lengthBits.toNat ∧ bitPlace d t.weight = (t.byte, t.pos) := by
  obtain ⟨b, k, w⟩ := t
  cases hbo : d.byteOrder with
  | littleEndian =>
    simp only [triples, hbo, triplesLittle, bitPlace, List.mem_map, List.mem_range, Triple.mk.injEq,
      Descriptor.start, Descriptor.len, Prod.mk.injEq]
    constructor
    · rintro ⟨i, hi, rfl, rfl, rfl⟩; exact ⟨hi, rfl, rfl⟩
    · rintro ⟨hw, rfl, rfl⟩; exact ⟨w, hw, rfl, rfl, rfl⟩
  | bigEndian =>
    have hq : 8 * (d.startBit.toNat / 8) + 7 - d.startBit.toNat % 8 = bigStart d := rfl
    simp only [triples, hbo, bitPlace]
    rw [triplesBig_eq _ _ _ (by simp only [Descriptor.start]; omega)]
    simp only [List.mem_map, List.mem_range, Triple.mk.injEq, Descriptor.start, Descriptor.len,
      Prod.mk.injEq, hq]
    constructor
    · rintro ⟨j, hj, rfl, rfl, rfl⟩
      have : d.lengthBits.toNat - 1 - (d.lengthBits.toNat - 1 - j) = j := by omega
      rw [this]; exact ⟨by omega, rfl, rfl⟩
    · rintro ⟨hw, rfl, rfl⟩
      exact ⟨d.lengthBits.toNat - 1 - w, by omega, rfl, rfl, by omega⟩

/-- The position in a byte is a bit number. -/
theorem bitPlace_pos_lt (d : Descriptor) (w : Nat) : (bitPlace d w).2 < 8 := by
  unfold bitPlace
  cases d.byteOrder with
  | littleEndian => exact Nat.mod_lt _ (by decide)
  | bigEndian => simp only; omega

/-- No place carries two weights (R80). -/
theorem bitPlace_injective (d : Descriptor) {w w' : Nat} (hw : w < d.lengthBits.toNat)
    (hw' : w' < d.lengthBits.toNat) (h : bitPlace d w = bitPlace d w') : w = w' := by
  unfold bitPlace at h
  cases hbo : d.byteOrder with
  | littleEndian => simp only [hbo, Prod.mk.injEq] at h; omega
  | bigEndian => simp only [hbo, Prod.mk.injEq] at h; omega

/-- A field inside a frame of `n` bytes has every place in it (R83, R86). -/
theorem bitPlace_byte_lt (d : Descriptor) {n w : Nat} (hp : PlaceOk n d) (hw : w < d.lengthBits.toNat) :
    (bitPlace d w).1 < n := by
  unfold PlaceOk fieldEnd at hp
  unfold bitPlace
  cases hbo : d.byteOrder with
  | littleEndian => simp only [hbo] at hp ⊢; omega
  | bigEndian => simp only [hbo] at hp ⊢; omega

/-- The byte indices of an access (R83). -/
theorem mem_touchedBytes (d : Descriptor) (b : Nat) :
    b ∈ touchedBytes d ↔ ∃ w, w < d.lengthBits.toNat ∧ (bitPlace d w).1 = b := by
  simp only [touchedBytes, List.mem_map, mem_triples]
  constructor
  · rintro ⟨t, ⟨hw, hp⟩, rfl⟩; exact ⟨t.weight, hw, by rw [hp]⟩
  · rintro ⟨w, hw, rfl⟩; exact ⟨⟨(bitPlace d w).1, (bitPlace d w).2, w⟩, ⟨hw, rfl⟩, rfl⟩

/-! ### reading a field -/

theorem fldRead_fold (m : Memory) (ts : List Triple) (u : Word) (i : Nat) :
    (ts.foldl (fun u t => u ||| ((if fbBit m t.byte t.pos then 1 else 0 : Word) <<< t.weight)) u).getLsbD i =
      (u.getLsbD i || (decide (i < 64) && ts.any fun t => decide (t.weight = i) && fbBit m t.byte t.pos)) := by
  induction ts generalizing u with
  | nil => simp
  | cons t ts ih =>
    have h1 : ((if fbBit m t.byte t.pos then 1 else 0 : Word) <<< t.weight).getLsbD i =
        (decide (i < 64) && (decide (t.weight = i) && fbBit m t.byte t.pos)) := by
      rw [BitVec.getLsbD_shiftLeft]
      have h2 : (1 : Word).getLsbD (i - t.weight) = decide (i - t.weight = 0) := by
        simp [BitVec.getLsbD_one]
      cases fbBit m t.byte t.pos
      · simp
      · simp only [if_true, h2, Bool.and_true]
        by_cases hi : i < 64 <;> by_cases hl : i < t.weight <;> by_cases he : t.weight = i <;>
          (simp [hi, hl, he]; try omega)
    rw [List.foldl_cons, ih, BitVec.getLsbD_or, h1, List.any_cons, Bool.or_assoc, Bool.and_or_distrib_left]

/-- Bit `i` of `fld_read(s)`: the bit at the place of weight `i`, and 0 from bit L on (R81). -/
theorem getLsbD_fldRead (d : Descriptor) (m : Memory) (hL : d.lengthBits.toNat ≤ 64) (i : Nat) :
    (fldRead d m).getLsbD i = (decide (i < d.lengthBits.toNat) && bitAt m (bitPlace d i)) := by
  have h0 : (0 : Word).getLsbD i = false := by simp
  rw [fldRead, fldRead_fold, h0, Bool.false_or]
  by_cases hi : i < d.lengthBits.toNat
  · have hi64 : i < 64 := by omega
    simp only [hi, hi64, decide_true, Bool.true_and]
    rw [Bool.eq_iff_iff, List.any_eq_true]
    constructor
    · rintro ⟨t, ht, hc⟩
      simp only [Bool.and_eq_true, decide_eq_true_eq] at hc
      obtain ⟨hw, hb⟩ := hc
      have := ((mem_triples d t).mp ht).2
      rw [← hw, this]; exact hb
    · intro hb
      refine ⟨⟨(bitPlace d i).1, (bitPlace d i).2, i⟩, (mem_triples d _).mpr ⟨hi, rfl⟩, ?_⟩
      simpa [fbBit, bitAt] using hb
  · simp only [hi, decide_false, Bool.false_and, Bool.and_eq_false_iff]
    right
    rw [List.any_eq_false]
    intro t ht hc
    simp only [Bool.and_eq_true, decide_eq_true_eq] at hc
    have := ((mem_triples d t).mp ht).1
    omega

/-- `fld_read` is the zero-extension of L bits: `uint(u) < 2^L` (R81). -/
theorem fldRead_lt (d : Descriptor) (m : Memory) (hL : d.lengthBits.toNat ≤ 64) :
    (fldRead d m).toNat < 2 ^ d.lengthBits.toNat := by
  apply Nat.lt_pow_two_of_testBit
  intro i hi
  have := getLsbD_fldRead d m hL i
  simpa [BitVec.getLsbD, Nat.not_lt.mpr hi] using this

/-- Two buffers that agree on the field's places give the same field. -/
theorem fldRead_congr (d : Descriptor) (m m' : Memory) (hL : d.lengthBits.toNat ≤ 64)
    (h : ∀ w, w < d.lengthBits.toNat → bitAt m (bitPlace d w) = bitAt m' (bitPlace d w)) :
    fldRead d m = fldRead d m' := by
  apply BitVec.eq_of_getLsbD_eq
  intro i _
  rw [getLsbD_fldRead d m hL, getLsbD_fldRead d m' hL]
  by_cases hi : i < d.lengthBits.toNat
  · rw [h i hi]
  · simp [hi]

/-! ### writing a field -/

theorem fldWrite_fold (ts : List Triple) (w : Word) (m : Memory) (hm : Memory.wf m)
    (hpos : ∀ t ∈ ts, t.pos < 8)
    (hinj : ∀ t ∈ ts, ∀ t' ∈ ts, t.byte = t'.byte → t.pos = t'.pos → t.weight = t'.weight) :
    let m' := ts.foldl (fun m t => fbSetBit m t.byte t.pos (wordBit w t.weight)) m
    Memory.wf m' ∧
    (∀ t ∈ ts, fbBit m' t.byte t.pos = wordBit w t.weight) ∧
    (∀ b k, (∀ t ∈ ts, ¬ (t.byte = b ∧ t.pos = k)) → fbBit m' b k = fbBit m b k) := by
  induction ts generalizing m with
  | nil => exact ⟨hm, by simp, fun _ _ _ => rfl⟩
  | cons t ts ih =>
    have hwf := fbSetBit_wf t.byte t.pos (wordBit w t.weight) hm
    obtain ⟨h1, h2, h3⟩ := ih _ hwf (fun t' ht' => hpos t' (List.mem_cons_of_mem _ ht'))
      (fun a ha b hb => hinj a (List.mem_cons_of_mem _ ha) b (List.mem_cons_of_mem _ hb))
    refine ⟨h1, fun a ha => ?_, fun b k h => ?_⟩
    · by_cases hin : ∃ t' ∈ ts, t'.byte = a.byte ∧ t'.pos = a.pos
      · obtain ⟨t', ht', hb, hk⟩ := hin
        have hw := hinj t' (List.mem_cons_of_mem _ ht') a ha hb hk
        rw [← hb, ← hk, ← hw]; exact h2 t' ht'
      · rw [List.foldl_cons, h3 _ _ fun t' ht' hc => hin ⟨t', ht', hc⟩]
        rcases List.mem_cons.mp ha with rfl | ha
        · rw [fbBit_fbSetBit _ _ _ _ _ _ hm (hpos _ List.mem_cons_self)]; simp
        · exact absurd ⟨a, ha, rfl, rfl⟩ hin
    · rw [List.foldl_cons, h3 _ _ fun t' ht' => h t' (List.mem_cons_of_mem _ ht'),
        fbBit_fbSetBit _ _ _ _ _ _ hm (hpos _ List.mem_cons_self), if_neg]
      exact fun hc => h t List.mem_cons_self ⟨hc.1.symm, hc.2.symm⟩

/-- What `fld_write` leaves: the canonical form, the bits of `w` at the field's places, every other bit
unchanged (R82). -/
theorem fldWrite_spec (d : Descriptor) (m : Memory) (w : Word) (hm : Memory.wf m) :
    Memory.wf (fldWrite d m w) ∧
    (∀ i, i < d.lengthBits.toNat → bitAt (fldWrite d m w) (bitPlace d i) = w.getLsbD i) ∧
    (∀ p, ¬ Covers d p → bitAt (fldWrite d m w) p = bitAt m p) := by
  obtain ⟨h1, h2, h3⟩ := fldWrite_fold (triples d) w m hm
    (fun t ht => by
      have h := (mem_triples d t).mp ht
      have := bitPlace_pos_lt d t.weight
      rw [h.2] at this; exact this)
    (fun t ht t' ht' hb hk => by
      have h := (mem_triples d t).mp ht
      have h' := (mem_triples d t').mp ht'
      exact bitPlace_injective d h.1 h'.1 (by rw [h.2, h'.2, hb, hk]))
  refine ⟨h1, fun i hi => ?_, fun p hp => ?_⟩
  · exact h2 ⟨(bitPlace d i).1, (bitPlace d i).2, i⟩ ((mem_triples d _).mpr ⟨hi, rfl⟩)
  · refine h3 p.1 p.2 fun t ht hc => hp ?_
    have h := (mem_triples d t).mp ht
    exact ⟨t.weight, h.1, by rw [h.2, hc.1, hc.2]⟩

/-- A field inside `n` bytes writes no entry at or beyond index `n` (R83). -/
theorem fldWrite_lt {m : Memory} {n : Nat} (d : Descriptor) (w : Word) (hm : ∀ c ∈ m, c.1 < n)
    (hd : ∀ i, i < d.lengthBits.toNat → (bitPlace d i).1 < n) : ∀ c ∈ fldWrite d m w, c.1 < n := by
  have hts : ∀ t ∈ triples d, t.byte < n := fun t ht => by
    have h := (mem_triples d t).mp ht
    have := hd t.weight h.1
    rw [h.2] at this; exact this
  unfold fldWrite
  generalize triples d = ts at hts ⊢
  induction ts generalizing m with
  | nil => exact hm
  | cons t ts ih =>
    exact ih (fbWrite_lt hm (hts t List.mem_cons_self)) fun t' ht' => hts t' (List.mem_cons_of_mem _ ht')

/-- Two canonical buffers with the same bytes are the same buffer. -/
theorem fb_ext {m m' : Memory} (hm : Memory.wf m) (hm' : Memory.wf m')
    (h : ∀ a, fbRead m a = fbRead m' a) : m = m' := by
  have hout : ∀ (l : Memory) (a : Nat), (∀ c ∈ l, a < c.1) → fbRead l a = unlistedByte := by
    intro l
    induction l with
    | nil => intro a _; rfl
    | cons c l ihl =>
      intro a h
      obtain ⟨k', v'⟩ := c
      have h1 : a < k' := h (k', v') (List.mem_cons_self)
      rw [fbRead, if_neg (by omega)]
      exact ihl a fun c hc => h c (List.mem_cons_of_mem _ hc)
  induction m generalizing m' with
  | nil =>
    cases m' with
    | nil => rfl
    | cons c m' =>
      obtain ⟨k, v⟩ := c
      have := h k
      simp only [fbRead, if_true] at this
      exact absurd this.symm (hm'.2 (k, v) List.mem_cons_self)
  | cons c m ih =>
    obtain ⟨k, v⟩ := c
    have hp := List.pairwise_cons.mp hm.1
    have hv : v ≠ unlistedByte := hm.2 (k, v) List.mem_cons_self
    cases m' with
    | nil =>
      have := h k
      simp only [fbRead, if_true] at this
      exact absurd this hv
    | cons c' m' =>
      obtain ⟨k', v'⟩ := c'
      have hp' := List.pairwise_cons.mp hm'.1
      have hv' : v' ≠ unlistedByte := hm'.2 (k', v') List.mem_cons_self
      have hkk : k = k' := by
        rcases Nat.lt_trichotomy k k' with hlt | heq | hlt
        · have hk := h k
          have h2 : fbRead ((k', v') :: m') k = unlistedByte := hout _ _ fun c hc => by
            rcases List.mem_cons.mp hc with rfl | hc
            · exact hlt
            · exact Nat.lt_trans hlt (hp'.1 c hc)
          rw [h2, fbRead, if_pos rfl] at hk
          exact absurd hk hv
        · exact heq
        · have hk := h k'
          have h2 : fbRead ((k, v) :: m) k' = unlistedByte := hout _ _ fun c hc => by
            rcases List.mem_cons.mp hc with rfl | hc
            · exact hlt
            · exact Nat.lt_trans hlt (hp.1 c hc)
          rw [h2, fbRead, if_pos rfl] at hk
          exact absurd hk.symm hv'
      subst hkk
      have hvv : v = v' := by have := h k; simpa [fbRead] using this
      subst hvv
      congr 1
      refine ih (m' := m') ⟨hp.2, fun c hc => hm.2 c (List.mem_cons_of_mem _ hc)⟩
        ⟨hp'.2, fun c hc => hm'.2 c (List.mem_cons_of_mem _ hc)⟩ fun a => ?_
      have ha := h a
      by_cases hka : k = a
      · subst hka
        rw [hout m k hp.1, hout m' k hp'.1]
      · simpa [fbRead, hka] using ha

/-- Two canonical buffers with the same bits are the same buffer. -/
theorem fb_ext_bits {m m' : Memory} (hm : Memory.wf m) (hm' : Memory.wf m')
    (h : ∀ a k, k < 8 → bitAt m (a, k) = bitAt m' (a, k)) : m = m' :=
  fb_ext hm hm' fun a => BitVec.eq_of_getLsbD_eq fun k hk => h a k hk

end Sys2Proof.Machine
end

