-- ==== Sys2Proof/Laws/State.lean ====
section
/-! SUPPORT. What each update of the state leaves in each field, and in the reads built on the fields: one lemma
per field per update, so that no later proof unfolds a record update. -/

namespace Sys2Proof.Machine

variable (s : State)

/-! ### setErr -/

@[simp] theorem State.setErr_xr (e : ErrCode) : (s.setErr e).xr = s.xr := rfl
@[simp] theorem State.setErr_xp (e : ErrCode) : (s.setErr e).xp = s.xp := rfl
@[simp] theorem State.setErr_raw (e : ErrCode) : (s.setErr e).raw = s.raw := rfl
@[simp] theorem State.setErr_phys (e : ErrCode) : (s.setErr e).phys = s.phys := rfl
@[simp] theorem State.setErr_fb (e : ErrCode) : (s.setErr e).fb = s.fb := rfl
@[simp] theorem State.setErr_desc (e : ErrCode) : (s.setErr e).desc = s.desc := rfl
@[simp] theorem State.setErr_msg (e : ErrCode) : (s.setErr e).msg = s.msg := rfl
@[simp] theorem State.setErr_ctrl (e : ErrCode) : (s.setErr e).ctrl = s.ctrl := rfl
@[simp] theorem State.setErr_status (e : ErrCode) : (s.setErr e).status = { s.status with err := e } := rfl
@[simp] theorem State.setErr_result (e : ErrCode) : (s.setErr e).result = s.result := rfl
@[simp] theorem State.setErr_params (e : ErrCode) : (s.setErr e).params = s.params := rfl
@[simp] theorem State.setErr_pending (e : ErrCode) : (s.setErr e).pending = s.pending := rfl
@[simp] theorem State.setErr_answers (e : ErrCode) : (s.setErr e).answers = s.answers := rfl
@[simp] theorem State.setErr_numSignals (e : ErrCode) : (s.setErr e).numSignals = s.numSignals := rfl
@[simp] theorem State.setErr_frameBytes (e : ErrCode) : (s.setErr e).frameBytes = s.frameBytes := rfl
@[simp] theorem State.setErr_descAt (e : ErrCode) (j : Nat) : (s.setErr e).descAt j = s.descAt j := rfl
@[simp] theorem State.setErr_rawAt (e : ErrCode) (j : Nat) : (s.setErr e).rawAt j = s.rawAt j := rfl
@[simp] theorem State.setErr_physAt (e : ErrCode) (j : Nat) : (s.setErr e).physAt j = s.physAt j := rfl

/-! ### setInr -/

@[simp] theorem State.setInr_xr (b : Bool) : (s.setInr b).xr = s.xr := rfl
@[simp] theorem State.setInr_xp (b : Bool) : (s.setInr b).xp = s.xp := rfl
@[simp] theorem State.setInr_raw (b : Bool) : (s.setInr b).raw = s.raw := rfl
@[simp] theorem State.setInr_phys (b : Bool) : (s.setInr b).phys = s.phys := rfl
@[simp] theorem State.setInr_fb (b : Bool) : (s.setInr b).fb = s.fb := rfl
@[simp] theorem State.setInr_desc (b : Bool) : (s.setInr b).desc = s.desc := rfl
@[simp] theorem State.setInr_msg (b : Bool) : (s.setInr b).msg = s.msg := rfl
@[simp] theorem State.setInr_ctrl (b : Bool) : (s.setInr b).ctrl = s.ctrl := rfl
@[simp] theorem State.setInr_status (b : Bool) : (s.setInr b).status = { s.status with inr := b } := rfl
@[simp] theorem State.setInr_result (b : Bool) : (s.setInr b).result = s.result := rfl
@[simp] theorem State.setInr_params (b : Bool) : (s.setInr b).params = s.params := rfl
@[simp] theorem State.setInr_pending (b : Bool) : (s.setInr b).pending = s.pending := rfl
@[simp] theorem State.setInr_answers (b : Bool) : (s.setInr b).answers = s.answers := rfl
@[simp] theorem State.setInr_numSignals (b : Bool) : (s.setInr b).numSignals = s.numSignals := rfl
@[simp] theorem State.setInr_frameBytes (b : Bool) : (s.setInr b).frameBytes = s.frameBytes := rfl
@[simp] theorem State.setInr_descAt (b : Bool) (j : Nat) : (s.setInr b).descAt j = s.descAt j := rfl
@[simp] theorem State.setInr_rawAt (b : Bool) (j : Nat) : (s.setInr b).rawAt j = s.rawAt j := rfl
@[simp] theorem State.setInr_physAt (b : Bool) (j : Nat) : (s.setInr b).physAt j = s.physAt j := rfl

/-! ### noteSat -/

@[simp] theorem State.noteSat_xr (b : Bool) : (s.noteSat b).xr = s.xr := rfl
@[simp] theorem State.noteSat_xp (b : Bool) : (s.noteSat b).xp = s.xp := rfl
@[simp] theorem State.noteSat_raw (b : Bool) : (s.noteSat b).raw = s.raw := rfl
@[simp] theorem State.noteSat_phys (b : Bool) : (s.noteSat b).phys = s.phys := rfl
@[simp] theorem State.noteSat_fb (b : Bool) : (s.noteSat b).fb = s.fb := rfl
@[simp] theorem State.noteSat_desc (b : Bool) : (s.noteSat b).desc = s.desc := rfl
@[simp] theorem State.noteSat_msg (b : Bool) : (s.noteSat b).msg = s.msg := rfl
@[simp] theorem State.noteSat_ctrl (b : Bool) : (s.noteSat b).ctrl = s.ctrl := rfl
@[simp] theorem State.noteSat_status (b : Bool) :
    (s.noteSat b).status = { s.status with sat := s.status.sat || b } := rfl
@[simp] theorem State.noteSat_result (b : Bool) : (s.noteSat b).result = s.result := rfl
@[simp] theorem State.noteSat_params (b : Bool) : (s.noteSat b).params = s.params := rfl
@[simp] theorem State.noteSat_pending (b : Bool) : (s.noteSat b).pending = s.pending := rfl
@[simp] theorem State.noteSat_answers (b : Bool) : (s.noteSat b).answers = s.answers := rfl
@[simp] theorem State.noteSat_numSignals (b : Bool) : (s.noteSat b).numSignals = s.numSignals := rfl
@[simp] theorem State.noteSat_frameBytes (b : Bool) : (s.noteSat b).frameBytes = s.frameBytes := rfl
@[simp] theorem State.noteSat_descAt (b : Bool) (j : Nat) : (s.noteSat b).descAt j = s.descAt j := rfl
@[simp] theorem State.noteSat_rawAt (b : Bool) (j : Nat) : (s.noteSat b).rawAt j = s.rawAt j := rfl
@[simp] theorem State.noteSat_physAt (b : Bool) (j : Nat) : (s.noteSat b).physAt j = s.physAt j := rfl

/-! ### clearSat -/

@[simp] theorem State.clearSat_xr (v : Word) : (s.clearSat v).xr = s.xr := rfl
@[simp] theorem State.clearSat_xp (v : Word) : (s.clearSat v).xp = s.xp := rfl
@[simp] theorem State.clearSat_raw (v : Word) : (s.clearSat v).raw = s.raw := rfl
@[simp] theorem State.clearSat_phys (v : Word) : (s.clearSat v).phys = s.phys := rfl
@[simp] theorem State.clearSat_fb (v : Word) : (s.clearSat v).fb = s.fb := rfl
@[simp] theorem State.clearSat_desc (v : Word) : (s.clearSat v).desc = s.desc := rfl
@[simp] theorem State.clearSat_msg (v : Word) : (s.clearSat v).msg = s.msg := rfl
@[simp] theorem State.clearSat_ctrl (v : Word) : (s.clearSat v).ctrl = s.ctrl := rfl
@[simp] theorem State.clearSat_status (v : Word) :
    (s.clearSat v).status = { s.status with sat := s.status.sat && !wordBit v 3 } := rfl
@[simp] theorem State.clearSat_result (v : Word) : (s.clearSat v).result = s.result := rfl
@[simp] theorem State.clearSat_params (v : Word) : (s.clearSat v).params = s.params := rfl
@[simp] theorem State.clearSat_pending (v : Word) : (s.clearSat v).pending = s.pending := rfl
@[simp] theorem State.clearSat_answers (v : Word) : (s.clearSat v).answers = s.answers := rfl
@[simp] theorem State.clearSat_numSignals (v : Word) : (s.clearSat v).numSignals = s.numSignals := rfl
@[simp] theorem State.clearSat_frameBytes (v : Word) : (s.clearSat v).frameBytes = s.frameBytes := rfl
@[simp] theorem State.clearSat_descAt (v : Word) (j : Nat) : (s.clearSat v).descAt j = s.descAt j := rfl
@[simp] theorem State.clearSat_rawAt (v : Word) (j : Nat) : (s.clearSat v).rawAt j = s.rawAt j := rfl
@[simp] theorem State.clearSat_physAt (v : Word) (j : Nat) : (s.clearSat v).physAt j = s.physAt j := rfl

/-! ### setXr -/

@[simp] theorem State.setXr_xr (w : Word) : (s.setXr w).xr = w := rfl
@[simp] theorem State.setXr_xp (w : Word) : (s.setXr w).xp = s.xp := rfl
@[simp] theorem State.setXr_raw (w : Word) : (s.setXr w).raw = s.raw := rfl
@[simp] theorem State.setXr_phys (w : Word) : (s.setXr w).phys = s.phys := rfl
@[simp] theorem State.setXr_fb (w : Word) : (s.setXr w).fb = s.fb := rfl
@[simp] theorem State.setXr_desc (w : Word) : (s.setXr w).desc = s.desc := rfl
@[simp] theorem State.setXr_msg (w : Word) : (s.setXr w).msg = s.msg := rfl
@[simp] theorem State.setXr_ctrl (w : Word) : (s.setXr w).ctrl = s.ctrl := rfl
@[simp] theorem State.setXr_status (w : Word) : (s.setXr w).status = s.status := rfl
@[simp] theorem State.setXr_result (w : Word) : (s.setXr w).result = s.result := rfl
@[simp] theorem State.setXr_params (w : Word) : (s.setXr w).params = s.params := rfl
@[simp] theorem State.setXr_pending (w : Word) : (s.setXr w).pending = s.pending := rfl
@[simp] theorem State.setXr_answers (w : Word) : (s.setXr w).answers = s.answers := rfl
@[simp] theorem State.setXr_numSignals (w : Word) : (s.setXr w).numSignals = s.numSignals := rfl
@[simp] theorem State.setXr_frameBytes (w : Word) : (s.setXr w).frameBytes = s.frameBytes := rfl
@[simp] theorem State.setXr_descAt (w : Word) (j : Nat) : (s.setXr w).descAt j = s.descAt j := rfl
@[simp] theorem State.setXr_rawAt (w : Word) (j : Nat) : (s.setXr w).rawAt j = s.rawAt j := rfl
@[simp] theorem State.setXr_physAt (w : Word) (j : Nat) : (s.setXr w).physAt j = s.physAt j := rfl

/-! ### setXp -/

@[simp] theorem State.setXp_xr (w : Word) : (s.setXp w).xr = s.xr := rfl
@[simp] theorem State.setXp_xp (w : Word) : (s.setXp w).xp = w := rfl
@[simp] theorem State.setXp_raw (w : Word) : (s.setXp w).raw = s.raw := rfl
@[simp] theorem State.setXp_phys (w : Word) : (s.setXp w).phys = s.phys := rfl
@[simp] theorem State.setXp_fb (w : Word) : (s.setXp w).fb = s.fb := rfl
@[simp] theorem State.setXp_desc (w : Word) : (s.setXp w).desc = s.desc := rfl
@[simp] theorem State.setXp_msg (w : Word) : (s.setXp w).msg = s.msg := rfl
@[simp] theorem State.setXp_ctrl (w : Word) : (s.setXp w).ctrl = s.ctrl := rfl
@[simp] theorem State.setXp_status (w : Word) : (s.setXp w).status = s.status := rfl
@[simp] theorem State.setXp_result (w : Word) : (s.setXp w).result = s.result := rfl
@[simp] theorem State.setXp_params (w : Word) : (s.setXp w).params = s.params := rfl
@[simp] theorem State.setXp_pending (w : Word) : (s.setXp w).pending = s.pending := rfl
@[simp] theorem State.setXp_answers (w : Word) : (s.setXp w).answers = s.answers := rfl
@[simp] theorem State.setXp_numSignals (w : Word) : (s.setXp w).numSignals = s.numSignals := rfl
@[simp] theorem State.setXp_frameBytes (w : Word) : (s.setXp w).frameBytes = s.frameBytes := rfl
@[simp] theorem State.setXp_descAt (w : Word) (j : Nat) : (s.setXp w).descAt j = s.descAt j := rfl
@[simp] theorem State.setXp_rawAt (w : Word) (j : Nat) : (s.setXp w).rawAt j = s.rawAt j := rfl
@[simp] theorem State.setXp_physAt (w : Word) (j : Nat) : (s.setXp w).physAt j = s.physAt j := rfl

/-! ### setResult -/

@[simp] theorem State.setResult_xr (w : Word) : (s.setResult w).xr = s.xr := rfl
@[simp] theorem State.setResult_xp (w : Word) : (s.setResult w).xp = s.xp := rfl
@[simp] theorem State.setResult_raw (w : Word) : (s.setResult w).raw = s.raw := rfl
@[simp] theorem State.setResult_phys (w : Word) : (s.setResult w).phys = s.phys := rfl
@[simp] theorem State.setResult_fb (w : Word) : (s.setResult w).fb = s.fb := rfl
@[simp] theorem State.setResult_desc (w : Word) : (s.setResult w).desc = s.desc := rfl
@[simp] theorem State.setResult_msg (w : Word) : (s.setResult w).msg = s.msg := rfl
@[simp] theorem State.setResult_ctrl (w : Word) : (s.setResult w).ctrl = s.ctrl := rfl
@[simp] theorem State.setResult_status (w : Word) : (s.setResult w).status = s.status := rfl
@[simp] theorem State.setResult_result (w : Word) : (s.setResult w).result = w := rfl
@[simp] theorem State.setResult_params (w : Word) : (s.setResult w).params = s.params := rfl
@[simp] theorem State.setResult_pending (w : Word) : (s.setResult w).pending = s.pending := rfl
@[simp] theorem State.setResult_answers (w : Word) : (s.setResult w).answers = s.answers := rfl
@[simp] theorem State.setResult_numSignals (w : Word) : (s.setResult w).numSignals = s.numSignals := rfl
@[simp] theorem State.setResult_frameBytes (w : Word) : (s.setResult w).frameBytes = s.frameBytes := rfl
@[simp] theorem State.setResult_descAt (w : Word) (j : Nat) : (s.setResult w).descAt j = s.descAt j := rfl
@[simp] theorem State.setResult_rawAt (w : Word) (j : Nat) : (s.setResult w).rawAt j = s.rawAt j := rfl
@[simp] theorem State.setResult_physAt (w : Word) (j : Nat) : (s.setResult w).physAt j = s.physAt j := rfl

/-! ### setRaw -/

@[simp] theorem State.setRaw_xr (i : Nat) (w : Word) : (s.setRaw i w).xr = s.xr := rfl
@[simp] theorem State.setRaw_xp (i : Nat) (w : Word) : (s.setRaw i w).xp = s.xp := rfl
@[simp] theorem State.setRaw_raw (i : Nat) (w : Word) : (s.setRaw i w).raw = s.raw.set i w := rfl
@[simp] theorem State.setRaw_phys (i : Nat) (w : Word) : (s.setRaw i w).phys = s.phys := rfl
@[simp] theorem State.setRaw_fb (i : Nat) (w : Word) : (s.setRaw i w).fb = s.fb := rfl
@[simp] theorem State.setRaw_desc (i : Nat) (w : Word) : (s.setRaw i w).desc = s.desc := rfl
@[simp] theorem State.setRaw_msg (i : Nat) (w : Word) : (s.setRaw i w).msg = s.msg := rfl
@[simp] theorem State.setRaw_ctrl (i : Nat) (w : Word) : (s.setRaw i w).ctrl = s.ctrl := rfl
@[simp] theorem State.setRaw_status (i : Nat) (w : Word) : (s.setRaw i w).status = s.status := rfl
@[simp] theorem State.setRaw_result (i : Nat) (w : Word) : (s.setRaw i w).result = s.result := rfl
@[simp] theorem State.setRaw_params (i : Nat) (w : Word) : (s.setRaw i w).params = s.params := rfl
@[simp] theorem State.setRaw_pending (i : Nat) (w : Word) : (s.setRaw i w).pending = s.pending := rfl
@[simp] theorem State.setRaw_answers (i : Nat) (w : Word) : (s.setRaw i w).answers = s.answers := rfl
@[simp] theorem State.setRaw_numSignals (i : Nat) (w : Word) : (s.setRaw i w).numSignals = s.numSignals := rfl
@[simp] theorem State.setRaw_frameBytes (i : Nat) (w : Word) : (s.setRaw i w).frameBytes = s.frameBytes := rfl
@[simp] theorem State.setRaw_descAt (i : Nat) (w : Word) (j : Nat) : (s.setRaw i w).descAt j = s.descAt j := rfl
@[simp] theorem State.setRaw_physAt (i : Nat) (w : Word) (j : Nat) : (s.setRaw i w).physAt j = s.physAt j := rfl

/-! ### setPhys -/

@[simp] theorem State.setPhys_xr (i : Nat) (w : Word) : (s.setPhys i w).xr = s.xr := rfl
@[simp] theorem State.setPhys_xp (i : Nat) (w : Word) : (s.setPhys i w).xp = s.xp := rfl
@[simp] theorem State.setPhys_raw (i : Nat) (w : Word) : (s.setPhys i w).raw = s.raw := rfl
@[simp] theorem State.setPhys_phys (i : Nat) (w : Word) : (s.setPhys i w).phys = s.phys.set i w := rfl
@[simp] theorem State.setPhys_fb (i : Nat) (w : Word) : (s.setPhys i w).fb = s.fb := rfl
@[simp] theorem State.setPhys_desc (i : Nat) (w : Word) : (s.setPhys i w).desc = s.desc := rfl
@[simp] theorem State.setPhys_msg (i : Nat) (w : Word) : (s.setPhys i w).msg = s.msg := rfl
@[simp] theorem State.setPhys_ctrl (i : Nat) (w : Word) : (s.setPhys i w).ctrl = s.ctrl := rfl
@[simp] theorem State.setPhys_status (i : Nat) (w : Word) : (s.setPhys i w).status = s.status := rfl
@[simp] theorem State.setPhys_result (i : Nat) (w : Word) : (s.setPhys i w).result = s.result := rfl
@[simp] theorem State.setPhys_params (i : Nat) (w : Word) : (s.setPhys i w).params = s.params := rfl
@[simp] theorem State.setPhys_pending (i : Nat) (w : Word) : (s.setPhys i w).pending = s.pending := rfl
@[simp] theorem State.setPhys_answers (i : Nat) (w : Word) : (s.setPhys i w).answers = s.answers := rfl
@[simp] theorem State.setPhys_numSignals (i : Nat) (w : Word) : (s.setPhys i w).numSignals = s.numSignals := rfl
@[simp] theorem State.setPhys_frameBytes (i : Nat) (w : Word) : (s.setPhys i w).frameBytes = s.frameBytes := rfl
@[simp] theorem State.setPhys_descAt (i : Nat) (w : Word) (j : Nat) : (s.setPhys i w).descAt j = s.descAt j := rfl
@[simp] theorem State.setPhys_rawAt (i : Nat) (w : Word) (j : Nat) : (s.setPhys i w).rawAt j = s.rawAt j := rfl

/-! ### setDesc -/

@[simp] theorem State.setDesc_xr (i : Nat) (d : Descriptor) : (s.setDesc i d).xr = s.xr := rfl
@[simp] theorem State.setDesc_xp (i : Nat) (d : Descriptor) : (s.setDesc i d).xp = s.xp := rfl
@[simp] theorem State.setDesc_raw (i : Nat) (d : Descriptor) : (s.setDesc i d).raw = s.raw := rfl
@[simp] theorem State.setDesc_phys (i : Nat) (d : Descriptor) : (s.setDesc i d).phys = s.phys := rfl
@[simp] theorem State.setDesc_fb (i : Nat) (d : Descriptor) : (s.setDesc i d).fb = s.fb := rfl
@[simp] theorem State.setDesc_desc (i : Nat) (d : Descriptor) : (s.setDesc i d).desc = s.desc.set i d := rfl
@[simp] theorem State.setDesc_msg (i : Nat) (d : Descriptor) : (s.setDesc i d).msg = s.msg := rfl
@[simp] theorem State.setDesc_ctrl (i : Nat) (d : Descriptor) : (s.setDesc i d).ctrl = s.ctrl := rfl
@[simp] theorem State.setDesc_status (i : Nat) (d : Descriptor) : (s.setDesc i d).status = s.status := rfl
@[simp] theorem State.setDesc_result (i : Nat) (d : Descriptor) : (s.setDesc i d).result = s.result := rfl
@[simp] theorem State.setDesc_params (i : Nat) (d : Descriptor) : (s.setDesc i d).params = s.params := rfl
@[simp] theorem State.setDesc_pending (i : Nat) (d : Descriptor) : (s.setDesc i d).pending = s.pending := rfl
@[simp] theorem State.setDesc_answers (i : Nat) (d : Descriptor) : (s.setDesc i d).answers = s.answers := rfl
@[simp] theorem State.setDesc_numSignals (i : Nat) (d : Descriptor) : (s.setDesc i d).numSignals = s.numSignals := rfl
@[simp] theorem State.setDesc_frameBytes (i : Nat) (d : Descriptor) : (s.setDesc i d).frameBytes = s.frameBytes := rfl
@[simp] theorem State.setDesc_rawAt (i : Nat) (d : Descriptor) (j : Nat) : (s.setDesc i d).rawAt j = s.rawAt j := rfl
@[simp] theorem State.setDesc_physAt (i : Nat) (d : Descriptor) (j : Nat) : (s.setDesc i d).physAt j = s.physAt j := rfl

/-! ### setFb -/

@[simp] theorem State.setFb_xr (m : Memory) : (s.setFb m).xr = s.xr := rfl
@[simp] theorem State.setFb_xp (m : Memory) : (s.setFb m).xp = s.xp := rfl
@[simp] theorem State.setFb_raw (m : Memory) : (s.setFb m).raw = s.raw := rfl
@[simp] theorem State.setFb_phys (m : Memory) : (s.setFb m).phys = s.phys := rfl
@[simp] theorem State.setFb_fb (m : Memory) : (s.setFb m).fb = m := rfl
@[simp] theorem State.setFb_desc (m : Memory) : (s.setFb m).desc = s.desc := rfl
@[simp] theorem State.setFb_msg (m : Memory) : (s.setFb m).msg = s.msg := rfl
@[simp] theorem State.setFb_ctrl (m : Memory) : (s.setFb m).ctrl = s.ctrl := rfl
@[simp] theorem State.setFb_status (m : Memory) : (s.setFb m).status = s.status := rfl
@[simp] theorem State.setFb_result (m : Memory) : (s.setFb m).result = s.result := rfl
@[simp] theorem State.setFb_params (m : Memory) : (s.setFb m).params = s.params := rfl
@[simp] theorem State.setFb_pending (m : Memory) : (s.setFb m).pending = s.pending := rfl
@[simp] theorem State.setFb_answers (m : Memory) : (s.setFb m).answers = s.answers := rfl
@[simp] theorem State.setFb_numSignals (m : Memory) : (s.setFb m).numSignals = s.numSignals := rfl
@[simp] theorem State.setFb_frameBytes (m : Memory) : (s.setFb m).frameBytes = s.frameBytes := rfl
@[simp] theorem State.setFb_descAt (m : Memory) (j : Nat) : (s.setFb m).descAt j = s.descAt j := rfl
@[simp] theorem State.setFb_rawAt (m : Memory) (j : Nat) : (s.setFb m).rawAt j = s.rawAt j := rfl
@[simp] theorem State.setFb_physAt (m : Memory) (j : Nat) : (s.setFb m).physAt j = s.physAt j := rfl

/-! ### setValv -/

@[simp] theorem State.setValv_xr : (s.setValv).xr = s.xr := rfl
@[simp] theorem State.setValv_xp : (s.setValv).xp = s.xp := rfl
@[simp] theorem State.setValv_raw : (s.setValv).raw = s.raw := rfl
@[simp] theorem State.setValv_phys : (s.setValv).phys = s.phys := rfl
@[simp] theorem State.setValv_fb : (s.setValv).fb = s.fb := rfl
@[simp] theorem State.setValv_desc : (s.setValv).desc = s.desc := rfl
@[simp] theorem State.setValv_msg : (s.setValv).msg = s.msg := rfl
@[simp] theorem State.setValv_ctrl : (s.setValv).ctrl = { s.ctrl with valv := true } := rfl
@[simp] theorem State.setValv_status : (s.setValv).status = s.status := rfl
@[simp] theorem State.setValv_result : (s.setValv).result = s.result := rfl
@[simp] theorem State.setValv_params : (s.setValv).params = s.params := rfl
@[simp] theorem State.setValv_pending : (s.setValv).pending = s.pending := rfl
@[simp] theorem State.setValv_answers : (s.setValv).answers = s.answers := rfl
@[simp] theorem State.setValv_numSignals : (s.setValv).numSignals = s.numSignals := rfl
@[simp] theorem State.setValv_frameBytes : (s.setValv).frameBytes = s.frameBytes := rfl
@[simp] theorem State.setValv_descAt (j : Nat) : (s.setValv).descAt j = s.descAt j := rfl
@[simp] theorem State.setValv_rawAt (j : Nat) : (s.setValv).rawAt j = s.rawAt j := rfl
@[simp] theorem State.setValv_physAt (j : Nat) : (s.setValv).physAt j = s.physAt j := rfl

/-! ### raiseLayoutFault -/

@[simp] theorem State.raiseLayoutFault_xr (f : LayoutFault) : (s.raiseLayoutFault f).xr = s.xr := rfl
@[simp] theorem State.raiseLayoutFault_xp (f : LayoutFault) : (s.raiseLayoutFault f).xp = s.xp := rfl
@[simp] theorem State.raiseLayoutFault_raw (f : LayoutFault) : (s.raiseLayoutFault f).raw = s.raw := rfl
@[simp] theorem State.raiseLayoutFault_phys (f : LayoutFault) : (s.raiseLayoutFault f).phys = s.phys := rfl
@[simp] theorem State.raiseLayoutFault_fb (f : LayoutFault) : (s.raiseLayoutFault f).fb = s.fb := rfl
@[simp] theorem State.raiseLayoutFault_desc (f : LayoutFault) : (s.raiseLayoutFault f).desc = s.desc := rfl
@[simp] theorem State.raiseLayoutFault_msg (f : LayoutFault) : (s.raiseLayoutFault f).msg = s.msg := rfl
@[simp] theorem State.raiseLayoutFault_ctrl (f : LayoutFault) : (s.raiseLayoutFault f).ctrl = s.ctrl := rfl
@[simp] theorem State.raiseLayoutFault_status (f : LayoutFault) :
    (s.raiseLayoutFault f).status = { s.status with fatal := true, fcause := f.cause.code, fsig := BitVec.ofNat 8 f.sig } := rfl
@[simp] theorem State.raiseLayoutFault_result (f : LayoutFault) : (s.raiseLayoutFault f).result = s.result := rfl
@[simp] theorem State.raiseLayoutFault_params (f : LayoutFault) : (s.raiseLayoutFault f).params = s.params := rfl
@[simp] theorem State.raiseLayoutFault_pending (f : LayoutFault) : (s.raiseLayoutFault f).pending = s.pending := rfl
@[simp] theorem State.raiseLayoutFault_answers (f : LayoutFault) : (s.raiseLayoutFault f).answers = s.answers := rfl
@[simp] theorem State.raiseLayoutFault_numSignals (f : LayoutFault) : (s.raiseLayoutFault f).numSignals = s.numSignals := rfl
@[simp] theorem State.raiseLayoutFault_frameBytes (f : LayoutFault) : (s.raiseLayoutFault f).frameBytes = s.frameBytes := rfl
@[simp] theorem State.raiseLayoutFault_descAt (f : LayoutFault) (j : Nat) : (s.raiseLayoutFault f).descAt j = s.descAt j := rfl
@[simp] theorem State.raiseLayoutFault_rawAt (f : LayoutFault) (j : Nat) : (s.raiseLayoutFault f).rawAt j = s.rawAt j := rfl
@[simp] theorem State.raiseLayoutFault_physAt (f : LayoutFault) (j : Nat) : (s.raiseLayoutFault f).physAt j = s.physAt j := rfl

/-! ### resetControl -/

@[simp] theorem State.resetControl_xr : (s.resetControl).xr = 0 := rfl
@[simp] theorem State.resetControl_xp : (s.resetControl).xp = 0 := rfl
@[simp] theorem State.resetControl_raw : (s.resetControl).raw = s.raw := rfl
@[simp] theorem State.resetControl_phys : (s.resetControl).phys = s.phys := rfl
@[simp] theorem State.resetControl_fb : (s.resetControl).fb = s.fb := rfl
@[simp] theorem State.resetControl_desc : (s.resetControl).desc = s.desc := rfl
@[simp] theorem State.resetControl_msg : (s.resetControl).msg = MsgReg.zero := rfl
@[simp] theorem State.resetControl_ctrl : (s.resetControl).ctrl = CtrlReg.zero := rfl
@[simp] theorem State.resetControl_status : (s.resetControl).status = StatusReg.zero := rfl
@[simp] theorem State.resetControl_result : (s.resetControl).result = 0 := rfl
@[simp] theorem State.resetControl_params : (s.resetControl).params = s.params := rfl
@[simp] theorem State.resetControl_pending : (s.resetControl).pending = s.pending := rfl
@[simp] theorem State.resetControl_answers : (s.resetControl).answers = s.answers := rfl
@[simp] theorem State.resetControl_descAt (j : Nat) : (s.resetControl).descAt j = s.descAt j := rfl
@[simp] theorem State.resetControl_rawAt (j : Nat) : (s.resetControl).rawAt j = s.rawAt j := rfl
@[simp] theorem State.resetControl_physAt (j : Nat) : (s.resetControl).physAt j = s.physAt j := rfl

/-! ### softReset -/

@[simp] theorem State.softReset_xr : (s.softReset).xr = 0 := rfl
@[simp] theorem State.softReset_xp : (s.softReset).xp = 0 := rfl
@[simp] theorem State.softReset_raw : (s.softReset).raw = s.raw := rfl
@[simp] theorem State.softReset_phys : (s.softReset).phys = s.phys := rfl
@[simp] theorem State.softReset_fb : (s.softReset).fb = s.fb := rfl
@[simp] theorem State.softReset_desc : (s.softReset).desc = s.desc := rfl
@[simp] theorem State.softReset_msg : (s.softReset).msg = MsgReg.zero := rfl
@[simp] theorem State.softReset_ctrl : (s.softReset).ctrl = CtrlReg.zero := rfl
@[simp] theorem State.softReset_status : (s.softReset).status = StatusReg.zero := rfl
@[simp] theorem State.softReset_result : (s.softReset).result = 0 := rfl
@[simp] theorem State.softReset_params : (s.softReset).params = s.params := rfl
@[simp] theorem State.softReset_pending : (s.softReset).pending = s.pending := rfl
@[simp] theorem State.softReset_answers : (s.softReset).answers = s.answers := rfl
@[simp] theorem State.softReset_descAt (j : Nat) : (s.softReset).descAt j = s.descAt j := rfl
@[simp] theorem State.softReset_rawAt (j : Nat) : (s.softReset).rawAt j = s.rawAt j := rfl
@[simp] theorem State.softReset_physAt (j : Nat) : (s.softReset).physAt j = s.physAt j := rfl

/-! ### answer -/

@[simp] theorem State.answer_xr (a : PortAnswer) : (s.answer a).xr = s.xr := rfl
@[simp] theorem State.answer_xp (a : PortAnswer) : (s.answer a).xp = s.xp := rfl
@[simp] theorem State.answer_raw (a : PortAnswer) : (s.answer a).raw = s.raw := rfl
@[simp] theorem State.answer_phys (a : PortAnswer) : (s.answer a).phys = s.phys := rfl
@[simp] theorem State.answer_fb (a : PortAnswer) : (s.answer a).fb = s.fb := rfl
@[simp] theorem State.answer_desc (a : PortAnswer) : (s.answer a).desc = s.desc := rfl
@[simp] theorem State.answer_msg (a : PortAnswer) : (s.answer a).msg = s.msg := rfl
@[simp] theorem State.answer_ctrl (a : PortAnswer) : (s.answer a).ctrl = s.ctrl := rfl
@[simp] theorem State.answer_status (a : PortAnswer) : (s.answer a).status = s.status := rfl
@[simp] theorem State.answer_result (a : PortAnswer) : (s.answer a).result = s.result := rfl
@[simp] theorem State.answer_params (a : PortAnswer) : (s.answer a).params = s.params := rfl
@[simp] theorem State.answer_pending (a : PortAnswer) : (s.answer a).pending = s.pending := rfl
@[simp] theorem State.answer_answers (a : PortAnswer) : (s.answer a).answers = a :: s.answers := rfl
@[simp] theorem State.answer_numSignals (a : PortAnswer) : (s.answer a).numSignals = s.numSignals := rfl
@[simp] theorem State.answer_frameBytes (a : PortAnswer) : (s.answer a).frameBytes = s.frameBytes := rfl
@[simp] theorem State.answer_descAt (a : PortAnswer) (j : Nat) : (s.answer a).descAt j = s.descAt j := rfl
@[simp] theorem State.answer_rawAt (a : PortAnswer) (j : Nat) : (s.answer a).rawAt j = s.rawAt j := rfl
@[simp] theorem State.answer_physAt (a : PortAnswer) (j : Nat) : (s.answer a).physAt j = s.physAt j := rfl

/-! ### withCommand -/

@[simp] theorem State.withCommand_xr (w : Word) : (s.withCommand w).xr = s.xr := rfl
@[simp] theorem State.withCommand_xp (w : Word) : (s.withCommand w).xp = s.xp := rfl
@[simp] theorem State.withCommand_raw (w : Word) : (s.withCommand w).raw = s.raw := rfl
@[simp] theorem State.withCommand_phys (w : Word) : (s.withCommand w).phys = s.phys := rfl
@[simp] theorem State.withCommand_fb (w : Word) : (s.withCommand w).fb = s.fb := rfl
@[simp] theorem State.withCommand_desc (w : Word) : (s.withCommand w).desc = s.desc := rfl
@[simp] theorem State.withCommand_msg (w : Word) : (s.withCommand w).msg = s.msg := rfl
@[simp] theorem State.withCommand_ctrl (w : Word) : (s.withCommand w).ctrl = s.ctrl := rfl
@[simp] theorem State.withCommand_status (w : Word) : (s.withCommand w).status = s.status := rfl
@[simp] theorem State.withCommand_result (w : Word) : (s.withCommand w).result = s.result := rfl
@[simp] theorem State.withCommand_params (w : Word) : (s.withCommand w).params = s.params := rfl
@[simp] theorem State.withCommand_pending (w : Word) : (s.withCommand w).pending = .write 0 w :: s.pending := rfl
@[simp] theorem State.withCommand_answers (w : Word) : (s.withCommand w).answers = s.answers := rfl
@[simp] theorem State.withCommand_numSignals (w : Word) : (s.withCommand w).numSignals = s.numSignals := rfl
@[simp] theorem State.withCommand_frameBytes (w : Word) : (s.withCommand w).frameBytes = s.frameBytes := rfl
@[simp] theorem State.withCommand_descAt (w : Word) (j : Nat) : (s.withCommand w).descAt j = s.descAt j := rfl
@[simp] theorem State.withCommand_rawAt (w : Word) (j : Nat) : (s.withCommand w).rawAt j = s.rawAt j := rfl
@[simp] theorem State.withCommand_physAt (w : Word) (j : Nat) : (s.withCommand w).physAt j = s.physAt j := rfl

/-! ### reads of a written entry -/

/-- `RAW[j]` after `RAW[i] <- w`. -/
theorem State.setRaw_rawAt (i j : Nat) (w : Word) :
    (s.setRaw i w).rawAt j = if i = j ∧ j < s.raw.length then w else s.rawAt j := by
  simp only [State.rawAt, State.setRaw_raw, List.getD_eq_getElem?_getD, List.getElem?_set]
  by_cases h : i = j <;> by_cases hj : j < s.raw.length <;> simp [h, hj]

/-- `PHYS[j]` after `PHYS[i] <- w`. -/
theorem State.setPhys_physAt (i j : Nat) (w : Word) :
    (s.setPhys i w).physAt j = if i = j ∧ j < s.phys.length then w else s.physAt j := by
  simp only [State.physAt, State.setPhys_phys, List.getD_eq_getElem?_getD, List.getElem?_set]
  by_cases h : i = j <;> by_cases hj : j < s.phys.length <;> simp [h, hj]

/-- `DESC[j]` after a write to `DESC[i]`. -/
theorem State.setDesc_descAt (i j : Nat) (d : Descriptor) :
    (s.setDesc i d).descAt j = if i = j ∧ j < s.desc.length then d else s.descAt j := by
  simp only [State.descAt, State.setDesc_desc, List.getD_eq_getElem?_getD, List.getElem?_set]
  by_cases h : i = j <;> by_cases hj : j < s.desc.length <;> simp [h, hj]

end Sys2Proof.Machine
end

