-- ==== Sys2Proof/Laws/Checks.lean ====
section
/-! SUPPORT. The tests before a command's effect (60_exceptions.md rule R146): for each, everything it can answer,
and when it lets the command go on. -/

namespace Sys2Proof.Machine

variable {s onErr t : State} {k : Result} {i : Nat}

/-! ### the ends of a command -/

@[simp] theorem succeed_eq (s : State) : succeed s = .next (s.setErr .ok) := rfl

@[simp] theorem raiseErr_eq (e : ErrCode) (s : State) : raiseErr e s = .next (s.setErr e) := rfl

/-! ### what each test can answer -/

theorem whenLive_next (h : whenLive s k = .next t) :
    (s.status.fatal = true ∧ t = s) ∨ (Live s ∧ k = .next t) := by
  unfold whenLive at h
  split at h
  · rename_i hf; exact .inl ⟨hf, by injection h with h; exact h.symm⟩
  · rename_i hf; exact .inr ⟨by simpa using hf, h⟩

theorem requireSignal_next (h : requireSignal s i onErr k = .next t) :
    (¬ SignalOk s i ∧ t = onErr.setErr .argument) ∨ (SignalOk s i ∧ k = .next t) := by
  unfold requireSignal at h
  split at h
  · rename_i hf
    refine .inl ⟨Nat.not_lt.mpr hf, ?_⟩
    simpa [eq_comm] using h
  · rename_i hf; exact .inr ⟨Nat.lt_of_not_le hf, h⟩

theorem requireBuffer_next (h : requireBuffer s onErr k = .next t) :
    (s.ctrl.bufv = false ∧ t = onErr.setErr .argument) ∨ (s.ctrl.bufv = true ∧ k = .next t) := by
  unfold requireBuffer at h
  split at h
  · rename_i hb; exact .inr ⟨hb, h⟩
  · rename_i hb
    refine .inl ⟨by simpa using hb, ?_⟩
    simpa [eq_comm] using h

theorem requireBufferAndValues_next (h : requireBufferAndValues s onErr k = .next t) :
    ((s.ctrl.valv = false ∨ s.ctrl.bufv = false) ∧ t = onErr.setErr .argument) ∨
    (s.ctrl.valv = true ∧ s.ctrl.bufv = true ∧ k = .next t) := by
  unfold requireBufferAndValues at h
  split at h
  · rename_i hb
    rw [Bool.and_eq_true] at hb
    exact .inr ⟨hb.1, hb.2, h⟩
  · rename_i hb
    refine .inl ⟨?_, by simpa [eq_comm] using h⟩
    cases hv : s.ctrl.valv <;> cases hf : s.ctrl.bufv <;> simp_all

theorem requireCapacity_next (h : requireCapacity s onErr k = .next t) :
    (s.ctrl.bufcap.toNat < s.msg.lengthBytes.toNat ∧ t = onErr.setErr .capacity) ∨
    (s.msg.lengthBytes.toNat ≤ s.ctrl.bufcap.toNat ∧ k = .next t) := by
  unfold requireCapacity at h
  split at h
  · rename_i hf
    exact .inl ⟨hf, by simpa [eq_comm] using h⟩
  · rename_i hf; exact .inr ⟨Nat.le_of_not_lt hf, h⟩

theorem asserting_next {checks : List (Option LayoutFault)} (h : asserting s checks k = .next t) :
    (∃ f, firstFault checks = some f ∧ t = s.raiseLayoutFault f) ∨
    (firstFault checks = none ∧ k = .next t) := by
  unfold asserting at h
  split at h
  · rename_i f hf; exact .inl ⟨f, hf, by injection h with h; exact h.symm⟩
  · rename_i hf; exact .inr ⟨hf, h⟩

theorem guardBytes_next {bytes : List Nat} (h : guardBytes s bytes k = .next t) :
    (∀ b ∈ bytes, b < s.params.maxb) ∧ k = .next t := by
  unfold guardBytes at h
  split at h
  · cases h
  · rename_i hf
    refine ⟨fun b hb => ?_, h⟩
    have := List.find?_eq_none.mp hf b hb
    simpa using this

/-! ### when each test lets the command go on -/

theorem whenLive_live (h : Live s) : whenLive s k = k := by simp [whenLive, h]

theorem whenLive_fatal (h : s.status.fatal = true) : whenLive s k = .next s := by simp [whenLive, h]

theorem requireSignal_ok (h : SignalOk s i) : requireSignal s i onErr k = k :=
  if_neg (Nat.not_le.mpr h)

theorem requireSignal_err (h : ¬ SignalOk s i) : requireSignal s i onErr k = .next (onErr.setErr .argument) :=
  if_pos (Nat.le_of_not_lt h)

theorem requireBuffer_ok (h : s.ctrl.bufv = true) : requireBuffer s onErr k = k := if_pos h

theorem requireBuffer_err (h : s.ctrl.bufv = false) :
    requireBuffer s onErr k = .next (onErr.setErr .argument) := by simp [requireBuffer, h]

theorem requireBufferAndValues_ok (hv : s.ctrl.valv = true) (hb : s.ctrl.bufv = true) :
    requireBufferAndValues s onErr k = k := by simp [requireBufferAndValues, hv, hb]

theorem requireBufferAndValues_err (h : s.ctrl.valv = false ∨ s.ctrl.bufv = false) :
    requireBufferAndValues s onErr k = .next (onErr.setErr .argument) := by
  rcases h with h | h <;> simp [requireBufferAndValues, h]

theorem requireCapacity_ok (h : s.msg.lengthBytes.toNat ≤ s.ctrl.bufcap.toNat) :
    requireCapacity s onErr k = k :=
  if_neg (Nat.not_lt.mpr h)

theorem requireCapacity_err (h : s.ctrl.bufcap.toNat < s.msg.lengthBytes.toNat) :
    requireCapacity s onErr k = .next (onErr.setErr .capacity) :=
  if_pos h

theorem asserting_none {checks : List (Option LayoutFault)} (h : firstFault checks = none) :
    asserting s checks k = k := by simp [asserting, h]

theorem asserting_some {checks : List (Option LayoutFault)} {f : LayoutFault}
    (h : firstFault checks = some f) : asserting s checks k = .next (s.raiseLayoutFault f) := by
  simp [asserting, h]

theorem guardBytes_ok {bytes : List Nat} (h : ∀ b ∈ bytes, b < s.params.maxb) :
    guardBytes s bytes k = k := by
  unfold guardBytes
  have : bytes.find? (fun b => s.params.maxb ≤ b) = none :=
    List.find?_eq_none.mpr fun b hb => by simpa using h b hb
  rw [this]

/-! ### the assertions (R144) -/

theorem assertMsg_none : assertMsg s = none ↔ CountOk s := by
  unfold assertMsg CountOk State.numSignals
  split <;> simp <;> omega

theorem assertFrame_none : assertFrame s = none ↔ FrameOk s := by
  unfold assertFrame FrameOk State.frameBytes
  split <;> simp <;> omega

theorem assertField_none : assertField s i = none ↔ FieldOk (s.descAt i) := by
  unfold assertField FieldOk Descriptor.len
  split <;> simp <;> omega

theorem assertPlace_none : assertPlace s i = none ↔ PlaceOk s.msg.lengthBytes.toNat (s.descAt i) := by
  unfold assertPlace PlaceOk fieldEnd State.frameBytes Descriptor.endBit bigStart Descriptor.start Descriptor.len
  cases (s.descAt i).byteOrder <;> simp only <;> split <;> simp <;> omega

theorem assertXform_none : assertXform s i = none ↔ XformOk (s.descAt i) := by
  unfold assertXform XformOk
  split <;> simp_all

/-- The first failing assertion is one of the list. -/
theorem firstFault_mem {checks : List (Option LayoutFault)} {f : LayoutFault}
    (h : firstFault checks = some f) : some f ∈ checks := by
  induction checks with
  | nil => cases h
  | cons c cs ih =>
    cases c with
    | some g => simp only [firstFault, Option.some.injEq] at h; exact h ▸ List.mem_cons_self
    | none => exact List.mem_cons_of_mem _ (ih h)

/-- No assertion fails iff every one holds. -/
theorem firstFault_none {checks : List (Option LayoutFault)} :
    firstFault checks = none ↔ ∀ c ∈ checks, c = none := by
  induction checks with
  | nil => simp [firstFault]
  | cons c cs ih =>
    cases c with
    | some g => simp [firstFault]
    | none => simp [firstFault, ih]

theorem firstFault_append (l l' : List (Option LayoutFault)) :
    firstFault (l ++ l') = (firstFault l).or (firstFault l') := by
  induction l with
  | nil => simp [firstFault]
  | cons c cs ih => cases c <;> simp [firstFault, ih]

/-- The per-signal pass holds iff each signal's assertions hold. -/
theorem firstFault_assertEach {checks : Nat → List (Option LayoutFault)} :
    firstFault (assertEach s checks) = none ↔ ∀ i, SignalOk s i → firstFault (checks i) = none := by
  simp only [firstFault_none, assertEach, List.mem_flatMap, List.mem_range, State.numSignals]
  exact ⟨fun h i hi c hc => h c ⟨i, hi, hc⟩, fun h c ⟨i, hi, hc⟩ => h i hi c hc⟩

theorem initChecks_none :
    firstFault (assertMsg s :: assertEach s fun i => [assertField s i]) = none ↔ InitLayoutOk s := by
  rw [firstFault_none, List.forall_mem_cons, ← firstFault_none, firstFault_assertEach, assertMsg_none]
  simp [firstFault_none, assertField_none, InitLayoutOk]

theorem initPChecks_none :
    firstFault (assertMsg s :: assertEach s fun i => [assertField s i, assertXform s i]) = none ↔
      InitLayoutOk s ∧ AllXformOk s := by
  rw [firstFault_none, List.forall_mem_cons, ← firstFault_none, firstFault_assertEach, assertMsg_none]
  simp only [firstFault_none, List.forall_mem_cons, List.not_mem_nil, false_implies, implies_true, and_true,
    assertField_none, assertXform_none, InitLayoutOk, AllXformOk]
  exact ⟨fun h => ⟨⟨h.1, fun i hi => (h.2 i hi).1⟩, fun i hi => (h.2 i hi).2⟩,
    fun h => ⟨h.1.1, fun i hi => ⟨h.1.2 i hi, h.2 i hi⟩⟩⟩

theorem frameChecks_none :
    firstFault (assertMsg s :: assertFrame s :: assertEach s fun i => [assertField s i, assertPlace s i]) = none ↔
      FrameLayoutOk s := by
  rw [firstFault_none, List.forall_mem_cons, List.forall_mem_cons, ← firstFault_none, firstFault_assertEach,
    assertMsg_none, assertFrame_none]
  simp only [firstFault_none, List.forall_mem_cons, List.not_mem_nil, false_implies, implies_true, and_true,
    assertField_none, assertPlace_none, FrameLayoutOk]

theorem framePChecks_none :
    firstFault (assertMsg s :: assertFrame s ::
      assertEach s fun i => [assertField s i, assertPlace s i, assertXform s i]) = none ↔
      FrameLayoutOk s ∧ AllXformOk s := by
  rw [firstFault_none, List.forall_mem_cons, List.forall_mem_cons, ← firstFault_none, firstFault_assertEach,
    assertMsg_none, assertFrame_none]
  simp only [firstFault_none, List.forall_mem_cons, List.not_mem_nil, false_implies, implies_true, and_true,
    assertField_none, assertPlace_none, assertXform_none, FrameLayoutOk, AllXformOk]
  exact ⟨fun h => ⟨⟨h.1, h.2.1, fun i hi => ⟨(h.2.2 i hi).1, (h.2.2 i hi).2.1⟩⟩, fun i hi => (h.2.2 i hi).2.2⟩,
    fun h => ⟨h.1.1, h.1.2.1, fun i hi => ⟨(h.1.2.2 i hi).1, (h.1.2.2 i hi).2, h.2 i hi⟩⟩⟩

/-! ### the bytes addressed exist (R83) -/

/-- A placed field addresses bytes of the frame only. -/
theorem touchedBytes_lt {d : Descriptor} {n : Nat} (hp : PlaceOk n d) : ∀ b ∈ touchedBytes d, b < n := by
  intro b hb
  obtain ⟨w, hw, rfl⟩ := (mem_touchedBytes d b).mp hb
  exact bitPlace_byte_lt d hp hw

theorem guardBytes_field (hf : FrameOk s) (hp : PlaceOk s.msg.lengthBytes.toNat (s.descAt i)) :
    guardBytes s (touchedBytes (s.descAt i)) k = k :=
  guardBytes_ok fun b hb => Nat.lt_of_lt_of_le (touchedBytes_lt hp b hb) hf

theorem layoutBytes_lt (h : FrameLayoutOk s) : ∀ b ∈ s.layoutBytes, b < s.params.maxb := by
  intro b hb
  obtain ⟨i, hi, hb⟩ := List.mem_flatMap.mp hb
  exact Nat.lt_of_lt_of_le (touchedBytes_lt (h.2.2 i (List.mem_range.mp hi)).2 b hb) h.2.1

theorem guardBytes_layout (h : FrameLayoutOk s) : guardBytes s s.layoutBytes k = k :=
  guardBytes_ok (layoutBytes_lt h)

theorem guardBytes_frame (h : FrameLayoutOk s) :
    guardBytes s (List.range s.frameBytes ++ s.layoutBytes) k = k :=
  guardBytes_ok fun b hb => by
    rcases List.mem_append.mp hb with hb | hb
    · exact Nat.lt_of_lt_of_le (List.mem_range.mp hb) h.2.1
    · exact layoutBytes_lt h b hb

end Sys2Proof.Machine
end

