-- ==== Sys2Proof/Laws/Loop.lean ====
section
/-! SUPPORT. The signal loop of the frame commands (44_frame_codec.md rules R110, R126): one induction for all of
them, and for each loop the state it leaves. -/

namespace Sys2Proof.Machine

/-- What holds before signal 0 and is carried from each signal to the next holds after the loop. -/
theorem forSignals_induct {s : State} {body : Nat → State → State} (P : Nat → State → Prop) (h0 : P 0 s)
    (hs : ∀ i t, i < s.msg.numSignals.toNat → P i t → P (i + 1) (body i t)) :
    P s.msg.numSignals.toNat (forSignals s body) := by
  unfold forSignals State.numSignals
  have key : ∀ n, n ≤ s.msg.numSignals.toNat → P n ((List.range n).foldl (fun t i => body i t) s) := by
    intro n
    induction n with
    | zero => intro _; exact h0
    | succ n ih =>
      intro hn
      rw [List.range_succ, List.foldl_append, List.foldl_cons, List.foldl_nil]
      exact hs n _ (by omega) (ih (by omega))
  exact key _ (Nat.le_refl _)

/-- INIT's loop (R111): RAW[i] is DEFAULT_RAW below N, and nothing else changes. -/
theorem forSignals_init (s : State) (hN : s.msg.numSignals.toNat ≤ s.raw.length) :
    ∃ raw', forSignals s initSignal = { s with raw := raw' } ∧ raw'.length = s.raw.length ∧
      ∀ j, raw'.getD j 0 = if j < s.msg.numSignals.toNat then (s.descAt j).defaultRaw else s.rawAt j := by
  apply forSignals_induct (P := fun n t => ∃ raw', t = { s with raw := raw' } ∧ raw'.length = s.raw.length ∧
    ∀ j, raw'.getD j 0 = if j < n then (s.descAt j).defaultRaw else s.rawAt j)
  · exact ⟨s.raw, rfl, rfl, fun j => by simp [State.rawAt]⟩
  · rintro n t hn ⟨raw', rfl, hl, hr⟩
    refine ⟨raw'.set n (s.descAt n).defaultRaw, rfl, by simp [hl], fun j => ?_⟩
    rw [List.getD_eq_getElem?_getD, List.getElem?_set]
    by_cases hj : n = j
    · subst hj; simp [hl, show n < s.raw.length by omega]
    · have := hr j
      rw [List.getD_eq_getElem?_getD] at this
      rw [if_neg hj, this]
      by_cases hjn : j < n
      · rw [if_pos hjn, if_pos (by omega)]
      · rw [if_neg hjn, if_neg (by omega)]

/-- UNPACK's loop (R117): RAW[i] is the field's value below N, and nothing else changes. -/
theorem forSignals_unpack (s : State) (hN : s.msg.numSignals.toNat ≤ s.raw.length) :
    ∃ raw', forSignals s unpackSignal = { s with raw := raw' } ∧ raw'.length = s.raw.length ∧
      ∀ j, raw'.getD j 0 = if j < s.msg.numSignals.toNat then fldValue (s.descAt j) s.fb else s.rawAt j := by
  apply forSignals_induct (P := fun n t => ∃ raw', t = { s with raw := raw' } ∧ raw'.length = s.raw.length ∧
    ∀ j, raw'.getD j 0 = if j < n then fldValue (s.descAt j) s.fb else s.rawAt j)
  · exact ⟨s.raw, rfl, rfl, fun j => by simp [State.rawAt]⟩
  · rintro n t hn ⟨raw', rfl, hl, hr⟩
    refine ⟨raw'.set n (fldValue (s.descAt n) s.fb), rfl, by simp [hl], fun j => ?_⟩
    rw [List.getD_eq_getElem?_getD, List.getElem?_set]
    by_cases hj : n = j
    · subst hj; simp [hl, show n < s.raw.length by omega]
    · have := hr j
      rw [List.getD_eq_getElem?_getD] at this
      rw [if_neg hj, this]
      by_cases hjn : j < n
      · rw [if_pos hjn, if_pos (by omega)]
      · rw [if_neg hjn, if_neg (by omega)]

/-- A loop that writes `RAW[i] <- v i`, `PHYS[i] <- dec(v i)` and notes saturation (INIT.P, UNPACK.P). -/
theorem forSignals_both (s : State) (v : Nat → Word) (body : Nat → State → State)
    (hb : ∀ i raw' phys' st, i < s.msg.numSignals.toNat →
      body i { s with raw := raw', phys := phys', status := st } =
        decodeSignal i (v i) ({ s with raw := raw'.set i (v i), phys := phys', status := st }))
    (hN : s.msg.numSignals.toNat ≤ s.raw.length) (hP : s.msg.numSignals.toNat ≤ s.phys.length) :
    ∃ raw' phys', forSignals s body =
        { s with
          raw := raw', phys := phys',
          status := { s.status with sat := s.status.sat || (List.range s.msg.numSignals.toNat).any fun i =>
            (dec (s.descAt i) (ival (s.descAt i) (v i))).2 } } ∧
      raw'.length = s.raw.length ∧ phys'.length = s.phys.length ∧
      (∀ j, raw'.getD j 0 = if j < s.msg.numSignals.toNat then v j else s.rawAt j) ∧
      (∀ j, phys'.getD j 0 = if j < s.msg.numSignals.toNat
        then (dec (s.descAt j) (ival (s.descAt j) (v j))).1 else s.physAt j) := by
  apply forSignals_induct (P := fun n t => ∃ raw' phys', t =
        { s with
          raw := raw', phys := phys',
          status := { s.status with sat := s.status.sat || (List.range n).any fun i =>
            (dec (s.descAt i) (ival (s.descAt i) (v i))).2 } } ∧
      raw'.length = s.raw.length ∧ phys'.length = s.phys.length ∧
      (∀ j, raw'.getD j 0 = if j < n then v j else s.rawAt j) ∧
      (∀ j, phys'.getD j 0 = if j < n
        then (dec (s.descAt j) (ival (s.descAt j) (v j))).1 else s.physAt j))
  · exact ⟨s.raw, s.phys, by simp, rfl, rfl, fun j => by simp [State.rawAt], fun j => by simp [State.physAt]⟩
  · rintro n t hn ⟨raw', phys', rfl, hl, hpl, hr, hp⟩
    refine ⟨raw'.set n (v n), phys'.set n (dec (s.descAt n) (ival (s.descAt n) (v n))).1, ?_, by simp [hl],
      by simp [hpl], fun j => ?_, fun j => ?_⟩
    · rw [hb n _ _ _ hn]
      simp only [decodeSignal, State.setPhys, State.noteSat, State.descAt, List.range_succ, List.any_append,
        List.any_cons, List.any_nil, Bool.or_false, Bool.or_assoc]
    · rw [List.getD_eq_getElem?_getD, List.getElem?_set]
      by_cases hj : n = j
      · subst hj; simp [hl, show n < s.raw.length by omega]
      · have := hr j
        rw [List.getD_eq_getElem?_getD] at this
        rw [if_neg hj, this]
        by_cases hjn : j < n
        · rw [if_pos hjn, if_pos (by omega)]
        · rw [if_neg hjn, if_neg (by omega)]
    · rw [List.getD_eq_getElem?_getD, List.getElem?_set]
      by_cases hj : n = j
      · subst hj; simp [hpl, show n < s.phys.length by omega]
      · have := hp j
        rw [List.getD_eq_getElem?_getD] at this
        rw [if_neg hj, this]
        by_cases hjn : j < n
        · rw [if_pos hjn, if_pos (by omega)]
        · rw [if_neg hjn, if_neg (by omega)]

/-- INIT.P's loop (R112). -/
theorem forSignals_initP (s : State) (hN : s.msg.numSignals.toNat ≤ s.raw.length)
    (hP : s.msg.numSignals.toNat ≤ s.phys.length) :
    ∃ raw' phys', forSignals s initSignalP =
        { s with
          raw := raw', phys := phys',
          status := { s.status with sat := s.status.sat || (List.range s.msg.numSignals.toNat).any fun i =>
            (dec (s.descAt i) (ival (s.descAt i) ((s.descAt i).defaultRaw))).2 } } ∧
      raw'.length = s.raw.length ∧ phys'.length = s.phys.length ∧
      (∀ j, raw'.getD j 0 = if j < s.msg.numSignals.toNat then (s.descAt j).defaultRaw else s.rawAt j) ∧
      (∀ j, phys'.getD j 0 = if j < s.msg.numSignals.toNat
        then (dec (s.descAt j) (ival (s.descAt j) ((s.descAt j).defaultRaw))).1 else s.physAt j) :=
  forSignals_both s (fun i => (s.descAt i).defaultRaw) initSignalP (fun _ _ _ _ _ => rfl) hN hP

/-- UNPACK.P's loop (R118). -/
theorem forSignals_unpackP (s : State) (hN : s.msg.numSignals.toNat ≤ s.raw.length)
    (hP : s.msg.numSignals.toNat ≤ s.phys.length) :
    ∃ raw' phys', forSignals s unpackSignalP =
        { s with
          raw := raw', phys := phys',
          status := { s.status with sat := s.status.sat || (List.range s.msg.numSignals.toNat).any fun i =>
            (dec (s.descAt i) (ival (s.descAt i) (fldValue (s.descAt i) s.fb))).2 } } ∧
      raw'.length = s.raw.length ∧ phys'.length = s.phys.length ∧
      (∀ j, raw'.getD j 0 = if j < s.msg.numSignals.toNat then fldValue (s.descAt j) s.fb else s.rawAt j) ∧
      (∀ j, phys'.getD j 0 = if j < s.msg.numSignals.toNat
        then (dec (s.descAt j) (ival (s.descAt j) (fldValue (s.descAt j) s.fb))).1 else s.physAt j) :=
  forSignals_both s (fun i => fldValue (s.descAt i) s.fb) unpackSignalP (fun _ _ _ _ _ => rfl) hN hP

/-- The buffer after writing the fields of signals 0 .. n-1 in ascending order, signal `i` from `v i`. -/
def writeFields (s : State) (v : Nat → Word) (n : Nat) (m : Memory) : Memory :=
  (List.range n).foldl (fun m i => fldWrite (s.descAt i) m (v i)) m

theorem writeFields_succ (s : State) (v : Nat → Word) (n : Nat) (m : Memory) :
    writeFields s v (n + 1) m = fldWrite (s.descAt n) (writeFields s v n m) (v n) := by
  simp [writeFields, List.range_succ]

/-- PACK's loop (R113) changes FB only. -/
theorem forSignals_pack (s : State) :
    forSignals s packSignal = s.setFb (writeFields s s.rawAt s.msg.numSignals.toNat s.fb) := by
  apply forSignals_induct (P := fun n t => t = s.setFb (writeFields s s.rawAt n s.fb))
  · rfl
  · rintro n t _ rfl
    rw [writeFields_succ]; rfl

/-- PACK.P's loop (R115) changes FB only. -/
theorem forSignals_packP (s : State) :
    forSignals s packSignalP = s.setFb
      (writeFields s (fun i => wordOf (enc (s.descAt i) (s.physAt i))) s.msg.numSignals.toNat s.fb) := by
  apply forSignals_induct (P := fun n t =>
    t = s.setFb (writeFields s (fun i => wordOf (enc (s.descAt i) (s.physAt i))) n s.fb))
  · rfl
  · rintro n t _ rfl
    rw [writeFields_succ]; rfl

/-- A bit after the fields are written: where several signals cover it, the highest index wins; where none does,
it is unchanged (R82, R125). -/
theorem writeFields_spec (s : State) (v : Nat → Word) (n : Nat) (m : Memory) (hm : Memory.wf m) :
    Memory.wf (writeFields s v n m) ∧
    (∀ i w, i < n → w < (s.descAt i).lengthBits.toNat →
      (∀ j, i < j → j < n → ¬ Covers (s.descAt j) (bitPlace (s.descAt i) w)) →
      bitAt (writeFields s v n m) (bitPlace (s.descAt i) w) = (v i).getLsbD w) ∧
    (∀ p, (∀ i, i < n → ¬ Covers (s.descAt i) p) → bitAt (writeFields s v n m) p = bitAt m p) := by
  induction n with
  | zero => exact ⟨hm, fun i w hi => absurd hi (Nat.not_lt_zero _), fun _ _ => rfl⟩
  | succ n ih =>
    obtain ⟨h1, h2, h3⟩ := ih
    obtain ⟨g1, g2, g3⟩ := fldWrite_spec (s.descAt n) (writeFields s v n m) (v n) h1
    rw [writeFields_succ]
    refine ⟨g1, fun i w hi hw hlast => ?_, fun p hp => ?_⟩
    · by_cases hin : i = n
      · subst hin; exact g2 w hw
      · rw [g3 _ (hlast n (by omega) (by omega))]
        exact h2 i w (by omega) hw fun j hj hjn => hlast j hj (by omega)
    · rw [g3 p (hp n (by omega))]
      exact h3 p fun i hi => hp i (by omega)

/-- The fields of signals placed inside `k` bytes write no entry at or beyond index `k` (R83). -/
theorem writeFields_lt (s : State) (v : Nat → Word) (n k : Nat) (m : Memory) (hm : ∀ c ∈ m, c.1 < k)
    (hd : ∀ i, i < n → PlaceOk k (s.descAt i)) : ∀ c ∈ writeFields s v n m, c.1 < k := by
  induction n with
  | zero => exact hm
  | succ n ih =>
    rw [writeFields_succ]
    exact fldWrite_lt _ _ (ih fun i hi => hd i (by omega)) fun w hw =>
      bitPlace_byte_lt _ (hd n (by omega)) hw

end Sys2Proof.Machine
end

