-- ==== Sys2Proof/Laws/Numbers.lean ====
section
/-! SUPPORT. Words as integers: what `sint`, `zextL`, `sextL`, `sat64` and the transform compute, in terms of
`toNat` and `toInt`. -/

namespace Sys2Proof.Machine

@[simp] theorem sint_eq_toInt (w : Word) : sint w = w.toInt := by
  have h : w.getLsbD 63 = w.msb := (BitVec.msb_eq_getLsbD_last w).symm
  rw [sint, h, BitVec.toInt_eq_msb_cond]
  norm_num

@[simp] theorem uint_eq_toNat (w : Word) : uint w = (w.toNat : Int) := rfl

@[simp] theorem ival_eq_rawInt (d : Descriptor) (w : Word) : ival d w = rawInt d w := by
  simp [ival, rawInt]

theorem mask_toNat {len : Nat} (h : len ≤ 64) : (mask len).toNat = 2 ^ len - 1 := by
  have h1 : 2 ^ len ≤ 2 ^ 64 := Nat.pow_le_pow_right (by norm_num) h
  have h2 : 0 < 2 ^ len := by positivity
  rw [mask, BitVec.toNat_ofNat, Nat.mod_eq_of_lt (by omega)]

theorem zextL_toNat {len : Nat} (h : len ≤ 64) (w : Word) : (zextL len w).toNat = w.toNat % 2 ^ len := by
  rw [zextL, BitVec.toNat_and, mask_toNat h, Nat.and_two_pow_sub_one_eq_mod]

theorem zextL_getLsbD {len : Nat} (h : len ≤ 64) (w : Word) (k : Nat) :
    (zextL len w).getLsbD k = (decide (k < len) && w.getLsbD k) := by
  rw [BitVec.getLsbD, zextL_toNat h, Nat.testBit_mod_two_pow, BitVec.getLsbD]

/-- The bits of `sext_L`: the field's bits, then copies of its top bit. -/
theorem sextL_toInt {len : Nat} (h1 : 1 ≤ len) (h : len ≤ 64) (w : Word) :
    (sextL len w).toInt = (w.toNat : Int).bmod (2 ^ len) := by
  obtain ⟨n, rfl⟩ : ∃ n, len = n + 1 := ⟨len - 1, by omega⟩
  have hz := zextL_toNat h w
  have hp : (2 : Nat) ^ (n + 1) = 2 * 2 ^ n := by ring
  have hn : (2 : Nat) ^ n ≤ 2 ^ 63 := Nat.pow_le_pow_right (by norm_num) (by omega)
  have hlt : (zextL (n + 1) w).toNat < 2 ^ (n + 1) := by rw [hz]; exact Nat.mod_lt _ (by positivity)
  have hb : (zextL (n + 1) w).getLsbD n = decide (2 ^ n ≤ (zextL (n + 1) w).toNat) := by
    rw [BitVec.getLsbD, Nat.testBit_eq_decide_div_mod_eq]
    generalize (zextL (n + 1) w).toNat = u at *
    rw [hp] at hlt
    by_cases hu : 2 ^ n ≤ u
    · have : u / 2 ^ n = 1 := Nat.div_eq_of_lt_le (by omega) (by omega)
      simp [this, hu]
    · have : u / 2 ^ n = 0 := Nat.div_eq_of_lt (by omega)
      simp [this, hu]
  have hmod : (w.toNat : Int).bmod (2 ^ (n + 1)) = ((zextL (n + 1) w).toNat : Int).bmod (2 ^ (n + 1)) := by
    rw [hz]; push_cast; exact (Int.emod_bmod ..).symm
  rw [hmod, sextL, Nat.add_sub_cancel, hb]
  generalize zextL (n + 1) w = z at *
  rw [hp] at hlt
  have hdiv (x : Nat) : (((2 * x : Nat) : Int) + 1) / 2 = (x : Int) := by omega
  rw [Int.bmod_def, hp, hdiv, Int.emod_eq_of_lt (by omega) (by exact_mod_cast hlt)]
  by_cases hu : 2 ^ n ≤ z.toNat
  · have hneg : ¬ (z.toNat : Int) < ((2 ^ n : Nat) : Int) := by exact_mod_cast Nat.not_lt.mpr hu
    have hz' : ((2 : Int) ^ (n + 1)) = ((2 * 2 ^ n : Nat) : Int) := by push_cast; ring
    simp only [hu, decide_true, ↓reduceIte, uint, wordOf, hz', if_neg hneg, BitVec.toInt_ofInt]
    rw [Int.bmod_eq_of_le] <;> omega
  · have hpos : (z.toNat : Int) < ((2 ^ n : Nat) : Int) := by exact_mod_cast Nat.lt_of_not_le hu
    simp only [hu, decide_false, Bool.false_eq_true, ↓reduceIte, if_pos hpos]
    exact BitVec.toInt_eq_toNat_of_lt (by omega)

theorem wordOf_toInt {n : Int} (h1 : -2 ^ 63 ≤ n) (h2 : n ≤ 2 ^ 63 - 1) : (wordOf n).toInt = n := by
  rw [wordOf, BitVec.toInt_ofInt, Int.bmod_eq_of_le] <;> omega

/-- All that `sat64` does (section 7.1 of 00_scope.md). -/
theorem sat64_spec (a : Int) :
    (sat64 a).1.toInt = clamp64 a ∧ ((sat64 a).2 = true ↔ Overflows64 a) := by
  unfold sat64 clamp64 Overflows64
  split
  · rename_i h
    exact ⟨by rw [min_eq_left (by omega), max_eq_right (by norm_num)]; decide, by simp; omega⟩
  · split
    · rename_i h1 h2
      exact ⟨by rw [min_eq_right (by omega), max_eq_left (by omega)]; decide, by simp; omega⟩
    · rename_i h1 h2
      refine ⟨?_, by simp; omega⟩
      rw [min_eq_right (by omega), max_eq_right (by omega)]
      exact wordOf_toInt (by omega) (by omega)

theorem clamp64_of_fits {a : Int} (h : ¬ Overflows64 a) : clamp64 a = a := by
  unfold clamp64 Overflows64 at *; omega

/-- All that `dec` does (R95). -/
theorem dec_spec (d : Descriptor) (r : Int) :
    (dec d r).1.toInt = clamp64 (exactPhys d r) ∧ ((dec d r).2 = true ↔ Overflows64 (exactPhys d r)) := by
  have h := sat64_spec (r * d.scaleInt + d.offsetInt)
  simpa only [dec, exactPhys, Descriptor.scaleInt, Descriptor.offsetInt, sint_eq_toInt] using h

theorem dec_exact {d : Descriptor} {r : Int} (h : (dec d r).2 = false) :
    (dec d r).1.toInt = exactPhys d r := by
  have hs := dec_spec d r
  rw [hs.1, clamp64_of_fits]
  intro ho
  simp [hs.2.mpr ho] at h

@[simp] theorem enc_eq (d : Descriptor) (p : Word) :
    enc d p = rha (p.toInt - d.offset.toInt) d.scale.toInt := by
  simp [enc, Descriptor.offsetInt, Descriptor.scaleInt]

theorem rha_neg_left (a b : Int) : rha (-a) b = -rha a b := by simp [rha]

theorem rha_neg_right (a b : Int) : rha a (-b) = -rha a b := by simp [rha]

/-- `rha` of two natural numbers is the rounded-up-at-half quotient (R96). -/
theorem rha_natCast (a b : Nat) (hb : 0 < b) : rha a b = (((2 * a + b) / (2 * b) : Nat) : Int) := by
  have hs : (b : Int).sign = 1 := Int.sign_eq_one_of_pos (by omega)
  rcases Nat.eq_zero_or_pos a with rfl | ha
  · have h0 : (2 * 0 + b) / (2 * b) = 0 := Nat.div_eq_of_lt (by omega)
    rw [h0]
    simp [rha]
  · have ha' : (a : Int).sign = 1 := Int.sign_eq_one_of_pos (by omega)
    simp only [rha, hs, ha', Int.natAbs_natCast, one_mul]

/-- What a decode and an encode need of SCALE (R144 cause 3). -/
theorem scale_toInt_ne_zero {d : Descriptor} (h : XformOk d) : d.scale.toInt ≠ 0 := by
  intro h0
  exact h (BitVec.eq_of_toInt_eq (by simpa using h0))

@[simp] theorem loBound_explicit {d : Descriptor} (h : d.hasBounds = true) : loBound d = rawInt d d.rawMin := by
  simp [loBound, h]

@[simp] theorem hiBound_explicit {d : Descriptor} (h : d.hasBounds = true) : hiBound d = rawInt d d.rawMax := by
  simp [hiBound, h]

theorem inRangeRaw_iff (d : Descriptor) (w : Word) :
    inRangeRaw d w = true ↔ loBound d ≤ rawInt d w ∧ rawInt d w ≤ hiBound d := by
  simp [inRangeRaw]

theorem inRangePhys_iff (d : Descriptor) (p : Word) :
    inRangePhys d p = true ↔
      min (clamp64 (exactPhys d (loBound d))) (clamp64 (exactPhys d (hiBound d))) ≤ p.toInt ∧
      p.toInt ≤ max (clamp64 (exactPhys d (loBound d))) (clamp64 (exactPhys d (hiBound d))) := by
  simp [inRangePhys, (dec_spec d _).1]

end Sys2Proof.Machine
end

