-- ==== Sys2Proof/Laws/PerInstr.lean ====
section
/-! SUPPORT. The per-command family EncodesItsRow: a well-formed command's word is one of its own row of the opcode
map (30_encoding.md R66), with its operand in bits 15:8 (R62, R64). -/

namespace Sys2Proof.Laws.EncodesItsRow

/-- The mask of a command's row: format S leaves bits 15:8 free, format F none (R61, R62, R66). -/
def rowMask (i : Instr) : Word :=
  match i.signal? with
  | some _ => 0xFFFFFFFFFFFF00FF
  | none => 0xFFFFFFFFFFFFFFFF

/-- The word of a well-formed command matches its row under the row's mask and carries its operand. -/
def Statement (i : Instr) : Prop :=
  i.WellFormed →
    encodeWord i &&& rowMask i = BitVec.ofNat 64 (opcodeOf i) ∧
    fieldSig (encodeWord i) = i.signal?.getD 0 ∧ fieldReserved (encodeWord i) = 0

/-- The three facts about `opc + 256 * sig` that every format-S row needs. -/
theorem formatS_word (opc sig : Nat) (ho : opc < 256) (hs : sig < 256) :
    BitVec.ofNat 64 (opc + 256 * sig) &&& 0xFFFFFFFFFFFF00FF = BitVec.ofNat 64 opc ∧
    fieldSig (BitVec.ofNat 64 (opc + 256 * sig)) = sig ∧
    fieldReserved (BitVec.ofNat 64 (opc + 256 * sig)) = 0 := by
  have hn : (BitVec.ofNat 64 (opc + 256 * sig)).toNat = opc + 256 * sig := by
    rw [BitVec.toNat_ofNat]; omega
  refine ⟨?_, by rw [fieldSig, hn]; omega, by rw [fieldReserved, hn]; omega⟩
  have hw : BitVec.ofNat 64 (opc + 256 * sig) =
      ((0 : BitVec 48) ++ BitVec.ofNat 8 sig) ++ BitVec.ofNat 8 opc := by
    apply BitVec.eq_of_toNat_eq
    rw [hn]
    simp only [BitVec.toNat_append, BitVec.toNat_ofNat, Nat.mod_eq_of_lt ho, Nat.mod_eq_of_lt hs, Nat.shiftLeft_eq]
    rw [show (0 : BitVec 48).toNat * 2 ^ 8 ||| sig = sig by simp, Nat.mul_comm sig]
    rw [← Nat.two_pow_add_eq_or_of_lt (i := 8) ho]
    omega
  have hm : (0xFFFFFFFFFFFF00FF : BitVec 64) = ((0xFFFFFFFFFFFF : BitVec 48) ++ (0 : BitVec 8)) ++ (0xFF : BitVec 8) := by
    decide
  have ho' : BitVec.ofNat 64 opc = ((0 : BitVec 48) ++ (0 : BitVec 8)) ++ BitVec.ofNat 8 opc := by
    apply BitVec.eq_of_toNat_eq
    simp only [BitVec.toNat_append, BitVec.toNat_ofNat]
    simp
    omega
  rw [hw, hm, ho', BitVec.and_append, BitVec.and_append]
  have h8 : BitVec.ofNat 8 opc &&& 0xFF = BitVec.ofNat 8 opc := by
    apply BitVec.eq_of_getLsbD_eq; intro k hk; rw [BitVec.getLsbD_and]
    interval_cases k <;> simp
  rw [h8]
  simp

theorem nop : Statement .nop := fun _ => by decide

theorem sreset : Statement .sreset := fun _ => by decide

theorem fldRead (sig : Nat) : Statement (.fldRead sig) := fun h => formatS_word _ sig (by simp [opcodeOf]) (h sig rfl)

theorem fldWrite (sig : Nat) : Statement (.fldWrite sig) := fun h => formatS_word _ sig (by simp [opcodeOf]) (h sig rfl)

theorem toSigned (sig : Nat) : Statement (.toSigned sig) := fun h => formatS_word _ sig (by simp [opcodeOf]) (h sig rfl)

theorem toUbits (sig : Nat) : Statement (.toUbits sig) := fun h => formatS_word _ sig (by simp [opcodeOf]) (h sig rfl)

theorem decode (sig : Nat) : Statement (.decode sig) := fun h => formatS_word _ sig (by simp [opcodeOf]) (h sig rfl)

theorem encode (sig : Nat) : Statement (.encode sig) := fun h => formatS_word _ sig (by simp [opcodeOf]) (h sig rfl)

theorem rangeRaw (sig : Nat) : Statement (.rangeRaw sig) := fun h => formatS_word _ sig (by simp [opcodeOf]) (h sig rfl)

theorem rangePhys (sig : Nat) : Statement (.rangePhys sig) := fun h => formatS_word _ sig (by simp [opcodeOf]) (h sig rfl)

theorem init : Statement .init := fun _ => by decide

theorem initP : Statement .initP := fun _ => by decide

theorem pack : Statement .pack := fun _ => by decide

theorem packP : Statement .packP := fun _ => by decide

theorem unpack : Statement .unpack := fun _ => by decide

theorem unpackP : Statement .unpackP := fun _ => by decide

end Sys2Proof.Laws.EncodesItsRow
end

