-- ==== Sys2Proof/Laws/Step.lean ====
section
/-! SUPPORT. What serving one event comes to: `step` case by case, without unfolding `fetch`. -/

namespace Sys2Proof.Machine

/-- What the step makes of what the event asked for. -/
def Fetched.run (s : State) : Fetched → Host.Outcome State Fault Refusal
  | .idle => .next s
  | .command v t => runCommand v t
  | .settled t => .next t
  | .refused r => .refused r

theorem step_eq_run (s : State) : step s = (fetch s).run s := by
  unfold step
  cases fetch s <;> rfl

theorem fetch_nil {s : State} (h : s.pending = []) : fetch s = .idle := by simp [fetch, h]

theorem fetch_cons {s : State} {e : PortEvent} {rest : List PortEvent} (h : s.pending = e :: rest) :
    fetch s = serve { s with pending := rest } e := by simp [fetch, h]

theorem step_cons {s : State} {e : PortEvent} {rest : List PortEvent} (h : s.pending = e :: rest) :
    step s = (serve { s with pending := rest } e).run s := by rw [step_eq_run, fetch_cons h]

theorem step_read {s : State} {n : BitVec 12} {rest : List PortEvent} (h : s.pending = .read n :: rest) :
    step s = match regAt s.params n.toNat with
      | none => .next (s.served rest .portError)
      | some r => .next (s.served rest (.data (regRead s r))) := by
  rw [step_cons h]
  simp only [serve, hostRead, State.answer]
  cases hr : regAt s.params n.toNat with
  | none => rfl
  | some r => cases r <;> rfl

/-- A host write to a register other than CMD. -/
theorem step_write {s : State} {n : BitVec 12} {v : Word} {rest : List PortEvent}
    (h : s.pending = .write n v :: rest) (hc : regAt s.params n.toNat ≠ some .cmd) :
    step s = match regAt s.params n.toNat with
      | none => .next (s.served rest .portError)
      | some r => .next ((if s.status.fatal then { s with pending := rest }
          else regWrite { s with pending := rest } r v).answer .done) := by
  rw [step_cons h]
  simp only [serve, hostWrite]
  cases hr : regAt s.params n.toNat with
  | none => rfl
  | some r => cases r <;> first | rfl | exact absurd hr hc

theorem step_write_cmd {s : State} {v : Word} {rest : List PortEvent} (h : s.pending = .write 0 v :: rest) :
    step s = runCommand v (s.served rest .done) := by
  rw [step_cons h]; rfl

theorem step_hardReset {s : State} {c : Storage} {rest : List PortEvent} (h : s.pending = .hardReset c :: rest) :
    step s = .next ({ s with pending := rest }.hardReset c) := by
  rw [step_cons h]; rfl

theorem busRegister_some {offset size : Nat} {n : BitVec 12} (h : busRegister offset size = some n) :
    size = 8 ∧ offset = 8 * n.toNat := by
  unfold busRegister at h
  split at h
  · rename_i hc
    simp only [Option.some.injEq] at h
    subst h
    refine ⟨hc.1, ?_⟩
    rw [BitVec.toNat_ofNat, Nat.mod_eq_of_lt (by omega)]
    omega
  · cases h

theorem busRegister_none {offset size : Nat} (h : size ≠ 8 ∨ offset % 8 ≠ 0 ∨ 8 * 4096 ≤ offset) :
    busRegister offset size = none := by
  unfold busRegister
  rw [if_neg]
  omega

theorem regAt_fixed (p : Params) {n : Nat} (h : n < 0x010) : regAt p n = fixedReg n := by simp [regAt, h]

theorem fixedReg_eq_cmd {n : Nat} : fixedReg n = some .cmd ↔ n = 0 := by
  unfold fixedReg
  split <;> simp_all

/-- CMD is register number 0 and no other (R45). -/
theorem regAt_eq_cmd (p : Params) (n : Nat) : regAt p n = some .cmd ↔ n = 0 := by
  unfold regAt descWordOf
  repeat' split
  all_goals first | exact fixedReg_eq_cmd | (simp; omega)

/-- The registers a number stands for are in range (R45, R46). -/
theorem regAt_inRange {p : Params} {n : Nat} {r : Reg} (h : regAt p n = some r) :
    match r with
    | .fbw k => k < p.maxb / 8
    | .raw i => i < p.nsigMax
    | .phys i => i < p.nsigMax
    | .desc i _ => i < p.nsigMax
    | _ => True := by
  unfold regAt at h
  split at h
  · unfold fixedReg at h
    split at h <;> cases h <;> trivial
  split at h
  · split at h
    · cases h; assumption
    · cases h
  split at h
  · split at h
    · cases h; assumption
    · cases h
  split at h
  · split at h
    · cases h; assumption
    · cases h
  split at h
  · simp only [Option.map_eq_some_iff] at h
    obtain ⟨w, -, rfl⟩ := h
    assumption
  · cases h

/-- The register exists: its index is in range (R45). -/
def Reg.InRange (p : Params) : Reg → Prop
  | .fbw k => k < p.maxb / 8
  | .raw i => i < p.nsigMax
  | .phys i => i < p.nsigMax
  | .desc i _ => i < p.nsigMax
  | _ => True

/-- Every register that exists stands at its own number (R45). -/
theorem regAt_number {p : Params} (hp : p.Legal) {r : Reg} (h : r.InRange p) : regAt p r.number = some r := by
  obtain ⟨-, -, hm, -, hn, -⟩ := hp
  cases r with
  | fbw k =>
    have hk : k < p.maxb / 8 := h
    change regAt p (0x010 + k) = _
    unfold regAt
    rw [if_neg (by omega), if_pos (by omega), Nat.add_sub_cancel_left, if_pos hk]
  | raw i =>
    have hi : i < p.nsigMax := h
    change regAt p (0x100 + i) = _
    unfold regAt
    rw [if_neg (by omega), if_neg (by omega), if_pos (by omega), Nat.add_sub_cancel_left, if_pos hi]
  | phys i =>
    have hi : i < p.nsigMax := h
    change regAt p (0x200 + i) = _
    unfold regAt
    rw [if_neg (by omega), if_neg (by omega), if_neg (by omega), if_pos (by omega), Nat.add_sub_cancel_left,
      if_pos hi]
  | desc i w =>
    have hi : i < p.nsigMax := h
    have hw : w.code < 8 := by cases w <;> decide
    have hd : (8 * i + w.code) / 8 = i := by omega
    have hr : (8 * i + w.code) % 8 = w.code := by omega
    change regAt p (0x800 + 8 * i + w.code) = _
    unfold regAt
    rw [if_neg (by omega), if_neg (by omega), if_neg (by omega), if_neg (by omega),
      show 0x800 + 8 * i + w.code - 0x800 = 8 * i + w.code by omega, hd, hr, if_pos hi]
    cases w <;> rfl
  | _ => rfl

theorem reset_fb_wf : Memory.wf State.reset.fb := by decide

end Sys2Proof.Machine
end

