-- ==== Sys2Proof/Tests/Slice0.lean ====
section
/-! SUPPORT. Tests: the smoke test of WellFormed, every command decoded from a word written out from the opcode map,
one-step tests whose expected values are the vectors of 95_test_vectors.md, and the witness of every statement
that has hypotheses. -/

namespace Sys2Proof.Tests

open Sys2Proof.Machine

/-! ## WellFormed: the one check refuses an operand that does not fit SIG (R64) -/

theorem test_wellFormed_refuses_sig_256 : ¬ (Instr.fldRead 256).WellFormed := by
  intro h
  exact absurd (h 256 rfl) (by decide)

theorem test_wellFormed_accepts_sig_255 : (Instr.fldRead 255).WellFormed := by
  intro s h
  cases h
  decide

theorem test_wellFormed_formatF : Instr.unpackP.WellFormed := by
  intro s h
  cases h

/-! ## Decode: words written out bit by bit from R60 (reserved 63:16, SIG 15:8, OPC 7:0) and R66 -/

theorem test_decode_nop :
    decodeWord 0b0000000000000000000000000000000000000000000000000000000000000000 = .ok .nop := by decide

theorem test_decode_sreset :
    decodeWord 0b0000000000000000000000000000000000000000000000000000000000000001 = .ok .sreset := by decide

theorem test_decode_fldRead :
    decodeWord 0b0000000000000000000000000000000000000000000000001010101000010000 = .ok (.fldRead 170) := by decide

theorem test_decode_fldWrite :
    decodeWord 0b0000000000000000000000000000000000000000000000000101010100010001 = .ok (.fldWrite 85) := by decide

theorem test_decode_toSigned :
    decodeWord 0b0000000000000000000000000000000000000000000000001111111100100000 = .ok (.toSigned 255) := by decide

theorem test_decode_toUbits :
    decodeWord 0b0000000000000000000000000000000000000000000000000000000100100001 = .ok (.toUbits 1) := by decide

theorem test_decode_decode :
    decodeWord 0b0000000000000000000000000000000000000000000000001000000000110000 = .ok (.decode 128) := by decide

theorem test_decode_encode :
    decodeWord 0b0000000000000000000000000000000000000000000000000011111100110001 = .ok (.encode 63) := by decide

theorem test_decode_rangeRaw :
    decodeWord 0b0000000000000000000000000000000000000000000000000100000001000000 = .ok (.rangeRaw 64) := by decide

theorem test_decode_rangePhys :
    decodeWord 0b0000000000000000000000000000000000000000000000001100001101000001 = .ok (.rangePhys 195) := by decide

theorem test_decode_init :
    decodeWord 0b0000000000000000000000000000000000000000000000000000000001010000 = .ok .init := by decide

theorem test_decode_initP :
    decodeWord 0b0000000000000000000000000000000000000000000000000000000001010001 = .ok .initP := by decide

theorem test_decode_pack :
    decodeWord 0b0000000000000000000000000000000000000000000000000000000001010010 = .ok .pack := by decide

theorem test_decode_packP :
    decodeWord 0b0000000000000000000000000000000000000000000000000000000001010011 = .ok .packP := by decide

theorem test_decode_unpack :
    decodeWord 0b0000000000000000000000000000000000000000000000000000000001010100 = .ok .unpack := by decide

theorem test_decode_unpackP :
    decodeWord 0b0000000000000000000000000000000000000000000000000000000001010101 = .ok .unpackP := by decide

/-- R63 (2), (3), (4); R67: the vectors V-E9. -/
theorem test_decode_illegal :
    decodeWord 0x0000000000010010 = .error .reservedBits ∧
    decodeWord 0x8000000000000000 = .error .reservedBits ∧
    decodeWord 0x0000000000000002 = .error (.unknownOpcode 2) ∧
    decodeWord 0x0000000000000012 = .error (.unknownOpcode 0x12) ∧
    decodeWord 0x0000000000000056 = .error (.unknownOpcode 0x56) ∧
    decodeWord 0x00000000000000FF = .error (.unknownOpcode 0xFF) ∧
    decodeWord 0x0000000000000100 = .error (.formatFOperand 1) ∧
    decodeWord 0x0000000000000152 = .error (.formatFOperand 1) := by decide

theorem test_tableWord : decodeTableWord 16 0x0310 = some (.fldRead 3) ∧ decodeTableWord 64 0x10310 = none := by
  decide

/-! ## One step: a small machine of two signals -/

/-- A descriptor: the arguments of the vectors' `LE|BE a L u|s S O`. -/
def dsc (order : ByteOrder) (start len : Nat) (signed : Bool) (scale offset : Int) : Descriptor :=
  { Descriptor.blank with
    startBit := BitVec.ofNat 16 start, lengthBits := BitVec.ofNat 7 len, byteOrder := order, isSigned := signed,
    scale := wordOf scale, offset := wordOf offset }

/-- The bytes 1 .. 8 of the vectors V-A. -/
def bytes1to8 : Memory := [(0, 1), (1, 2), (2, 3), (3, 4), (4, 5), (5, 6), (6, 7), (7, 8)]

/-- A machine of two signals with a buffer of 8 bytes and a value object. -/
def tiny (d0 d1 : Descriptor) : State :=
  { State.reset with
    params := { Params.thisHardware with nsigMax := 2 }
    raw := [0xABC, 0xFFFFFFFFFFFFFFFE], phys := [0xABC, 0xFFFFFFFFFFFFFFFE], desc := [d0, d1], fb := bytes1to8
    msg := { lengthBytes := 8, numSignals := 2 }, ctrl := { bufcap := 8, bufv := true, valv := true } }

/-- The layout of the vectors V-F: LE a=20 L=12 u and BE a=7 L=16 s. -/
def pair : State := tiny (dsc .littleEndian 20 12 false 1 0) (dsc .bigEndian 7 16 true 1 0)

/-- A state with a malformed first descriptor: L = 0 (V-E20). -/
def badField : State := tiny Descriptor.blank (dsc .bigEndian 7 16 true 1 0)

/-- A state in the fatal state. -/
def frozen : State := { pair with status := { StatusReg.zero with fatal := true, fcause := 1, fsig := 0 } }

/-- A read of the state a command leaves. -/
def after {α : Type} (i : Instr) (s : State) (get : State → α) : Option α :=
  match exec i s with
  | .next t => some (get t)
  | .fault _ => none
  | .refused _ => none

/-- V-Y1. -/
theorem test_nop : after .nop { pair with status := { StatusReg.zero with err := .illegal, sat := true } }
    (fun t => (t.status.err, t.status.sat)) = some (.ok, true) := by decide

/-- V-E67: SRESET leaves the fatal state; FB survives. -/
theorem test_sreset : after .sreset { frozen with xr := 9 }
    (fun t => (t.status.fatal, t.xr, t.fb)) = some (false, 0, bytes1to8) := by decide

/-- V-A5. -/
theorem test_fldRead_big : after (.fldRead 0) (tiny (dsc .bigEndian 20 12 false 1 0) Descriptor.blank) State.xr =
    some 0x182 := by decide

/-- V-A15. -/
theorem test_fldRead_little : after (.fldRead 0) (tiny (dsc .littleEndian 4 24 false 1 0) Descriptor.blank) State.xr =
    some 0x403020 := by decide

/-- V-A23. -/
theorem test_fldWrite_big :
    after (.fldWrite 0) { tiny (dsc .bigEndian 20 12 false 1 0) Descriptor.blank with xr := 0xABC, fb := [] }
      State.fb = some [(2, 0x15), (3, 0x78)] := by decide

/-- V-A30. -/
theorem test_fldWrite_little :
    after (.fldWrite 0) { tiny (dsc .littleEndian 7 3 false 1 0) Descriptor.blank with xr := 5, fb := [] }
      State.fb = some [(0, 0x80), (1, 0x02)] := by decide

/-- V-S1. -/
theorem test_toSigned : after (.toSigned 0) { tiny (dsc .littleEndian 0 12 true 1 0) Descriptor.blank with xr := 0x800 }
    State.xr = some 0xFFFFFFFFFFFFF800 := by decide

/-- V-S7: L = 64. -/
theorem test_toSigned_64 :
    after (.toSigned 0) { tiny (dsc .littleEndian 0 64 true 1 0) Descriptor.blank with xr := 0x8000000000000000 }
      State.xr = some 0x8000000000000000 := by decide

/-- V-S23. -/
theorem test_toUbits : after (.toUbits 0) { tiny (dsc .littleEndian 0 12 true 1 0) Descriptor.blank with xr := 5000 }
    State.xr = some 904 := by decide

/-- V-T10. -/
theorem test_decode :
    after (.decode 0) { tiny (dsc .littleEndian 0 8 false (-5) 100) Descriptor.blank with xr := 200 }
      (fun t => (t.xp, t.status.sat)) = some (0xFFFFFFFFFFFFFC7C, false) := by decide

/-- V-T14: saturation is judged on the exact sum. -/
theorem test_decode_exact_sum :
    after (.decode 0) { tiny (dsc .littleEndian 0 64 false 1 (-1)) Descriptor.blank with xr := 0x8000000000000000 }
      (fun t => (t.xp, t.status.sat)) = some (0x7FFFFFFFFFFFFFFF, false) := by decide

/-- V-T36: the tie 2.5 goes to 3. -/
theorem test_encode_tie : after (.encode 0) { tiny (dsc .littleEndian 0 8 false 2 0) Descriptor.blank with xp := 5 }
    State.xr = some 3 := by decide

/-- V-T43: negative scale. -/
theorem test_encode_negative_scale :
    after (.encode 0)
      { tiny (dsc .littleEndian 0 8 false (-5) 100) Descriptor.blank with xp := 0xFFFFFFFFFFFFFC7C }
      State.xr = some 200 := by decide

/-- V-R6. -/
theorem test_rangeRaw :
    after (.rangeRaw 0) { tiny (dsc .littleEndian 0 12 true 1 0) Descriptor.blank with xr := 0xFFFFFFFFFFFFF7FF }
      (fun t => t.status.inr) = some false := by decide

/-- V-R15: bounds in the wrong order admit nothing. -/
theorem test_rangeRaw_empty :
    after (.rangeRaw 0)
      { tiny { dsc .littleEndian 0 12 false 1 0 with hasBounds := true, rawMin := 10, rawMax := 5 }
          Descriptor.blank with xr := 7 }
      (fun t => t.status.inr) = some false := by decide

/-- V-R29 and V-R31: negative scale swaps the bounds. -/
theorem test_rangePhys :
    after (.rangePhys 0) { tiny (dsc .littleEndian 0 8 false (-5) 100) Descriptor.blank with xp := 100 }
      (fun t => t.status.inr) = some true := by decide

/-- V-R30. -/
theorem test_rangePhys_outside :
    after (.rangePhys 0) { tiny (dsc .littleEndian 0 8 false (-5) 100) Descriptor.blank with xp := 101 }
      (fun t => t.status.inr) = some false := by decide

/-- V-F1. -/
theorem test_init :
    after .init { tiny (dsc .littleEndian 20 12 false 1 0)
        { dsc .bigEndian 7 16 true 1 0 with defaultRaw := 0xFFFFFFFFFFFFFFFE } with
      ctrl := { bufcap := 8, bufv := true, valv := false } }
      (fun t => (t.raw, t.ctrl.valv)) = some ([0, 0xFFFFFFFFFFFFFFFE], true) := by decide

/-- V-F8: the second signal is the source's temperature signal. -/
theorem test_initP :
    after .initP (tiny (dsc .littleEndian 0 12 true 4294967296 0)
        { dsc .littleEndian 16 12 true 1 25000 with defaultRaw := 0xFFFFFFFFFFFFF800 })
      (fun t => (t.raw, t.phys)) = some ([0, 0xFFFFFFFFFFFFF800], [0, 22952]) := by decide

/-- V-F2. -/
theorem test_pack : after .pack pair (fun t => (t.fb, t.result)) =
    some ([(0, 0xFF), (1, 0xFE), (2, 0xC0), (3, 0xAB)], 8) := by decide

/-- V-E1: one byte too little buffer. -/
theorem test_pack_capacity :
    after .pack { pair with ctrl := { bufcap := 7, bufv := true, valv := true }, result := 5 }
      (fun t => (t.status.err, t.result, t.fb)) = some (.capacity, 0, bytes1to8) := by decide

/-- V-F7a: PHYS 22952 packs as -2048. -/
theorem test_packP :
    after .packP { tiny (dsc .littleEndian 0 12 true 1 25000) (dsc .littleEndian 12 4 false 1 0) with
      phys := [22952, 0] } State.fb = some [(1, 8)] := by decide

/-- V-E33: SCALE = 0 of signal 1. -/
theorem test_packP_scaleZero :
    after .packP (tiny (dsc .littleEndian 0 8 false 1 0) (dsc .littleEndian 8 8 false 0 0))
      (fun t => (t.status.fatal, t.status.fcause, t.status.fsig, t.fb)) = some (true, 3, 1, bytes1to8) := by decide

/-- V-F4. -/
theorem test_unpack : after .unpack pair State.raw = some [0x40, 0x102] := by decide

/-- V-F12. -/
theorem test_unpackP : after .unpackP pair (fun t => (t.raw, t.phys)) = some ([0x40, 0x102], [0x40, 0x102]) := by
  decide

/-- V-F10. -/
theorem test_unpackP_saturates :
    after .unpackP { tiny (dsc .littleEndian 0 64 false 2 0) Descriptor.blank with
      fb := [(7, 0x80)], msg := { lengthBytes := 8, numSignals := 1 } }
      (fun t => (t.phys.head?, t.status.sat)) = some (some 0x7FFFFFFFFFFFFFFF, true) := by decide

/-- The command in the queue is what `step` runs. -/
theorem test_withFetchWord :
    (match step (pair.withFetchWord 64 0x54) with
      | .next t => some (t.raw, t.pending, t.answers)
      | .fault _ => none
      | .refused _ => none) = some ([0x40, 0x102], [], [.done]) := by decide

/-! ## Witnesses: states and operands that meet the hypotheses of the statements -/

/-- A state whose pending queue is `q`. -/
def withQueue (s : State) (q : List PortEvent) : State := { s with pending := q }

/-- `pair` with the wrong references: no buffer, no value object. -/
def noBuffer : State := { pair with ctrl := { bufcap := 8, bufv := false, valv := false } }

/-- `pair` with one byte too little buffer. -/
def shortBuffer : State := { pair with ctrl := { bufcap := 7, bufv := true, valv := true } }

/-- `pair` with one signal more than the table has. -/
def tooMany : State := { pair with msg := { lengthBytes := 8, numSignals := 3 } }

/-- `pair` with a frame one byte longer than FB. -/
def tooLong : State :=
  { pair with msg := { lengthBytes := 9, numSignals := 2 }, ctrl := { bufcap := 9, bufv := true, valv := true } }

/-- A second field one bit past the frame: LE a=53 L=12 (V-E23). -/
def badPlace : State := tiny (dsc .littleEndian 20 12 false 1 0) (dsc .littleEndian 53 12 false 1 0)

/-- A second descriptor with SCALE = 0 (V-E33). -/
def badScale : State := tiny (dsc .littleEndian 20 12 false 1 0) (dsc .littleEndian 0 8 false 0 0)

theorem witness_DecodeOfEncodedCommand : (Instr.fldRead 255).WellFormed ∧ (Instr.fldRead 0).WellFormed ∧
    Instr.nop.WellFormed := by
  refine ⟨?_, ?_, ?_⟩ <;> intro s h <;> cases h <;> decide

theorem witness_EncodeOfDecodedWord :
    decodeWord 0x000000000000FF41 = .ok (.rangePhys 255) ∧ decodeWord 0x0000000000000000 = .ok .nop := by decide

theorem witness_StepRunsTheDecodedCommand :
    decodeWord 0x52 = .ok .pack ∧ (withQueue pair [.write 0 0x52]).pending = .write 0 0x52 :: [] ∧
    (withQueue pair [.busWrite 0 8 0x52, .read 1]).pending = .busWrite 0 8 0x52 :: [.read 1] := by decide

/-- One state for each of the seven clauses, in their order. -/
theorem witness_CommandWordsDecodeInOrder :
    let q (s : State) (v : Word) := withQueue s [.write 0 v]
    (q frozen 1).status.fatal = true ∧
    ((q frozen 0).status.fatal = true ∧ (0 : Word) ≠ 1) ∧
    (Live (q pair 0x10000) ∧ ((0x10000 : Word).extractLsb' 16 48).toNat ≠ 0) ∧
    (Live (q pair 0x56) ∧ ((0x56 : Word).extractLsb' 16 48).toNat = 0 ∧
      ((0x56 : Word).extractLsb' 0 8).toNat ∉ [0x00, 0x01, 0x50, 0x51, 0x52, 0x53, 0x54, 0x55] ∧
      ((0x56 : Word).extractLsb' 0 8).toNat ∉ [0x10, 0x11, 0x20, 0x21, 0x30, 0x31, 0x40, 0x41]) ∧
    (Live (q pair 0x155) ∧ ((0x155 : Word).extractLsb' 0 8).toNat = 0x55 ∧
      ((0x155 : Word).extractLsb' 8 8).toNat ≠ 0) ∧
    (Live (q pair 0x55) ∧ ((0x55 : Word).extractLsb' 0 8).toNat = 0x55 ∧
      ((0x55 : Word).extractLsb' 8 8).toNat = 0) ∧
    (Live (q pair 0xFF10) ∧ ((0xFF10 : Word).extractLsb' 16 48).toNat = 0 ∧
      ((0xFF10 : Word).extractLsb' 0 8).toNat = 0x10) := by decide

/-- The first and the last number of every range of R46, with MAXB = 8 and NSIG_MAX = 64, and the implemented numbers
beside them. -/
theorem witness_UnimplementedNumbersAnswerPortError :
    Params.thisHardware.Legal ∧
    (∀ n ∈ [0x007, 0x00F, 0x011, 0x0FF, 0x140, 0x1FF, 0x240, 0x7FF, 0x806, 0x807, 0x9FE, 0xA00, 0xFFF],
      Unimplemented Params.thisHardware n) ∧
    (∀ n ∈ [0x000, 0x006, 0x010, 0x100, 0x13F, 0x200, 0x23F, 0x800, 0x805, 0x9F8, 0x9FD],
      ¬ Unimplemented Params.thisHardware n) := by decide

theorem witness_FrameWindowPacksLittleEndian :
    let s := withQueue pair [.write 0x010 5]
    s.params.Legal ∧ Memory.wf s.fb ∧ 0 < s.params.maxb / 8 ∧ (0x010 : BitVec 12).toNat = 0x010 + 0 ∧ Live s := by
  decide

/-- The first and the last number of every kind of register. -/
theorem witness_HostWriteIsReadBack :
    let s := withQueue State.reset [.write 0x9FD 7, .read 0x9FD]
    Live s ∧ s.params.Legal ∧ Sized s ∧ Memory.wf s.fb ∧
    regAt s.params (0x9FD : BitVec 12).toNat = some (.desc 63 .defaultRaw) ∧
    regAt s.params 0x003 = some .ctrl ∧ regAt s.params 0x004 = some .msg ∧ regAt s.params 0x005 = some .xr ∧
    regAt s.params 0x006 = some .xp ∧ regAt s.params 0x010 = some (.fbw 0) ∧
    regAt s.params 0x13F = some (.raw 63) ∧ regAt s.params 0x23F = some (.phys 63) ∧
    regAt s.params 0x800 = some (.desc 0 .layout) ∧ Reg.desc 63 .defaultRaw ≠ .cmd ∧
    Reg.desc 63 .defaultRaw ≠ .status ∧ Reg.desc 63 .defaultRaw ≠ .result := by decide

/-- The first and the last register of every range, and an unimplemented number. -/
theorem witness_RegisterNumbersNameTheirRegisters :
    State.reset.params.Legal ∧ Live State.reset ∧ 0 < State.reset.params.maxb / 8 ∧ 63 < State.reset.params.nsigMax ∧
    Unimplemented State.reset.params (0x007 : BitVec 12).toNat := by decide

theorem witness_HostWriteLeavesTheOtherRegisters :
    let s := withQueue State.reset [.write 0x001 8]
    s.params.Legal ∧ Memory.wf s.fb ∧ regAt s.params (0x001 : BitVec 12).toNat = some .status ∧
    Reg.status ≠ .cmd ∧ regAt s.params 0x9FD = some (.desc 63 .defaultRaw) ∧ Reg.desc 63 .defaultRaw ≠ .status := by
  decide

theorem witness_StatusAndResultWrites :
    Live (withQueue pair [.write 1 8]) ∧ (withQueue pair [.write 1 8]).pending = .write 1 8 :: [] ∧
    (withQueue pair [.write 2 8]).pending = .write 2 8 :: [] := by decide

theorem witness_EventsAreServedInOrder :
    pair.pending = [] ∧ (withQueue pair [.read 5, .read 6]).pending = .read 5 :: [.read 6] ∧
    step (withQueue pair [.read 5, .read 6]) = .next { pair with pending := [.read 6], answers := [.data 0] } :=
  ⟨rfl, rfl, rfl⟩

theorem witness_BusAccessesMoveWholeRegisters :
    (8 * (0xFFF : BitVec 12).toNat = 32760) ∧ ((4 : Nat) ≠ 8) ∧ (12 % 8 ≠ 0) ∧ 8 * 4096 ≤ 32768 := by decide

/-- The hypotheses of each clause of `FailsInOrder`: for a format-S command, a buffer command, PACK. -/
theorem witness_FailsInOrder :
    frozen.status.fatal = true ∧
    (Live pair ∧ BadSignal (.fldRead 2) pair ∧ BadSignal (.rangeRaw 255) pair) ∧
    (Live noBuffer ∧ ¬ BadSignal (.fldRead 1) noBuffer ∧ MissingReference (.fldRead 1) noBuffer ∧
      MissingReference .pack { pair with ctrl := { bufcap := 8, bufv := true, valv := false } }) ∧
    (Live shortBuffer ∧ ¬ BadSignal .unpack shortBuffer ∧ ¬ MissingReference .unpack shortBuffer ∧
      ShortBuffer .unpack shortBuffer) ∧
    (Live tooMany ∧ ArgumentsOk .init tooMany ∧ ¬ CountOk tooMany) ∧
    (Live tooLong ∧ ArgumentsOk .pack tooLong ∧ CountOk tooLong ∧ usesBuffer .pack = true ∧ ¬ FrameOk tooLong) := by
  refine ⟨rfl, ⟨rfl, ⟨2, rfl, by decide⟩, ⟨255, rfl, by decide⟩⟩, ⟨rfl, ?_, by decide, by decide⟩,
    ⟨rfl, ?_, by decide, by decide⟩, ⟨rfl, ⟨?_, by decide, by decide⟩, by decide⟩,
    rfl, ⟨?_, by decide, by decide⟩, by decide, rfl, by decide⟩
  all_goals
    rintro ⟨k, hk, h⟩
    cases hk
    try exact h (by decide)

/-- A descriptor that fails by each cause, with every descriptor below it good. -/
theorem witness_FailsInOrder_descriptor :
    (Live badField ∧ ArgumentsOk (.toSigned 0) badField ∧ CountOk badField ∧ Asserts (.toSigned 0) badField 0 ∧
      ¬ DescriptorOk (.toSigned 0) badField 0) ∧
    (Live badPlace ∧ ArgumentsOk .unpack badPlace ∧ CountOk badPlace ∧ FrameOk badPlace ∧
      Asserts .unpack badPlace 1 ∧ ¬ DescriptorOk .unpack badPlace 1 ∧
      ∀ j, j < 1 → Asserts .unpack badPlace j → DescriptorOk .unpack badPlace j) ∧
    (Live badScale ∧ ArgumentsOk .packP badScale ∧ CountOk badScale ∧ FrameOk badScale ∧
      Asserts .packP badScale 1 ∧ ¬ DescriptorOk .packP badScale 1 ∧
      ∀ j, j < 1 → Asserts .packP badScale j → DescriptorOk .packP badScale j) := by
  refine ⟨⟨rfl, ⟨?_, by decide, by decide⟩, by decide, by decide, by decide⟩,
    ⟨rfl, ⟨?_, by decide, by decide⟩, by decide, by decide, by decide, by decide, by decide⟩,
    rfl, ⟨?_, by decide, by decide⟩, by decide, by decide, by decide, by decide, by decide⟩
  all_goals
    rintro ⟨k, hk, h⟩
    cases hk
    try exact h (by decide)

theorem witness_FirstFailureIsTheOneReported :
    (frozen.status.fatal = true ∧ (0x52 : Word) ≠ 1) ∧
    (Live pair ∧ ∀ i, decodeWord 2 ≠ .ok i) ∧
    (decodeWord 0x52 = .ok .pack ∧ Instr.pack ≠ .nop ∧ Instr.pack ≠ .sreset ∧ ArgumentsOk .pack pair ∧
      CountOk pair ∧ FrameOk pair ∧ ∀ j, Asserts .pack pair j → DescriptorOk .pack pair j) := by
  refine ⟨by decide, ⟨rfl, fun i h => ?_⟩, by decide, by decide, by decide, ⟨?_, by decide, by decide⟩, by decide,
    by decide, ?_⟩
  · have hd : decodeWord 2 = .error (.unknownOpcode 2) := by decide
    rw [hd] at h
    cases h
  · rintro ⟨k, hk, -⟩
    cases hk
  · intro j h
    have hj : j < 2 := h.elim (fun hk => by cases hk) (fun hk => hk.2.2.2)
    have hall : ∀ j, j < 2 → DescriptorOk .pack pair j := by decide
    exact hall j hj

/-- One state for each cause of R144, boundary signals included. -/
theorem witness_LayoutFaultIsPrecise :
    (badField.params.Legal ∧ Live badField ∧ exec .init badField = .next (badField.faulted 1 0)) ∧
    (exec .unpack badPlace = .next (badPlace.faulted 2 1)) ∧ (exec .packP badScale = .next (badScale.faulted 3 1)) ∧
    (exec .init tooMany = .next (tooMany.faulted 4 0)) ∧ (exec .pack tooLong = .next (tooLong.faulted 5 0)) ∧
    (badField.faulted 1 0).status.fatal = true :=
  ⟨⟨by decide, rfl, rfl⟩, rfl, rfl, rfl, rfl, rfl⟩

theorem witness_ErrorValuesLeaveTheRest :
    (Live pair ∧ exec (.fldRead 2) pair = .next (pair.withErr .argument) ∧ Live (pair.withErr .argument) ∧
      (pair.withErr .argument).status.err ≠ .ok) ∧
    (Live shortBuffer ∧ exec .pack shortBuffer = .next (shortBuffer.failed .pack .capacity)) :=
  ⟨⟨rfl, rfl, rfl, by decide⟩, rfl, rfl⟩

/-- One state for each of the five outcomes of R140. -/
theorem witness_CommandsHaveFiveOutcomes :
    runCommand 0 frozen = .next frozen ∧ runCommand 2 pair = .next (pair.withErr .illegal) ∧
    runCommand 0x210 pair = .next (pair.withErr .argument) ∧
    runCommand 0x50 badField = .next (badField.faulted 1 0) ∧ runCommand 0 pair = .next pair :=
  ⟨rfl, rfl, rfl, rfl, rfl⟩

theorem witness_FatalStateFreezesTheEngine :
    frozen.status.fatal = true ∧
    regAt frozen.params (5 : BitVec 12).toNat = some .xr ∧ ¬ ((5 : BitVec 12) = 0 ∧ (1 : Word) = 1) ∧
    regAt frozen.params (0 : BitVec 12).toNat = some .cmd ∧ ¬ ((0 : BitVec 12) = 0 ∧ (0 : Word) = 1) ∧
    regAt frozen.params (7 : BitVec 12).toNat = none ∧
    (withQueue frozen [.write 0 1]).pending = .write 0 1 :: [] ∧
    (after .sreset frozen fun t => t.status.fatal) = some false := by decide

theorem witness_NopWritesOnlyErr : Live pair ∧ frozen.status.fatal = true := by decide

theorem witness_HardwareResetLeavesAnyStorage :
    let c : Storage := { fb := [1, 2], raw := [3], phys := [], desc := [Descriptor.blank] }
    (withQueue pair [.hardReset c]).pending = .hardReset c :: [] ∧ 7 < pair.params.maxb ∧ 1 < pair.params.nsigMax := by
  decide

theorem witness_ResetStateGuarantees :
    ResetRegisters { pair with msg := MsgReg.zero, ctrl := CtrlReg.zero } ∧
    (Instr.fldRead 0).signal? = some 0 ∧ (Instr.rangePhys 255).signal? = some 255 := by decide

/-- A live, a fatal and a stepping state that meet the invariant. -/
theorem witness_EveryStepKeepsTheInvariant :
    Inv pair ∧ Inv frozen ∧ step (withQueue pair [.write 2 1]) = .next { pair with answers := [.done] } ∧
    Inv (withQueue pair [.write 2 1]) := ⟨by decide, by decide, rfl, by decide⟩

/-- The premises of FLD_READ, FLD_WRITE, TO_SIGNED, TO_UBITS, DECODE, ENCODE, RANGE_RAW, RANGE_PHYS (the last signal of
the layout; a field of all 64 bits that fills the frame; one of one bit). -/
theorem witness_oneSignal :
    (Live pair ∧ SignalOk pair 1 ∧ BufferOk pair ∧ CountOk pair ∧ FrameOk pair ∧ FieldOk (pair.descAt 1) ∧
      PlaceOk pair.msg.lengthBytes.toNat (pair.descAt 1) ∧ XformOk (pair.descAt 1) ∧ Memory.wf pair.fb ∧
      pair.status.sat = false) ∧
    (let s := tiny (dsc .bigEndian 7 64 true 1 0) (dsc .littleEndian 63 1 false 1 0)
     PlaceOk s.msg.lengthBytes.toNat (s.descAt 0) ∧ FieldOk (s.descAt 0) ∧
      PlaceOk s.msg.lengthBytes.toNat (s.descAt 1) ∧ FieldOk (s.descAt 1)) := by decide

theorem witness_AccessorLaws :
    FieldOk (pair.descAt 0) ∧ FieldOk (pair.descAt 1) ∧ Memory.wf bytes1to8 ∧
    DisjointFields (pair.descAt 0) (pair.descAt 1) := by decide

/-- A little-endian and a big-endian field that end with the frame. -/
theorem witness_WholeFrameClosedForms :
    (let d := dsc .littleEndian 63 1 false 1 0; FieldOk d ∧ d.byteOrder = .littleEndian ∧ PlaceOk 8 d) ∧
    (let d := dsc .bigEndian 7 64 false 1 0; FieldOk d ∧ d.byteOrder = .bigEndian ∧ PlaceOk 8 d) := by decide

/-- The ends of the representable range, and integers beyond it. -/
theorem witness_MaskAndExtendLaws :
    FieldOk (dsc .littleEndian 0 12 true 1 0) ∧ Representable (dsc .littleEndian 0 12 true 1 0) (-2048) ∧
    Representable (dsc .littleEndian 0 12 true 1 0) 2047 ∧ ¬ Representable (dsc .littleEndian 0 12 true 1 0) 2048 ∧
    Representable (dsc .littleEndian 0 64 false 1 0) (2 ^ 64 - 1) ∧ FieldOk (dsc .littleEndian 0 64 false 1 0) := by
  decide

theorem witness_RoundHalfAwayFromZero : (-2 : Int) ≠ 0 ∧ RoundsTo 5 (-2) (-3) ∧ ¬ RoundsTo 5 (-2) (-2) := by decide

theorem witness_EncodeUndoesDecode :
    let d := dsc .littleEndian 0 12 true (-5) 100
    d.scale ≠ 0 ∧ (dec d (-2048)).2 = false ∧
    (after (.decode 0) pair fun t => t.status.sat) = some false := by decide

theorem witness_EncodeThenDecodeQuantises :
    let d := dsc .littleEndian 0 12 true (-4) 100
    d.scale ≠ 0 ∧ (dec d (enc d 98)).2 = false ∧ |(98 : Int) - (100 + -4 * 0)| = |(98 : Int) - (100 + -4 * 1)| := by
  decide

/-- Explicit bounds, and the two default ranges. -/
theorem witness_BoundsDefaultToTheRepresentableRange :
    FieldOk (dsc .littleEndian 0 64 true 1 0) ∧
    BoundsOf { dsc .littleEndian 0 12 true 1 0 with hasBounds := true, rawMin := 0xFFFFFFFFFFFFFF9C, rawMax := 100 }
      (-100) 100 ∧
    BoundsOf (dsc .littleEndian 0 64 true 1 0) (-2 ^ 63) (2 ^ 63 - 1) ∧
    BoundsOf (dsc .littleEndian 0 6 false 1 0) 0 63 := by decide

theorem witness_OnlyRangeCommandsReadTheBounds :
    isRange .packP = false ∧
    [{ pair.descAt 0 with hasBounds := true, rawMin := 1, rawMax := 2 }, pair.descAt 1].map stripBounds =
      pair.desc.map stripBounds := by decide

/-- The premises of the six frame commands, of the round trip and of the default initialisation. -/
theorem witness_frameCommands :
    Live pair ∧ Sized pair ∧ BufferOk pair ∧ pair.ctrl.valv = true ∧ InitLayoutOk pair ∧ FrameLayoutOk pair ∧
    AllXformOk pair ∧ Memory.wf pair.fb ∧ SignalOk pair 1 ∧ ¬ SignalOk pair 2 ∧
    Representable (pair.descAt 0) (rawInt (pair.descAt 0) (pair.rawAt 0)) ∧
    Representable (pair.descAt 1) (rawInt (pair.descAt 1) (pair.rawAt 1)) ∧
    (pair.descAt 0).defaultRaw = 0 ∧ (pair.descAt 0).offset = 0 := by decide

theorem witness_PackThenUnpackRoundTrip : Machine.Disjoint pair := by decide

/-- Two overlapping fields: the bits only signal 1 has the last word on, and a place in no field. -/
theorem witness_PackBuildsTheFrameFromRaw :
    let s := tiny (dsc .littleEndian 0 8 false 1 0) (dsc .littleEndian 4 8 false 1 0)
    FrameLayoutOk s ∧ Covers (s.descAt 1) (bitPlace (s.descAt 0) 4) ∧ ¬ Covers (s.descAt 1) (bitPlace (s.descAt 0) 3) ∧
    ¬ Covers (s.descAt 0) (1, 4) ∧ ¬ Covers (s.descAt 1) (1, 4) ∧ s.msg.lengthBytes.toNat ≤ 8 := by decide

theorem witness_PackedFrameForgetsTheOldBuffer :
    let s := { pair with msg := { lengthBytes := 4, numSignals := 2 } }
    Live s ∧ BufferOk s ∧ s.ctrl.valv = true ∧ FrameLayoutOk s ∧ AllXformOk s ∧ Memory.wf s.fb ∧
    Memory.wf [(3, 0xFF), (7, 0xFF)] ∧ ¬ Covers (s.descAt 0) (2, 0) ∧ ¬ Covers (s.descAt 1) (2, 0) := by decide

/-- The two signals swapped, with their RAW entries. -/
theorem witness_DescriptorOrderDoesNotMatter :
    let s' := { pair with desc := [pair.descAt 1, pair.descAt 0], raw := [pair.rawAt 1, pair.rawAt 0] }
    let f (i : Nat) := 1 - i
    s' = { pair with desc := s'.desc, raw := s'.raw } ∧
    (∀ i, i < 2 → SignalOk pair (f i) ∧ s'.descAt i = pair.descAt (f i) ∧ s'.rawAt i = pair.rawAt (f i)) ∧
    (∀ i, i < 2 → ∀ j, j < 2 → f i = f j → i = j) ∧ (∀ j, j < 2 → f (f j) = j) ∧
    SignalOk pair 0 ∧ SignalOk pair 1 ∧ DisjointFields (pair.descAt 0) (pair.descAt 1) := by decide

theorem witness_UnpackIsIdempotent : Instr.fldRead 1 ∈ [Instr.unpack, .unpackP, .fldRead 1] := by decide

theorem witness_CapacityIsEnforcedAndRecoverable :
    Live shortBuffer ∧ shortBuffer.ctrl.bufv = true ∧ shortBuffer.ctrl.valv = true ∧
    1 ≤ shortBuffer.msg.lengthBytes.toNat ∧ shortBuffer.ctrl.bufcap.toNat = shortBuffer.msg.lengthBytes.toNat - 1 ∧
    shortBuffer.msg.lengthBytes.toNat ≤ (8 : BitVec 8).toNat ∧ FrameLayoutOk shortBuffer ∧ AllXformOk shortBuffer := by
  decide

theorem witness_RawAndPhysAreIndependent :
    regAt pair.params (0x100 : BitVec 12).toNat = some (.raw 0) ∧
    regAt pair.params (0x201 : BitVec 12).toNat = some (.phys 1) := by decide

/-- Each register is written by a command that may write it. -/
theorem witness_EveryCommandStaysInItsWriteSet :
    after .unpack pair State.raw ≠ some pair.raw ∧ after .unpackP pair State.phys ≠ some pair.phys ∧
    after .pack pair State.fb ≠ some pair.fb ∧ after .pack pair State.result ≠ some pair.result ∧
    after (.fldRead 0) pair State.xr ≠ some pair.xr ∧
    after (.decode 1) { pair with xr := 7 } State.xp ≠ some pair.xp ∧
    (after (.rangeRaw 0) pair fun t => t.status.inr) ≠ some pair.status.inr ∧
    (after .init { pair with ctrl := CtrlReg.zero } fun t => t.ctrl.valv) ≠ some false := by decide

/-- A frame of four bytes with other bytes behind it. -/
theorem witness_BytesBeyondTheFrameDoNotMatter :
    let s := { pair with msg := { lengthBytes := 4, numSignals := 2 } }
    let m : Memory := [(0, 1), (1, 2), (2, 3), (3, 4), (4, 0xFF)]
    Memory.wf s.fb ∧ Memory.wf m ∧ (∀ a, a < s.msg.lengthBytes.toNat → fbRead m a = fbRead s.fb a) ∧
    fbRead m 4 ≠ fbRead s.fb 4 := by decide

theorem witness_QuantumEntersNoComputation :
    step (withQueue pair [.write 2 1]) = .next { pair with answers := [.done] } ∧
    step (withQueue pair [.busRead 4 8]) = .refused (.undefinedBusAccess 4 8) := ⟨rfl, rfl⟩

end Sys2Proof.Tests
end

section
/-! PROOFS. The invariant of the state under every event and every command (00_scope.md R6, 10_state.md R22,
20_memory.md R41, 40_bitfield_accessor.md R83, 60_exceptions.md R144, R145): first what each update of the state
does to it, then what each test before a command's effect leaves, then the commands, the port and the step. -/

namespace Sys2Proof.Machine

/-! ### the updates of the state -/

section
variable {s : State}

/-! `Inv` does not mention ERR, INR, SAT, XR, XP, RESULT, CTRL, MSG, the queue or the answers. -/

theorem Inv.setErr (h : Inv s) (e : ErrCode) : Inv (s.setErr e) := h

theorem Inv.setInr (h : Inv s) (b : Bool) : Inv (s.setInr b) := h

theorem Inv.noteSat (h : Inv s) (b : Bool) : Inv (s.noteSat b) := h

theorem Inv.clearSat (h : Inv s) (v : Word) : Inv (s.clearSat v) := h

theorem Inv.setXr (h : Inv s) (w : Word) : Inv (s.setXr w) := h

theorem Inv.setXp (h : Inv s) (w : Word) : Inv (s.setXp w) := h

theorem Inv.setResult (h : Inv s) (w : Word) : Inv (s.setResult w) := h

theorem Inv.setValv (h : Inv s) : Inv s.setValv := h

theorem Inv.setCtrl (h : Inv s) (c : CtrlReg) : Inv { s with ctrl := c } := h

theorem Inv.setMsg (h : Inv s) (m : MsgReg) : Inv { s with msg := m } := h

theorem Inv.setPending (h : Inv s) (q : List PortEvent) : Inv { s with pending := q } := h

theorem Inv.answer (h : Inv s) (a : PortAnswer) : Inv (s.answer a) := h

theorem Inv.setRaw (h : Inv s) (i : Nat) (w : Word) : Inv (s.setRaw i w) := by
  obtain ⟨hp, ⟨hraw, hphys, hdesc⟩, hfb⟩ := h
  exact ⟨hp, ⟨by simpa using hraw, hphys, hdesc⟩, hfb⟩

theorem Inv.setPhys (h : Inv s) (i : Nat) (w : Word) : Inv (s.setPhys i w) := by
  obtain ⟨hp, ⟨hraw, hphys, hdesc⟩, hfb⟩ := h
  exact ⟨hp, ⟨hraw, by simpa using hphys, hdesc⟩, hfb⟩

theorem Inv.setDesc (h : Inv s) (i : Nat) (d : Descriptor) : Inv (s.setDesc i d) := by
  obtain ⟨hp, ⟨hraw, hphys, hdesc⟩, hfb⟩ := h
  exact ⟨hp, ⟨hraw, hphys, by simpa using hdesc⟩, hfb⟩

/-- A buffer put in place of FB must be canonical and list existing bytes only (R41). -/
theorem Inv.setFb (h : Inv s) {m : Memory} (hwf : Memory.wf m) (hlt : ∀ c ∈ m, c.1 < s.params.maxb) :
    Inv (s.setFb m) := by
  obtain ⟨hp, hsize, -, -, hstatus⟩ := h
  exact ⟨hp, hsize, hwf, hlt, hstatus⟩

/-- A reset clears FATAL together with FSIG and FCAUSE (R29, R131). -/
theorem Inv.softReset (h : Inv s) : Inv s.softReset := by
  obtain ⟨hp, hsize, hwf, hlt, -⟩ := h
  exact ⟨hp, hsize, hwf, hlt, fun _ => ⟨rfl, rfl⟩, fun hf => absurd hf Bool.false_ne_true⟩

/-- Whatever a hardware reset leaves in the storage has the storage's size (R160). -/
theorem Inv.hardReset (h : Inv s) (c : Storage) : Inv (s.hardReset c) := by
  obtain ⟨hp, -, -, -, hstatus⟩ := h.softReset
  refine ⟨hp, ⟨fitTo_length _ _ _, fitTo_length _ _ _, fitTo_length _ _ _⟩, fbOfBytes_wf _, ?_, hstatus⟩
  intro b hb
  have hlen : (c.fb.take s.params.maxb).length ≤ s.params.maxb := List.length_take_le _ _
  exact Nat.lt_of_lt_of_le (fbOfBytes_lt _ b hb) hlen

/-- FCAUSE is one of the five causes (R144). -/
theorem LayoutCause.code_bounds (c : LayoutCause) : 1 ≤ c.code.toNat ∧ c.code.toNat ≤ 5 := by
  cases c <;> decide

/-- A layout fault that names a signal of the table leaves a STATUS the rules allow (R145). -/
theorem Inv.raiseLayoutFault (h : Inv s) {f : LayoutFault} (hf : f.sig < s.params.nsigMax) :
    Inv (s.raiseLayoutFault f) := by
  obtain ⟨hp, hsize, hwf, hlt, -⟩ := h
  obtain ⟨hlow, hhigh⟩ := f.cause.code_bounds
  have hsig : (BitVec.ofNat 8 f.sig).toNat < s.params.nsigMax :=
    Nat.lt_of_le_of_lt (BitVec.toNat_ofNat f.sig 8 ▸ Nat.mod_le _ _) hf
  exact ⟨hp, hsize, hwf, hlt, fun hn => absurd hn.symm Bool.false_ne_true, fun _ => ⟨hlow, hhigh, hsig⟩⟩

end

/-! ### the signal a layout fault names -/

section
variable {s : State} {i : Nat}

/-- If the assertion fails, it names signal 0 or a signal of the layout (R145). -/
def NamesSignal (s : State) (c : Option LayoutFault) : Prop := ∀ f, c = some f → f.sig = 0 ∨ SignalOk s f.sig

theorem namesSignal_ite {p : Prop} [Decidable p] {f : LayoutFault} (hf : f.sig = 0 ∨ SignalOk s f.sig) :
    NamesSignal s (if p then some f else none) := by
  intro g hg
  split at hg <;> cases hg
  exact hf

theorem assertFrame_namesSignal (s : State) : NamesSignal s (assertFrame s) := namesSignal_ite (.inl rfl)

theorem assertField_namesSignal (h : SignalOk s i) : NamesSignal s (assertField s i) := namesSignal_ite (.inr h)

theorem assertPlace_namesSignal (h : SignalOk s i) : NamesSignal s (assertPlace s i) := namesSignal_ite (.inr h)

theorem assertXform_namesSignal (h : SignalOk s i) : NamesSignal s (assertXform s i) := namesSignal_ite (.inr h)

theorem assertEach_namesSignal {checks : Nat → List (Option LayoutFault)}
    (h : ∀ i, SignalOk s i → ∀ c ∈ checks i, NamesSignal s c) : ∀ c ∈ assertEach s checks, NamesSignal s c := by
  intro c hc
  obtain ⟨i, hi, hc⟩ := List.mem_flatMap.mp hc
  exact h i (List.mem_range.mp hi) c hc

/-- Cause 4 is asserted first, so every later assertion names a signal below NUM_SIGNALS ≤ NSIG_MAX (R144, R146). -/
theorem firstFault_sig_lt {rest : List (Option LayoutFault)} {f : LayoutFault} (hn : 1 ≤ s.params.nsigMax)
    (hrest : ∀ c ∈ rest, NamesSignal s c) (h : firstFault (assertMsg s :: rest) = some f) :
    f.sig < s.params.nsigMax := by
  by_cases hcount : CountOk s
  · rw [assertMsg_none.mpr hcount] at h
    rcases hrest _ (firstFault_mem h) f rfl with hzero | hsig
    · omega
    · exact Nat.lt_of_lt_of_le hsig hcount
  · have hlt : s.params.nsigMax < s.numSignals := Nat.lt_of_not_le hcount
    rw [assertMsg, if_pos hlt] at h
    cases h
    exact hn

/-- The assertions of FLD_READ and FLD_WRITE (R84, R85). -/
theorem fieldChecks_none :
    firstFault [assertMsg s, assertFrame s, assertField s i, assertPlace s i] = none ↔
      CountOk s ∧ FrameOk s ∧ FieldOk (s.descAt i) ∧ PlaceOk s.msg.lengthBytes.toNat (s.descAt i) := by
  simp only [firstFault_none, List.forall_mem_cons, List.not_mem_nil, false_implies, implies_true, and_true,
    assertMsg_none, assertFrame_none, assertField_none, assertPlace_none]

end

/-! ### what the tests before a command's effect leave (R146) -/

section
variable {P : State → Prop} {s onErr : State} {k : Result} {i : Nat}

/-- If the result is a next state, `P` holds of it. -/
def Leaves (P : State → Prop) (r : Result) : Prop := ∀ t, r = .next t → P t

theorem leaves_next (h : P s) : Leaves P (.next s) := by
  rintro t ⟨⟩
  exact h

theorem leaves_inv_succeed (h : Inv s) : Leaves Inv (succeed s) := leaves_next (h.setErr .ok)

theorem leaves_whenLive (hs : P s) (hk : Leaves P k) : Leaves P (whenLive s k) := by
  intro t h
  rcases whenLive_next h with ⟨-, rfl⟩ | ⟨-, h⟩
  · exact hs
  · exact hk t h

theorem leaves_requireSignal (he : P (onErr.setErr .argument)) (hk : SignalOk s i → Leaves P k) :
    Leaves P (requireSignal s i onErr k) := by
  intro t h
  rcases requireSignal_next h with ⟨-, rfl⟩ | ⟨hi, h⟩
  · exact he
  · exact hk hi t h

theorem leaves_requireBuffer (he : P (onErr.setErr .argument)) (hk : Leaves P k) :
    Leaves P (requireBuffer s onErr k) := by
  intro t h
  rcases requireBuffer_next h with ⟨-, rfl⟩ | ⟨-, h⟩
  · exact he
  · exact hk t h

theorem leaves_requireBufferAndValues (he : P (onErr.setErr .argument)) (hk : Leaves P k) :
    Leaves P (requireBufferAndValues s onErr k) := by
  intro t h
  rcases requireBufferAndValues_next h with ⟨-, rfl⟩ | ⟨-, -, h⟩
  · exact he
  · exact hk t h

theorem leaves_requireCapacity (he : P (onErr.setErr .capacity)) (hk : Leaves P k) :
    Leaves P (requireCapacity s onErr k) := by
  intro t h
  rcases requireCapacity_next h with ⟨-, rfl⟩ | ⟨-, h⟩
  · exact he
  · exact hk t h

theorem leaves_guardBytes {bytes : List Nat} (hk : Leaves P k) : Leaves P (guardBytes s bytes k) :=
  fun t h => hk t (guardBytes_next h).2

/-- The assertion pass keeps the invariant when it names signals of the layout only. -/
theorem leaves_inv_asserting {rest : List (Option LayoutFault)} (hs : Inv s)
    (hrest : ∀ c ∈ rest, NamesSignal s c) (hk : firstFault (assertMsg s :: rest) = none → Leaves Inv k) :
    Leaves Inv (asserting s (assertMsg s :: rest) k) := by
  obtain ⟨⟨-, -, -, hn, -⟩, -⟩ := id hs
  intro t h
  rcases asserting_next h with ⟨f, hf, rfl⟩ | ⟨hnone, h⟩
  · exact hs.raiseLayoutFault (firstFault_sig_lt hn hrest hf)
  · exact hk hnone t h

theorem leaves_inv_onField (hs : Inv s)
    (hk : FrameOk s → PlaceOk s.msg.lengthBytes.toNat (s.descAt i) → Leaves Inv k) :
    Leaves Inv (onField i s k) := by
  refine leaves_whenLive hs <| leaves_requireSignal hs fun hi => leaves_requireBuffer hs <|
    leaves_requireCapacity hs <| leaves_inv_asserting hs ?_ fun hnone => leaves_guardBytes ?_
  · simp [assertFrame_namesSignal, assertField_namesSignal hi, assertPlace_namesSignal hi]
  · obtain ⟨-, hframe, -, hplace⟩ := fieldChecks_none.mp hnone
    exact hk hframe hplace

theorem leaves_inv_onWidth (hs : Inv s) (hk : Leaves Inv k) : Leaves Inv (onWidth i s k) := by
  refine leaves_whenLive hs <| leaves_requireSignal hs fun hi => leaves_inv_asserting hs ?_ fun _ => hk
  simp [assertField_namesSignal hi]

theorem leaves_inv_onTransform (hs : Inv s) (hk : Leaves Inv k) : Leaves Inv (onTransform i s k) := by
  refine leaves_whenLive hs <| leaves_requireSignal hs fun hi => leaves_inv_asserting hs ?_ fun _ => hk
  simp [assertField_namesSignal hi, assertXform_namesSignal hi]

theorem leaves_inv_onPackArguments (hs : Inv s) (hk : Leaves Inv k) : Leaves Inv (onPackArguments s k) :=
  leaves_whenLive hs <| leaves_requireBufferAndValues hs <| leaves_requireCapacity hs hk

theorem leaves_inv_onUnpackArguments (hs : Inv s) (hk : Leaves Inv k) : Leaves Inv (onUnpackArguments s k) :=
  leaves_whenLive hs <| leaves_requireBuffer hs <| leaves_requireCapacity hs hk

end

/-! ### the signal loops (R110 phase 4) -/

section
variable {s : State}

theorem Inv.forSignals {body : Nat → State → State} (hs : Inv s) (hbody : ∀ i t, Inv t → Inv (body i t)) :
    Inv (forSignals s body) :=
  forSignals_induct (P := fun _ t => Inv t) hs fun i t _ ht => hbody i t ht

theorem Inv.decodeSignal (h : Inv s) (i : Nat) (w : Word) : Inv (decodeSignal i w s) := (h.setPhys i _).noteSat _

theorem leaves_inv_produceValues {body : Nat → State → State} (hs : Inv s)
    (hbody : ∀ i t, Inv t → Inv (body i t)) : Leaves Inv (produceValues body s) :=
  leaves_inv_succeed (hs.forSignals hbody).setValv

/-- Writing the placed fields of a frame inside MAXB keeps FB canonical and inside MAXB bytes (R83). -/
theorem Inv.setFb_writeFields (hs : Inv s) (hl : FrameLayoutOk s) (v : Nat → Word) :
    Inv (s.setFb (writeFields s v s.msg.numSignals.toNat s.fb)) := by
  obtain ⟨-, -, hwf, hlt, -⟩ := id hs
  obtain ⟨-, hframe, hfield⟩ := hl
  refine hs.setFb (writeFields_spec s v _ s.fb hwf).1 (writeFields_lt s v _ _ s.fb hlt fun i hi => ?_)
  exact Nat.le_trans (hfield i hi).2 (Nat.mul_le_mul_left 8 hframe)

/-- PACK and PACK.P: a zero-fill inside the frame, then the fields of the layout (R113, R115). -/
theorem leaves_inv_packWith {body : Nat → State → State} {v : State → Nat → Word} (hs : Inv s)
    (hl : FrameLayoutOk s)
    (hbody : ∀ t, forSignals t body = t.setFb (writeFields t (v t) t.msg.numSignals.toNat t.fb)) :
    Leaves Inv (packWith body s) := by
  obtain ⟨-, -, hwf, hlt, -⟩ := id hs
  have hfilled : Inv (s.setFb (fbZero s.fb s.frameBytes)) := hs.setFb (fbZero_wf _ hwf) (fbZero_lt hlt hl.2.1)
  refine leaves_inv_succeed (Inv.setResult ?_ _)
  rw [hbody]
  exact hfilled.setFb_writeFields hl _

end

/-! ### the commands -/

section
variable {s : State}

theorem execFldWrite_leaves_inv (sig : Nat) (hs : Inv s) : Leaves Inv (execFldWrite sig s) := by
  obtain ⟨-, -, hwf, hlt, -⟩ := id hs
  refine leaves_inv_onField hs fun hframe hplace => leaves_inv_succeed ?_
  refine hs.setFb (fldWrite_spec _ _ _ hwf).1 (fldWrite_lt _ _ hlt fun w hw => ?_)
  exact Nat.lt_of_lt_of_le (bitPlace_byte_lt _ hplace hw) hframe

theorem execRangeRaw_leaves_inv (sig : Nat) (hs : Inv s) : Leaves Inv (execRangeRaw sig s) := by
  refine leaves_whenLive hs <| leaves_requireSignal (hs.setInr false) fun hi =>
    leaves_inv_asserting hs ?_ fun _ => leaves_inv_succeed (hs.setInr _)
  simp [assertField_namesSignal hi]

theorem execRangePhys_leaves_inv (sig : Nat) (hs : Inv s) : Leaves Inv (execRangePhys sig s) := by
  refine leaves_whenLive hs <| leaves_requireSignal (hs.setInr false) fun hi =>
    leaves_inv_asserting hs ?_ fun _ => leaves_inv_succeed (hs.setInr _)
  simp [assertField_namesSignal hi, assertXform_namesSignal hi]

theorem execInit_leaves_inv (hs : Inv s) : Leaves Inv (execInit s) := by
  refine leaves_whenLive hs <| leaves_inv_asserting hs (assertEach_namesSignal fun i hi => ?_) fun _ =>
    leaves_inv_produceValues hs fun i t ht => ht.setRaw i _
  simp [assertField_namesSignal hi]

theorem execInitP_leaves_inv (hs : Inv s) : Leaves Inv (execInitP s) := by
  refine leaves_whenLive hs <| leaves_inv_asserting hs (assertEach_namesSignal fun i hi => ?_) fun _ =>
    leaves_inv_produceValues hs fun i t ht => (ht.setRaw i _).decodeSignal i _
  simp [assertField_namesSignal hi, assertXform_namesSignal hi]

/-- What PACK and UNPACK assert names signals of the layout only. -/
theorem frameChecks_namesSignal (s : State) :
    ∀ c ∈ assertFrame s :: assertEach s fun i => [assertField s i, assertPlace s i], NamesSignal s c :=
  List.forall_mem_cons.mpr ⟨assertFrame_namesSignal s, assertEach_namesSignal fun i hi => by
    simp [assertField_namesSignal hi, assertPlace_namesSignal hi]⟩

/-- What PACK.P and UNPACK.P assert names signals of the layout only. -/
theorem framePChecks_namesSignal (s : State) :
    ∀ c ∈ assertFrame s :: assertEach s fun i => [assertField s i, assertPlace s i, assertXform s i],
      NamesSignal s c :=
  List.forall_mem_cons.mpr ⟨assertFrame_namesSignal s, assertEach_namesSignal fun i hi => by
    simp [assertField_namesSignal hi, assertPlace_namesSignal hi, assertXform_namesSignal hi]⟩

theorem execPack_leaves_inv (hs : Inv s) : Leaves Inv (execPack s) :=
  leaves_inv_onPackArguments hs <| leaves_inv_asserting hs (frameChecks_namesSignal s) fun hnone =>
    leaves_guardBytes <| leaves_inv_packWith hs (frameChecks_none.mp hnone) forSignals_pack

theorem execPackP_leaves_inv (hs : Inv s) : Leaves Inv (execPackP s) :=
  leaves_inv_onPackArguments hs <| leaves_inv_asserting hs (framePChecks_namesSignal s) fun hnone =>
    leaves_guardBytes <| leaves_inv_packWith hs (framePChecks_none.mp hnone).1 forSignals_packP

theorem execUnpack_leaves_inv (hs : Inv s) : Leaves Inv (execUnpack s) :=
  leaves_inv_onUnpackArguments hs <| leaves_inv_asserting hs (frameChecks_namesSignal s) fun _ =>
    leaves_guardBytes <| leaves_inv_produceValues hs fun i _ ht => ht.setRaw i _

theorem execUnpackP_leaves_inv (hs : Inv s) : Leaves Inv (execUnpackP s) :=
  leaves_inv_onUnpackArguments hs <| leaves_inv_asserting hs (framePChecks_namesSignal s) fun _ =>
    leaves_guardBytes <| leaves_inv_produceValues hs fun i _ ht => (ht.setRaw i _).decodeSignal i _

/-- Every command keeps the invariant. -/
theorem exec_leaves_inv (i : Instr) (hs : Inv s) : Leaves Inv (exec i s) := by
  cases i with
  | nop => exact leaves_whenLive hs (leaves_inv_succeed hs)
  | sreset => exact leaves_next hs.softReset
  | fldRead sig => exact leaves_inv_onField hs fun _ _ => leaves_inv_succeed (hs.setXr _)
  | fldWrite sig => exact execFldWrite_leaves_inv sig hs
  | toSigned sig => exact leaves_inv_onWidth hs (leaves_inv_succeed (hs.setXr _))
  | toUbits sig => exact leaves_inv_onWidth hs (leaves_inv_succeed (hs.setXr _))
  | decode sig => exact leaves_inv_onTransform hs (leaves_inv_succeed ((hs.setXp _).noteSat _))
  | encode sig => exact leaves_inv_onTransform hs (leaves_inv_succeed (hs.setXr _))
  | rangeRaw sig => exact execRangeRaw_leaves_inv sig hs
  | rangePhys sig => exact execRangePhys_leaves_inv sig hs
  | init => exact execInit_leaves_inv hs
  | initP => exact execInitP_leaves_inv hs
  | pack => exact execPack_leaves_inv hs
  | packP => exact execPackP_leaves_inv hs
  | unpack => exact execUnpack_leaves_inv hs
  | unpackP => exact execUnpackP_leaves_inv hs

theorem runCommand_leaves_inv (v : Word) (hs : Inv s) : Leaves Inv (runCommand v s) := by
  unfold runCommand
  split
  · exact exec_leaves_inv _ hs
  · exact leaves_whenLive hs (leaves_next (hs.setErr .illegal))

end

/-! ### the port and the step -/

section
variable {s : State}

/-- A register that a number stands for exists (R45, R46). -/
theorem Reg.inRange_of_regAt {p : Params} {n : Nat} {r : Reg} (h : regAt p n = some r) : r.InRange p := by
  have hr := regAt_inRange h
  cases r <;> exact hr

theorem Inv.regWrite (hs : Inv s) {r : Reg} (hr : r.InRange s.params) (v : Word) : Inv (regWrite s r v) := by
  cases r with
  | cmd => exact hs
  | status => exact hs.clearSat v
  | result => exact hs
  | ctrl => exact hs.setCtrl _
  | msg => exact hs.setMsg _
  | xr => exact hs.setXr v
  | xp => exact hs.setXp v
  | fbw k =>
    obtain ⟨-, -, hwf, hlt, -⟩ := id hs
    have hk : k < s.params.maxb / 8 := hr
    exact hs.setFb (fbSetWindow_wf k v hwf) (fbSetWindow_lt v hlt (by omega))
  | raw i => exact hs.setRaw i v
  | phys i => exact hs.setPhys i v
  | desc i w => exact hs.setDesc i _

theorem Inv.hostRead (hs : Inv s) (n : BitVec 12) : Inv (hostRead s n) := by
  unfold Machine.hostRead
  split <;> exact hs.answer _

/-- The state an event hands on, to the engine or to the next step, meets the invariant. -/
def Fetched.MeetsInv : Fetched → Prop
  | .idle => True
  | .command _ t => Inv t
  | .settled t => Inv t
  | .refused _ => True

theorem hostWrite_meetsInv (hs : Inv s) (n : BitVec 12) (v : Word) : (hostWrite s n v).MeetsInv := by
  unfold hostWrite
  split
  · exact hs.answer .portError
  · exact hs.answer .done
  · rename_i r _ hr
    refine Inv.answer ?_ .done
    split
    · exact hs
    · exact hs.regWrite (Reg.inRange_of_regAt hr) v

theorem serve_meetsInv (hs : Inv s) (e : PortEvent) : (serve s e).MeetsInv := by
  cases e with
  | read n => exact hs.hostRead n
  | write n v => exact hostWrite_meetsInv hs n v
  | busRead offset size =>
    simp only [serve]
    split
    · exact hs.hostRead _
    · trivial
  | busWrite offset size v =>
    simp only [serve]
    split
    · exact hostWrite_meetsInv hs _ v
    · trivial
  | hardReset c => exact hs.hardReset c

theorem Fetched.run_leaves_inv (hs : Inv s) {q : Fetched} (hq : q.MeetsInv) : Leaves Inv (q.run s) := by
  cases q with
  | idle => exact leaves_next hs
  | command v t => exact runCommand_leaves_inv v hq
  | settled t => exact leaves_next hq
  | refused r => rintro t ⟨⟩

theorem step_leaves_inv (hs : Inv s) : Leaves Inv (step s) := by
  cases hq : s.pending with
  | nil =>
    rw [step_eq_run, fetch_nil hq]
    exact leaves_next hs
  | cons e rest =>
    rw [step_cons hq]
    exact Fetched.run_leaves_inv hs (serve_meetsInv (hs.setPending rest) e)

end

/-- Settles O26: the parts of the invariant follow each update of the state through the tests, the commands and
the port; FSIG is a signal of the table because cause 4 is asserted before any assertion about a signal. -/
theorem everyStepKeepsTheInvariant : Obligations.EveryStepKeepsTheInvariant :=
  fun _ t hs h => step_leaves_inv hs t h

end Sys2Proof.Machine
end

section
/-! PROOFS. QUANTUM enters no computation (00_scope.md R8): the commands, the port and the step commute with a change
of QUANTUM, since they read MAXB and NSIG_MAX alone of the parameters. -/

namespace Sys2Proof.Machine

/-- The result on the hardware whose QUANTUM is `a / b`. -/
def requantum (a b : Nat) : Result → Result
  | .next s => .next (s.withQuantum a b)
  | .fault f => .fault f
  | .refused r => .refused r

section
variable {s onErr : State} {k k' : Result} {a b i : Nat}

/-! ### the tests before a command's effect (R146)

Each test decides the same way on both hardwares, so it commutes when what follows it does. -/

theorem whenLive_withQuantum (hk : k' = requantum a b k) :
    whenLive (s.withQuantum a b) k' = requantum a b (whenLive s k) := by
  subst hk
  unfold whenLive
  split_ifs <;> rfl

theorem requireSignal_withQuantum (hk : k' = requantum a b k) :
    requireSignal (s.withQuantum a b) i (onErr.withQuantum a b) k' = requantum a b (requireSignal s i onErr k) := by
  subst hk
  have hn : (s.withQuantum a b).numSignals = s.numSignals := rfl
  unfold requireSignal
  rw [hn]
  split_ifs <;> rfl

theorem requireBuffer_withQuantum (hk : k' = requantum a b k) :
    requireBuffer (s.withQuantum a b) (onErr.withQuantum a b) k' = requantum a b (requireBuffer s onErr k) := by
  subst hk
  unfold requireBuffer
  split_ifs <;> rfl

theorem requireBufferAndValues_withQuantum (hk : k' = requantum a b k) :
    requireBufferAndValues (s.withQuantum a b) (onErr.withQuantum a b) k' =
      requantum a b (requireBufferAndValues s onErr k) := by
  subst hk
  unfold requireBufferAndValues
  split_ifs <;> rfl

theorem requireCapacity_withQuantum (hk : k' = requantum a b k) :
    requireCapacity (s.withQuantum a b) (onErr.withQuantum a b) k' = requantum a b (requireCapacity s onErr k) := by
  subst hk
  have hn : (s.withQuantum a b).frameBytes = s.frameBytes := rfl
  unfold requireCapacity
  rw [hn]
  split_ifs <;> rfl

theorem asserting_withQuantum {checks : List (Option LayoutFault)} (hk : k' = requantum a b k) :
    asserting (s.withQuantum a b) checks k' = requantum a b (asserting s checks k) := by
  subst hk
  unfold asserting
  cases firstFault checks <;> rfl

theorem guardBytes_withQuantum {bytes : List Nat} (hk : k' = requantum a b k) :
    guardBytes (s.withQuantum a b) bytes k' = requantum a b (guardBytes s bytes k) := by
  subst hk
  unfold guardBytes
  cases bytes.find? fun b => decide (s.params.maxb ≤ b) <;> rfl

theorem onField_withQuantum (hk : k' = requantum a b k) :
    onField i (s.withQuantum a b) k' = requantum a b (onField i s k) :=
  whenLive_withQuantum <| requireSignal_withQuantum <| requireBuffer_withQuantum <| requireCapacity_withQuantum <|
    asserting_withQuantum <| guardBytes_withQuantum hk

theorem onWidth_withQuantum (hk : k' = requantum a b k) :
    onWidth i (s.withQuantum a b) k' = requantum a b (onWidth i s k) :=
  whenLive_withQuantum <| requireSignal_withQuantum <| asserting_withQuantum hk

theorem onTransform_withQuantum (hk : k' = requantum a b k) :
    onTransform i (s.withQuantum a b) k' = requantum a b (onTransform i s k) :=
  whenLive_withQuantum <| requireSignal_withQuantum <| asserting_withQuantum hk

theorem onPackArguments_withQuantum (hk : k' = requantum a b k) :
    onPackArguments (s.withQuantum a b) k' = requantum a b (onPackArguments s k) :=
  whenLive_withQuantum <| requireBufferAndValues_withQuantum (onErr := s.setResult 0) <|
    requireCapacity_withQuantum (onErr := s.setResult 0) hk

theorem onUnpackArguments_withQuantum (hk : k' = requantum a b k) :
    onUnpackArguments (s.withQuantum a b) k' = requantum a b (onUnpackArguments s k) :=
  whenLive_withQuantum <| requireBuffer_withQuantum <| requireCapacity_withQuantum hk

end

/-! ### the signal loops (R110 phase 4) -/

section
variable {body : Nat → State → State} {a b : Nat}

theorem forSignals_withQuantum (hbody : ∀ i t, body i (t.withQuantum a b) = (body i t).withQuantum a b) (s : State) :
    forSignals (s.withQuantum a b) body = (forSignals s body).withQuantum a b := by
  have hfold : ∀ (l : List Nat) (t : State), l.foldl (fun t i => body i t) (t.withQuantum a b) =
      (l.foldl (fun t i => body i t) t).withQuantum a b := by
    intro l
    induction l with
    | nil => exact fun _ => rfl
    | cons i l ih =>
      intro t
      rw [List.foldl_cons, List.foldl_cons, hbody]
      exact ih (body i t)
  exact hfold _ s

theorem produceValues_withQuantum (hbody : ∀ i t, body i (t.withQuantum a b) = (body i t).withQuantum a b)
    (s : State) : produceValues body (s.withQuantum a b) = requantum a b (produceValues body s) := by
  unfold produceValues
  rw [forSignals_withQuantum hbody]
  rfl

theorem packWith_withQuantum (hbody : ∀ i t, body i (t.withQuantum a b) = (body i t).withQuantum a b) (s : State) :
    packWith body (s.withQuantum a b) = requantum a b (packWith body s) := by
  have hloop := forSignals_withQuantum hbody (s.setFb (fbZero s.fb s.frameBytes))
  exact congrArg (fun t => succeed (t.setResult (BitVec.ofNat 64 s.frameBytes))) hloop

end

/-! ### the commands -/

/-- Every command commutes with a change of QUANTUM. -/
theorem exec_withQuantum (i : Instr) (s : State) (a b : Nat) :
    exec i (s.withQuantum a b) = requantum a b (exec i s) := by
  cases i with
  | nop => exact whenLive_withQuantum rfl
  | sreset => rfl
  | fldRead sig => exact onField_withQuantum rfl
  | fldWrite sig => exact onField_withQuantum rfl
  | toSigned sig => exact onWidth_withQuantum rfl
  | toUbits sig => exact onWidth_withQuantum rfl
  | decode sig => exact onTransform_withQuantum rfl
  | encode sig => exact onTransform_withQuantum rfl
  | rangeRaw sig =>
    exact whenLive_withQuantum <| requireSignal_withQuantum (onErr := s.setInr false) <| asserting_withQuantum rfl
  | rangePhys sig =>
    exact whenLive_withQuantum <| requireSignal_withQuantum (onErr := s.setInr false) <| asserting_withQuantum rfl
  | init =>
    exact whenLive_withQuantum <| asserting_withQuantum <| produceValues_withQuantum (fun _ _ => rfl) s
  | initP =>
    exact whenLive_withQuantum <| asserting_withQuantum <| produceValues_withQuantum (fun _ _ => rfl) s
  | pack =>
    exact onPackArguments_withQuantum <| asserting_withQuantum <| guardBytes_withQuantum <|
      packWith_withQuantum (fun _ _ => rfl) s
  | packP =>
    exact onPackArguments_withQuantum <| asserting_withQuantum <| guardBytes_withQuantum <|
      packWith_withQuantum (fun _ _ => rfl) s
  | unpack =>
    exact onUnpackArguments_withQuantum <| asserting_withQuantum <| guardBytes_withQuantum <|
      produceValues_withQuantum (fun _ _ => rfl) s
  | unpackP =>
    exact onUnpackArguments_withQuantum <| asserting_withQuantum <| guardBytes_withQuantum <|
      produceValues_withQuantum (fun _ _ => rfl) s

theorem runCommand_withQuantum (v : Word) (s : State) (a b : Nat) :
    runCommand v (s.withQuantum a b) = requantum a b (runCommand v s) := by
  unfold runCommand
  cases decodeWord v with
  | ok i => exact exec_withQuantum i s a b
  | error _ => exact whenLive_withQuantum (k := raiseErr .illegal s) rfl

/-! ### the port and the step -/

/-- What the event asks for on the hardware whose QUANTUM is `a / b`. -/
def Fetched.withQuantum (a b : Nat) : Fetched → Fetched
  | .idle => .idle
  | .command v t => .command v (t.withQuantum a b)
  | .settled t => .settled (t.withQuantum a b)
  | .refused r => .refused r

section
variable (s : State) (a b : Nat)

/-- The register map depends on MAXB and NSIG_MAX alone (R45). -/
theorem regAt_withQuantum (n : Nat) : regAt (s.withQuantum a b).params n = regAt s.params n := rfl

theorem regRead_withQuantum (r : Reg) : regRead (s.withQuantum a b) r = regRead s r := by
  cases r <;> rfl

theorem regWrite_withQuantum (r : Reg) (v : Word) :
    regWrite (s.withQuantum a b) r v = (regWrite s r v).withQuantum a b := by
  cases r <;> rfl

theorem hostRead_withQuantum (n : BitVec 12) :
    hostRead (s.withQuantum a b) n = (hostRead s n).withQuantum a b := by
  unfold hostRead
  rw [regAt_withQuantum]
  cases regAt s.params n.toNat with
  | none => rfl
  | some r =>
    simp only [regRead_withQuantum]
    rfl

theorem hostWrite_withQuantum (n : BitVec 12) (v : Word) :
    hostWrite (s.withQuantum a b) n v = (hostWrite s n v).withQuantum a b := by
  unfold hostWrite
  rw [regAt_withQuantum]
  split
  · rfl
  · rfl
  · rw [regWrite_withQuantum]
    split_ifs <;> rfl

theorem serve_withQuantum (e : PortEvent) : serve (s.withQuantum a b) e = (serve s e).withQuantum a b := by
  cases e with
  | read n => exact congrArg Fetched.settled (hostRead_withQuantum s a b n)
  | write n v => exact hostWrite_withQuantum s a b n v
  | busRead offset size =>
    simp only [serve]
    cases busRegister offset size with
    | none => rfl
    | some n => exact congrArg Fetched.settled (hostRead_withQuantum s a b n)
  | busWrite offset size v =>
    simp only [serve]
    cases busRegister offset size with
    | none => rfl
    | some n => exact hostWrite_withQuantum s a b n v
  | hardReset c => rfl

theorem Fetched.run_withQuantum (q : Fetched) :
    (q.withQuantum a b).run (s.withQuantum a b) = requantum a b (q.run s) := by
  cases q with
  | command v t => exact runCommand_withQuantum v t a b
  | _ => rfl

/-- R8: the step commutes with a change of QUANTUM. -/
theorem step_withQuantum : step (s.withQuantum a b) = requantum a b (step s) := by
  cases hq : s.pending with
  | nil =>
    rw [step_eq_run, step_eq_run, fetch_nil hq, fetch_nil (s := s.withQuantum a b) hq]
    rfl
  | cons e rest =>
    rw [step_cons hq, step_cons (s := s.withQuantum a b) hq, ← Fetched.run_withQuantum, ← serve_withQuantum]

end

/-- Settles O58: the step commutes with a change of QUANTUM, whatever it answers. -/
theorem quantumEntersNoComputation : Obligations.QuantumEntersNoComputation := by
  intro s a b
  refine ⟨fun t h => ?_, fun r h => ?_, fun f h => ?_⟩ <;> rw [step_withQuantum s a b, h] <;> rfl

end Sys2Proof.Machine
end

section
/-! PROOFS. The words the host sees (10_state.md R17, R20, R21, R22, R30): a register's word is the OR of its fields,
each put at its place, so the facts about fields in words follow from the facts about one field put at one place. -/

namespace Sys2Proof.Machine

/-! ### one field at its place -/

section
variable {n : Nat}

/-- The word that holds `x` from bit `k` on and 0 in every other bit. -/
def fieldAt (k : Nat) (x : BitVec n) : Word := x.setWidth 64 <<< k

theorem getLsbD_fieldAt (k : Nat) (x : BitVec n) (j : Nat) :
    (fieldAt k x).getLsbD j = (decide (j < 64) && decide (k ≤ j) && x.getLsbD (j - k)) := by
  rw [fieldAt, BitVec.getLsbD_shiftLeft, BitVec.getLsbD_setWidth]
  by_cases hj : j < 64
  · have hsub : j - k < 64 := by omega
    simp [hj, hsub, ← decide_not]
  · simp [hj]

theorem extractLsb'_fieldAt_same (k : Nat) (x : BitVec n) (h : k + n ≤ 64) :
    (fieldAt k x).extractLsb' k n = x := by
  refine BitVec.eq_of_getLsbD_eq fun j hj => ?_
  rw [BitVec.getLsbD_extractLsb', getLsbD_fieldAt, Nat.add_sub_cancel_left, decide_eq_true hj,
    decide_eq_true (show k + j < 64 by omega), decide_eq_true (Nat.le_add_right k j)]
  rfl

/-- A field shows nothing at the places of another field. -/
theorem extractLsb'_fieldAt_other {k lo len : Nat} (x : BitVec n) (h : lo + len ≤ k ∨ k + n ≤ lo) :
    (fieldAt k x).extractLsb' lo len = 0#len := by
  refine BitVec.eq_of_getLsbD_eq fun j hj => ?_
  rw [BitVec.getLsbD_extractLsb', getLsbD_fieldAt, BitVec.getLsbD_zero]
  rcases h with h | h
  · have hk : ¬ k ≤ lo + j := by omega
    simp [hk]
  · rw [BitVec.getLsbD_of_ge x _ (by omega), Bool.and_false, Bool.and_false]

/-- A mask that is 0 at the field's place takes nothing of the field. -/
theorem fieldAt_and_eq_zero {k : Nat} (x : BitVec n) {m : Word} (h : m.extractLsb' k n = 0#n) :
    fieldAt k x &&& m = 0#64 := by
  refine BitVec.eq_of_getLsbD_eq fun j _ => ?_
  rw [BitVec.getLsbD_and, getLsbD_fieldAt, BitVec.getLsbD_zero]
  by_cases hj : k ≤ j ∧ j - k < n
  · have hm : (m.extractLsb' k n).getLsbD (j - k) = false := by rw [h, BitVec.getLsbD_zero]
    rw [BitVec.getLsbD_extractLsb', decide_eq_true hj.2, Bool.true_and, Nat.add_sub_cancel' hj.1] at hm
    rw [hm, Bool.and_false]
  · by_cases hk : k ≤ j
    · rw [BitVec.getLsbD_of_ge x _ (by omega), Bool.and_false, Bool.false_and]
    · simp [hk]

/-- Cutting a field out of a word and putting it back is masking the word. -/
theorem fieldAt_slice (v : Word) (k n : Nat) : fieldAt k (slice v k n) = v &&& fieldAt k (BitVec.allOnes n) := by
  refine BitVec.eq_of_getLsbD_eq fun j _ => ?_
  rw [BitVec.getLsbD_and, getLsbD_fieldAt, getLsbD_fieldAt, slice, BitVec.getLsbD_extractLsb',
    BitVec.getLsbD_allOnes]
  by_cases hk : k ≤ j
  · rw [Nat.add_sub_cancel' hk]
    cases v.getLsbD j <;> simp
  · simp [hk]

/-- A sum that starts a new field above everything it already holds is an OR. -/
theorem ofNat_add_field {k a c : Nat} (x : BitVec n) (hc : c = 2 ^ k) (ha : a < 2 ^ k) :
    BitVec.ofNat 64 (a + c * x.toNat) = BitVec.ofNat 64 a ||| fieldAt k x := by
  subst hc
  refine BitVec.eq_of_getLsbD_eq fun j hj => ?_
  rw [BitVec.getLsbD_or, BitVec.getLsbD_ofNat, BitVec.getLsbD_ofNat, getLsbD_fieldAt, Nat.add_comm a,
    Nat.testBit_two_pow_mul_add _ ha, decide_eq_true hj, Bool.true_and, Bool.true_and, Bool.true_and]
  by_cases hk : k ≤ j
  · have haj : a.testBit j = false :=
      Nat.testBit_lt_two_pow (Nat.lt_of_lt_of_le ha (Nat.pow_le_pow_right (by decide) hk))
    rw [if_neg (by omega), haj, decide_eq_true hk]
    rfl
  · rw [if_pos (by omega), decide_eq_false hk, Bool.false_and, Bool.or_false]

theorem ofNat_toNat_eq_fieldAt (x : BitVec n) : BitVec.ofNat 64 x.toNat = fieldAt 0 x := by
  rw [fieldAt, BitVec.shiftLeft_zero, BitVec.ofNat_toNat]

end

/-! ### fields of one bit, and ERR -/

theorem bit_eq_toNat (b : Bool) : bit b = (BitVec.ofBool b).toNat := by cases b <;> rfl

theorem ofBool_wordBit (v : Word) (k : Nat) : BitVec.ofBool (wordBit v k) = slice v k 1 := by
  refine BitVec.eq_of_getLsbD_eq fun j hj => ?_
  obtain rfl : j = 0 := by omega
  simp [wordBit, slice]

/-- A bit of a word is the slice of one bit there. -/
theorem getLsbD_eq_of_extractLsb' {w : Word} {k : Nat} {b : Bool} (h : w.extractLsb' k 1 = BitVec.ofBool b) :
    w.getLsbD k = b := by
  simpa using congrArg (BitVec.getLsbD · 0) h

/-- The two bits of ERR (R22). -/
def ErrCode.bits (e : ErrCode) : BitVec 2 := BitVec.ofNat 2 e.code

theorem ErrCode.code_eq_toNat (e : ErrCode) : e.code = e.bits.toNat := by cases e <;> rfl

theorem ByteOrder.isBig_ofBit (b : Bool) : (ByteOrder.ofBit b).isBig = b := by cases b <;> rfl

theorem ByteOrder.isBig_iff (o : ByteOrder) : o.isBig = true ↔ o = .bigEndian := by cases o <;> decide

/-! ### the words as fields at their places -/

theorem StatusReg.word_eq (r : StatusReg) :
    r.word = fieldAt 0 r.err.bits ||| fieldAt 2 (BitVec.ofBool r.inr) ||| fieldAt 3 (BitVec.ofBool r.sat) |||
      fieldAt 4 (BitVec.ofBool r.fatal) ||| fieldAt 8 r.fsig ||| fieldAt 16 r.fcause := by
  have herr := r.err.bits.isLt
  have hinr := (BitVec.ofBool r.inr).isLt
  have hsat := (BitVec.ofBool r.sat).isLt
  have hfatal := (BitVec.ofBool r.fatal).isLt
  have hfsig := r.fsig.isLt
  simp only [StatusReg.word, bit_eq_toNat, ErrCode.code_eq_toNat]
  rw [ofNat_add_field (k := 16) (c := 65536) _ rfl (by omega), ofNat_add_field (k := 8) (c := 256) _ rfl (by omega),
    ofNat_add_field (k := 4) (c := 16) _ rfl (by omega), ofNat_add_field (k := 3) (c := 8) _ rfl (by omega),
    ofNat_add_field (k := 2) (c := 4) _ rfl (by omega), ofNat_toNat_eq_fieldAt]

theorem CtrlReg.word_eq (r : CtrlReg) :
    r.word = fieldAt 0 r.bufcap ||| fieldAt 8 (BitVec.ofBool r.bufv) ||| fieldAt 9 (BitVec.ofBool r.valv) := by
  have hcap := r.bufcap.isLt
  have hbufv := (BitVec.ofBool r.bufv).isLt
  simp only [CtrlReg.word, bit_eq_toNat]
  rw [ofNat_add_field (k := 9) (c := 512) _ rfl (by omega),
    ofNat_add_field (k := 8) (c := 256) _ rfl (by omega), ofNat_toNat_eq_fieldAt]

theorem MsgReg.word_eq (r : MsgReg) : r.word = fieldAt 0 r.lengthBytes ||| fieldAt 16 r.numSignals := by
  have hlen := r.lengthBytes.isLt
  rw [MsgReg.word, ofNat_add_field (k := 16) (c := 65536) _ rfl (by omega), ofNat_toNat_eq_fieldAt]

theorem Descriptor.layoutWord_eq (d : Descriptor) :
    d.layoutWord = fieldAt 0 d.startBit ||| fieldAt 16 d.lengthBits ||| fieldAt 24 (BitVec.ofBool d.byteOrder.isBig) |||
      fieldAt 25 (BitVec.ofBool d.isSigned) ||| fieldAt 26 (BitVec.ofBool d.hasBounds) := by
  have hstart := d.startBit.isLt
  have hlen := d.lengthBits.isLt
  have hbig := (BitVec.ofBool d.byteOrder.isBig).isLt
  have hsigned := (BitVec.ofBool d.isSigned).isLt
  simp only [Descriptor.layoutWord, bit_eq_toNat]
  rw [ofNat_add_field (k := 26) _ rfl (by omega), ofNat_add_field (k := 25) _ rfl (by omega),
    ofNat_add_field (k := 24) _ rfl (by omega), ofNat_add_field (k := 16) _ rfl (by omega), ofNat_toNat_eq_fieldAt]

/-! ### what the words show -/

theorem StatusReg.word_fields (r : StatusReg) :
    r.word.extractLsb' 0 2 = r.err.bits ∧ r.word.extractLsb' 2 1 = BitVec.ofBool r.inr ∧
    r.word.extractLsb' 3 1 = BitVec.ofBool r.sat ∧ r.word.extractLsb' 4 1 = BitVec.ofBool r.fatal ∧
    r.word.extractLsb' 8 8 = r.fsig ∧ r.word.extractLsb' 16 3 = r.fcause := by
  simp [StatusReg.word_eq, BitVec.extractLsb'_or, extractLsb'_fieldAt_same, extractLsb'_fieldAt_other]

theorem StatusReg.word_reserved (r : StatusReg) : r.word &&& 0xFFFFFFFFFFF800E0 = 0 := by
  simp [StatusReg.word_eq, BitVec.and_or_distrib_right, fieldAt_and_eq_zero]

theorem CtrlReg.word_fields (r : CtrlReg) :
    r.word.extractLsb' 0 8 = r.bufcap ∧ r.word.extractLsb' 8 1 = BitVec.ofBool r.bufv ∧
    r.word.extractLsb' 9 1 = BitVec.ofBool r.valv := by
  simp [CtrlReg.word_eq, BitVec.extractLsb'_or, extractLsb'_fieldAt_same, extractLsb'_fieldAt_other]

theorem CtrlReg.word_reserved (r : CtrlReg) : r.word &&& 0xFFFFFFFFFFFFFC00 = 0 := by
  simp [CtrlReg.word_eq, BitVec.and_or_distrib_right, fieldAt_and_eq_zero]

theorem MsgReg.word_fields (r : MsgReg) :
    r.word.extractLsb' 0 8 = r.lengthBytes ∧ r.word.extractLsb' 16 9 = r.numSignals := by
  simp [MsgReg.word_eq, BitVec.extractLsb'_or, extractLsb'_fieldAt_same, extractLsb'_fieldAt_other]

theorem MsgReg.word_reserved (r : MsgReg) : r.word &&& 0xFFFFFFFFFE00FF00 = 0 := by
  simp [MsgReg.word_eq, BitVec.and_or_distrib_right, fieldAt_and_eq_zero]

theorem Descriptor.layoutWord_fields (d : Descriptor) :
    d.layoutWord.extractLsb' 0 16 = d.startBit ∧ d.layoutWord.extractLsb' 16 7 = d.lengthBits ∧
    d.layoutWord.extractLsb' 24 1 = BitVec.ofBool d.byteOrder.isBig ∧
    d.layoutWord.extractLsb' 25 1 = BitVec.ofBool d.isSigned ∧
    d.layoutWord.extractLsb' 26 1 = BitVec.ofBool d.hasBounds := by
  simp [Descriptor.layoutWord_eq, BitVec.extractLsb'_or, extractLsb'_fieldAt_same, extractLsb'_fieldAt_other]

theorem Descriptor.layoutWord_reserved (d : Descriptor) : d.layoutWord &&& 0xFFFFFFFFF8800000 = 0 := by
  simp [Descriptor.layoutWord_eq, BitVec.and_or_distrib_right, fieldAt_and_eq_zero]

/-- Settles O12: each word shows each of its fields at the field's place, and 0 at every other bit. -/
theorem registerFieldsStandWhereTheMapSays : Obligations.RegisterFieldsStandWhereTheMapSays := by
  refine ⟨fun r => ?_, fun r => ?_, fun r => ?_, fun d => ?_⟩
  · obtain ⟨herr, hinr, hsat, hfatal, hfsig, hfcause⟩ := r.word_fields
    refine ⟨?_, getLsbD_eq_of_extractLsb' hinr, getLsbD_eq_of_extractLsb' hsat, getLsbD_eq_of_extractLsb' hfatal,
      hfsig, hfcause, r.word_reserved⟩
    rw [herr]
    cases r.err <;> rfl
  · obtain ⟨hcap, hbufv, hvalv⟩ := r.word_fields
    exact ⟨hcap, getLsbD_eq_of_extractLsb' hbufv, getLsbD_eq_of_extractLsb' hvalv, r.word_reserved⟩
  · obtain ⟨hlen, hcount⟩ := r.word_fields
    exact ⟨hlen, hcount, r.word_reserved⟩
  · obtain ⟨hstart, hlen, hbig, hsigned, hbounds⟩ := d.layoutWord_fields
    refine ⟨hstart, hlen, ?_, getLsbD_eq_of_extractLsb' hsigned, getLsbD_eq_of_extractLsb' hbounds,
      d.layoutWord_reserved⟩
    rw [getLsbD_eq_of_extractLsb' hbig]
    exact d.byteOrder.isBig_iff

end Sys2Proof.Machine
end

section
/-! PROOFS. The host's port (10_state.md R22, R23, R24, R30; 20_memory.md R45, R47, R48, R53): what a register shows
after a write to it, and the step at a write that the port settles, at a write to CMD and at a bus write. -/

namespace Sys2Proof.Machine

/-! ### a written word as its register shows it -/

theorem and_allBits (v : Word) : v &&& 0xFFFFFFFFFFFFFFFF = v := BitVec.and_allOnes

theorem CtrlReg.word_ofWord (v : Word) : (CtrlReg.ofWord v).word = v &&& 0x3FF := by
  simp only [CtrlReg.word_eq, CtrlReg.ofWord, ofBool_wordBit, fieldAt_slice, ← BitVec.and_or_distrib_left]
  rfl

theorem MsgReg.word_ofWord (v : Word) : (MsgReg.ofWord v).word = v &&& 0x1FF00FF := by
  simp only [MsgReg.word_eq, MsgReg.ofWord, fieldAt_slice, ← BitVec.and_or_distrib_left]
  rfl

theorem Descriptor.layoutWord_withLayoutWord (d : Descriptor) (v : Word) :
    (d.withLayoutWord v).layoutWord = v &&& 0x77FFFFF := by
  simp only [Descriptor.layoutWord_eq, Descriptor.withLayoutWord, ByteOrder.isBig_ofBit, ofBool_wordBit,
    fieldAt_slice, ← BitVec.and_or_distrib_left]
  rfl

theorem Descriptor.word_withWord (d : Descriptor) (i : Nat) (w : DescWord) (v : Word) :
    (d.withWord w v).word w = v &&& storedBits (.desc i w) := by
  cases w with
  | layout => exact d.layoutWord_withLayoutWord v
  | _ => exact (and_allBits v).symm

/-- ORing masked copies of one word masks it with the OR of the masks. -/
theorem foldl_or_and (v : Word) (f : Nat → Word) (l : List Nat) (w : Word) :
    l.foldl (fun w j => w ||| (v &&& f j)) (v &&& w) = v &&& l.foldl (fun w j => w ||| f j) w := by
  induction l generalizing w with
  | nil => rfl
  | cons j l ih => rw [List.foldl_cons, List.foldl_cons, ← BitVec.and_or_distrib_left, ih]

/-- A window shows the word last written to it: its eight bytes are the word's eight slices (R48). -/
theorem fbWindow_fbSetWindow {m : Memory} (hm : Memory.wf m) (k : Nat) (v : Word) :
    fbWindow (fbSetWindow m k v) k = v := by
  have hbyte : ∀ j ∈ List.range 8, fbRead (fbSetWindow m k v) (8 * k + j) = slice v (8 * j) 8 := by
    intro j hj
    have hj8 : j < 8 := List.mem_range.mp hj
    rw [fbRead_fbSetWindow m k v _ hm, if_pos (by omega), Nat.add_sub_cancel_left]
    rfl
  have hmasks : (List.range 8).foldl (fun w j => w ||| fieldAt (8 * j) (BitVec.allOnes 8)) 0#64 =
      BitVec.allOnes 64 := by decide
  calc fbWindow (fbSetWindow m k v) k
      = (List.range 8).foldl (fun w j => w ||| (v &&& fieldAt (8 * j) (BitVec.allOnes 8))) (v &&& 0#64) := by
        rw [BitVec.and_zero]
        refine List.foldl_ext _ _ _ fun w j hj => ?_
        rw [← fieldAt_slice, hbyte j hj]
        rfl
    _ = v := by rw [foldl_or_and, hmasks, BitVec.and_allOnes]

/-! ### a register after a write -/

section
variable (s : State) (r : Reg) (v : Word)

@[simp] theorem regWrite_params : (regWrite s r v).params = s.params := by cases r <;> rfl

@[simp] theorem regWrite_answers : (regWrite s r v).answers = s.answers := by cases r <;> rfl

/-- A register write does not look at the queue. -/
theorem regWrite_setPending (q : List PortEvent) :
    regWrite { s with pending := q } r v = { regWrite s r v with pending := q } := by cases r <;> rfl

/-- What a register shows does not depend on the queue or the answers. -/
theorem regRead_served (q : List PortEvent) (a : PortAnswer) : regRead (s.served q a) r = regRead s r := by
  cases r <;> rfl

end

/-- The bits R30 lets a register store are read back as written, the others as 0. -/
theorem regRead_regWrite {s : State} (hsize : Sized s) (hwf : Memory.wf s.fb) {r : Reg} (hr : r.InRange s.params)
    (hcmd : r ≠ .cmd) (hstatus : r ≠ .status) (hresult : r ≠ .result) (v : Word) :
    regRead (regWrite s r v) r = v &&& storedBits r := by
  obtain ⟨hraw, hphys, hdesc⟩ := hsize
  cases r with
  | cmd => exact absurd rfl hcmd
  | status => exact absurd rfl hstatus
  | result => exact absurd rfl hresult
  | ctrl => exact CtrlReg.word_ofWord v
  | msg => exact MsgReg.word_ofWord v
  | xr => exact (and_allBits v).symm
  | xp => exact (and_allBits v).symm
  | fbw k => exact (fbWindow_fbSetWindow hwf k v).trans (and_allBits v).symm
  | raw i =>
    have hset : (s.setRaw i v).rawAt i = v := by rw [State.setRaw_rawAt, if_pos ⟨rfl, hraw.symm ▸ hr⟩]
    exact hset.trans (and_allBits v).symm
  | phys i =>
    have hset : (s.setPhys i v).physAt i = v := by rw [State.setPhys_physAt, if_pos ⟨rfl, hphys.symm ▸ hr⟩]
    exact hset.trans (and_allBits v).symm
  | desc i w =>
    have hset : (s.setDesc i ((s.descAt i).withWord w v)).descAt i = (s.descAt i).withWord w v := by
      rw [State.setDesc_descAt, if_pos ⟨rfl, hdesc.symm ▸ hr⟩]
    exact (congrArg (Descriptor.word · w) hset).trans (Descriptor.word_withWord _ i w v)

/-! ### the step -/

section
variable {s : State} {n : BitVec 12} {r : Reg} {v : Word} {rest : List PortEvent}

/-- Outside the fatal state a write to a register other than CMD stores and is answered `Done` (R44). -/
theorem step_write_live (hlive : Live s) (hreg : regAt s.params n.toNat = some r) (hcmd : r ≠ .cmd)
    (hq : s.pending = .write n v :: rest) : step s = .next ((regWrite s r v).served rest .done) := by
  have hnot : regAt s.params n.toNat ≠ some .cmd := by simpa [hreg] using hcmd
  have hstored : (regWrite { s with pending := rest } r v).answer .done = (regWrite s r v).served rest .done := by
    rw [regWrite_setPending]
    rfl
  simp [step_write hq hnot, hreg, show s.status.fatal = false from hlive, hstored]

/-- A read of a register answers with what the register shows (R44). -/
theorem step_read_register (hreg : regAt s.params n.toNat = some r) (hq : s.pending = .read n :: rest) :
    step s = .next (s.served rest (.data (regRead s r))) := by
  rw [step_read hq, hreg]

theorem runCommand_of_decode {i : Instr} (h : decodeWord v = .ok i) (s : State) : runCommand v s = exec i s := by
  rw [runCommand, h]

/-- A bus write of a whole aligned register is the port's write to that register (R47). -/
theorem step_busWrite {offset size : Nat} (hbus : busRegister offset size = some n)
    (hq : s.pending = .busWrite offset size v :: rest) :
    step s = step { s with pending := .write n v :: rest } := by
  rw [step_cons hq, step_cons (s := { s with pending := .write n v :: rest }) rfl]
  simp only [serve, hbus, hostWrite]
  split <;> rfl

end

/-- Settles O9: the read that follows the write finds the register as the write left it. -/
theorem hostWriteIsReadBack : Obligations.HostWriteIsReadBack := by
  intro s r n v rest hlive _ hsize hwf hreg hcmd hstatus hresult hq
  refine ⟨_, _, step_write_live hlive hreg hcmd hq, step_read_register (r := r) (rest := rest) ?_ rfl, rfl, ?_⟩
  · simpa using hreg
  · simp [regRead_served, regRead_regWrite hsize hwf (Reg.inRange_of_regAt hreg) hcmd hstatus hresult]

/-- Settles O5: the port hands the word to the engine, and the decoder's answer picks the command. -/
theorem stepRunsTheDecodedCommand : Obligations.StepRunsTheDecodedCommand := by
  intro s v i rest hdecode
  refine ⟨fun hq => ?_, fun hq => ?_⟩
  · rw [step_write_cmd hq, runCommand_of_decode hdecode]
  · rw [step_busWrite (n := 0) rfl hq, step_write_cmd (rest := rest) rfl, runCommand_of_decode hdecode]

/-- Settles O11: register 1 is STATUS and register 2 is RESULT, and `regWrite` says what each keeps. -/
theorem statusAndResultWrites : Obligations.StatusAndResultWrites := by
  intro s v rest hlive
  exact ⟨step_write_live (r := .status) hlive (regAt_fixed _ (by decide)) (by decide),
    step_write_live (r := .result) hlive (regAt_fixed _ (by decide)) (by decide)⟩

end Sys2Proof.Machine
end

section
/-! PROOFS. Hardware reset (10_state.md R29, 70_reset_and_hazards.md R160): what it leaves in the control registers
and in the storage, and the state the machine starts from. -/

namespace Sys2Proof.Machine

/-! ### the storage a hardware reset leaves -/

section
variable (s : State) (c : Storage) {i : Nat}

theorem fbRead_hardReset (hi : i < s.params.maxb) : fbRead (s.hardReset c).fb i = c.fb.getD i 0 := by
  change fbRead (fbOfBytes (c.fb.take s.params.maxb)) i = _
  rw [fbRead_fbOfBytes, List.getD_eq_getElem?_getD, List.getElem?_take_of_lt hi, ← List.getD_eq_getElem?_getD]
  rfl

theorem rawAt_hardReset (hi : i < s.params.nsigMax) : (s.hardReset c).rawAt i = c.raw.getD i 0 :=
  fitTo_getD _ _ _ _ hi

theorem physAt_hardReset (hi : i < s.params.nsigMax) : (s.hardReset c).physAt i = c.phys.getD i 0 :=
  fitTo_getD _ _ _ _ hi

theorem descAt_hardReset (hi : i < s.params.nsigMax) :
    (s.hardReset c).descAt i = c.desc.getD i Descriptor.blank :=
  fitTo_getD _ _ _ _ hi

theorem hardReset_sized : Sized (s.hardReset c) := ⟨fitTo_length _ _ _, fitTo_length _ _ _, fitTo_length _ _ _⟩

theorem hardReset_resetRegisters : ResetRegisters (s.hardReset c) := ⟨rfl, rfl, rfl, rfl, rfl, rfl⟩

end

/-! ### the state after reset -/

theorem reset_resetRegisters : ResetRegisters State.reset := ⟨rfl, rfl, rfl, rfl, rfl, rfl⟩

theorem thisHardware_legal : Params.thisHardware.Legal := by decide

theorem reset_sized : Sized State.reset :=
  ⟨List.length_replicate, List.length_replicate, List.length_replicate⟩

/-- STATUS after any reset is one the rules can leave (R22, R29). -/
theorem statusOk_zero (p : Params) : StatusOk p StatusReg.zero :=
  ⟨fun _ => ⟨rfl, rfl⟩, fun h => absurd h Bool.false_ne_true⟩

/-- Settles O23: the step is `hardReset` with the event taken, and each item of storage is what the event brings. -/
theorem hardwareResetLeavesAnyStorage : Obligations.HardwareResetLeavesAnyStorage := by
  refine ⟨fun s c rest hq => ?_, reset_resetRegisters, rfl⟩
  exact ⟨{ s with pending := rest }.hardReset c, step_hardReset hq, hardReset_resetRegisters _ c, hardReset_sized _ c,
    rfl, rfl, rfl, fun _ hi => fbRead_hardReset _ c hi,
    fun _ hi => ⟨rawAt_hardReset _ c hi, physAt_hardReset _ c hi, descAt_hardReset _ c hi⟩⟩

/-- Settles O25: the parameters are legal, the storage is made in their size, FB lists no byte and FATAL is 0. -/
theorem resetMeetsTheInvariant : Obligations.ResetMeetsTheInvariant :=
  ⟨thisHardware_legal, reset_sized, reset_fb_wf, fun _ hc => absurd hc List.not_mem_nil, statusOk_zero _⟩

end Sys2Proof.Machine
end

section
/-! PROOFS. The bytes of FB beyond the frame (20_memory.md R41, 40_bitfield_accessor.md R83, 44_frame_codec.md R116):
a command run on two buffers that agree inside the frame goes the same way on both, and leaves the bytes beyond the
frame as they are. That every command answers a next state at all (R178) is part of it. -/

namespace Sys2Proof.Machine

/-! ### the accessor and one byte -/

/-- A byte is known by its eight bits. -/
theorem fbRead_eq_of_bitAt {m m' : Memory} {a : Nat} (h : ∀ k, bitAt m (a, k) = bitAt m' (a, k)) :
    fbRead m a = fbRead m' a :=
  BitVec.eq_of_getLsbD_eq fun k _ => h k

section
variable {d : Descriptor} {n a : Nat} {m m' : Memory}

/-- A field inside the frame covers no place beyond it (R83). -/
theorem not_covers_of_le (hp : PlaceOk n d) (ha : n ≤ a) (k : Nat) : ¬ Covers d (a, k) := by
  rintro ⟨w, hw, hplace⟩
  have hlt := bitPlace_byte_lt d hp hw
  rw [hplace] at hlt
  exact Nat.not_lt.mpr ha hlt

theorem fbRead_fldWrite_beyond (hm : Memory.wf m) (hp : PlaceOk n d) (ha : n ≤ a) (w : Word) :
    fbRead (fldWrite d m w) a = fbRead m a := by
  obtain ⟨-, -, hkeep⟩ := fldWrite_spec d m w hm
  exact fbRead_eq_of_bitAt fun k => hkeep _ (not_covers_of_le hp ha k)

/-- What a field write leaves in a byte depends on that byte alone. -/
theorem fbRead_fldWrite_congr (hm : Memory.wf m) (hm' : Memory.wf m') (h : fbRead m' a = fbRead m a) (w : Word) :
    fbRead (fldWrite d m' w) a = fbRead (fldWrite d m w) a := by
  obtain ⟨-, hset, hkeep⟩ := fldWrite_spec d m w hm
  obtain ⟨-, hset', hkeep'⟩ := fldWrite_spec d m' w hm'
  refine fbRead_eq_of_bitAt fun k => ?_
  by_cases hc : Covers d (a, k)
  · obtain ⟨i, hi, hplace⟩ := hc
    rw [← hplace, hset i hi, hset' i hi]
  · rw [hkeep _ hc, hkeep' _ hc]
    exact congrArg (BitVec.getLsbD · k) h

/-- A field inside the frame reads the same in two buffers that agree there. -/
theorem fldRead_eq_of_agree (hf : FieldOk d) (hp : PlaceOk n d) (h : ∀ a, a < n → fbRead m' a = fbRead m a) :
    fldRead d m' = fldRead d m :=
  fldRead_congr d m' m hf.2 fun w hw =>
    congrArg (BitVec.getLsbD · (bitPlace d w).2) (h _ (bitPlace_byte_lt d hp hw))

theorem fldValue_eq_of_agree (hf : FieldOk d) (hp : PlaceOk n d) (h : ∀ a, a < n → fbRead m' a = fbRead m a) :
    fldValue d m' = fldValue d m := by
  rw [fldValue, fldValue, fldRead_eq_of_agree hf hp h]

end

/-! ### two buffers side by side -/

/-- What a command made of the buffers `f` and `g`, namely `m` and `m'`: they are canonical, agree inside the first
`n` bytes, and are `f` and `g` still beyond them. -/
structure FrameTwins (n : Nat) (f g m m' : Memory) : Prop where
  wf : Memory.wf m
  wf' : Memory.wf m'
  inside : ∀ a, a < n → fbRead m' a = fbRead m a
  beyond : ∀ a, n ≤ a → fbRead m' a = fbRead g a ∧ fbRead m a = fbRead f a

section
variable {n : Nat} {f g m m' : Memory}

/-- The zero-fill clears the frame and nothing else (R113, R116). -/
theorem FrameTwins.fbZero (h : FrameTwins n f g m m') : FrameTwins n f g (fbZero m n) (fbZero m' n) where
  wf := fbZero_wf n h.wf
  wf' := fbZero_wf n h.wf'
  inside a ha := by rw [fbRead_fbZero _ _ _ h.wf, fbRead_fbZero _ _ _ h.wf', if_pos ha, if_pos ha]
  beyond a ha := by
    rw [fbRead_fbZero _ _ _ h.wf, fbRead_fbZero _ _ _ h.wf', if_neg (Nat.not_lt.mpr ha), if_neg (Nat.not_lt.mpr ha)]
    exact h.beyond a ha

theorem FrameTwins.fldWrite (h : FrameTwins n f g m m') {d : Descriptor} (hp : PlaceOk n d) (w : Word) :
    FrameTwins n f g (fldWrite d m w) (fldWrite d m' w) where
  wf := (fldWrite_spec d m w h.wf).1
  wf' := (fldWrite_spec d m' w h.wf').1
  inside a ha := fbRead_fldWrite_congr h.wf h.wf' (h.inside a ha) w
  beyond a ha := by
    rw [fbRead_fldWrite_beyond h.wf hp ha, fbRead_fldWrite_beyond h.wf' hp ha]
    exact h.beyond a ha

theorem FrameTwins.writeFields (h : FrameTwins n f g m m') {s : State} {N : Nat}
    (hp : ∀ i, i < N → PlaceOk n (s.descAt i)) (v : Nat → Word) :
    FrameTwins n f g (writeFields s v N m) (writeFields s v N m') := by
  induction N with
  | zero => exact h
  | succ N ih =>
    rw [writeFields_succ, writeFields_succ]
    exact (ih fun i hi => hp i (by omega)).fldWrite (hp N (by omega)) _

end

/-! ### two runs side by side -/

/-- `m` holds the same frame as the buffer of `s`. -/
abbrev SameFrame (s : State) (m : Memory) : Prop := ∀ a, a < s.msg.lengthBytes.toNat → fbRead m a = fbRead s.fb a

/-- `r` and `r'`, the results with the buffer of `s` and with `m` in its place, are next states that differ in FB
alone, and there as twins do. -/
def SameWay (s : State) (m : Memory) (r r' : Result) : Prop :=
  ∃ t m', r = .next t ∧ r' = .next (t.setFb m') ∧
    (Memory.wf s.fb → Memory.wf m → FrameTwins s.msg.lengthBytes.toNat s.fb m t.fb m')

section
variable {s onErr t u : State} {m : Memory} {k k' : Result} {i : Nat}

/-- Two buffers that hold the same frame, before any command. -/
theorem SameFrame.twins (hm : SameFrame s m) (hf : Memory.wf s.fb) (hg : Memory.wf m) :
    FrameTwins s.msg.lengthBytes.toNat s.fb m s.fb m where
  wf := hf
  wf' := hg
  inside := hm
  beyond _ _ := ⟨rfl, rfl⟩

/-- A state that has the buffer of `s` still, beside the same state with the buffer `m`. -/
theorem sameWay_next (hm : SameFrame s m) (ht : t.fb = s.fb) (hu : u = t.setFb m) :
    SameWay s m (.next t) (.next u) := by
  subst hu
  refine ⟨t, m, rfl, rfl, fun hf hg => ?_⟩
  rw [ht]
  exact hm.twins hf hg

theorem sameWay_succeed (hm : SameFrame s m) (ht : t.fb = s.fb) (hu : u = t.setFb m) :
    SameWay s m (succeed t) (succeed u) := sameWay_next hm ht (congrArg (State.setErr · .ok) hu)

/-! #### the tests before a command's effect (R146): none of them reads FB -/

theorem sameWay_whenLive (hm : SameFrame s m) (hk : SameWay s m k k') :
    SameWay s m (whenLive s k) (whenLive (s.setFb m) k') := by
  unfold whenLive
  rw [State.setFb_status]
  split
  · exact sameWay_next hm rfl rfl
  · exact hk

theorem sameWay_requireSignal (hm : SameFrame s m) (he : onErr.fb = s.fb) (hk : SameWay s m k k') :
    SameWay s m (requireSignal s i onErr k) (requireSignal (s.setFb m) i (onErr.setFb m) k') := by
  unfold requireSignal
  rw [State.setFb_numSignals]
  split
  · exact sameWay_next hm he rfl
  · exact hk

theorem sameWay_requireBuffer (hm : SameFrame s m) (he : onErr.fb = s.fb) (hk : SameWay s m k k') :
    SameWay s m (requireBuffer s onErr k) (requireBuffer (s.setFb m) (onErr.setFb m) k') := by
  unfold requireBuffer
  rw [State.setFb_ctrl]
  split
  · exact hk
  · exact sameWay_next hm he rfl

theorem sameWay_requireBufferAndValues (hm : SameFrame s m) (he : onErr.fb = s.fb) (hk : SameWay s m k k') :
    SameWay s m (requireBufferAndValues s onErr k) (requireBufferAndValues (s.setFb m) (onErr.setFb m) k') := by
  unfold requireBufferAndValues
  rw [State.setFb_ctrl]
  split
  · exact hk
  · exact sameWay_next hm he rfl

theorem sameWay_requireCapacity (hm : SameFrame s m) (he : onErr.fb = s.fb) (hk : SameWay s m k k') :
    SameWay s m (requireCapacity s onErr k) (requireCapacity (s.setFb m) (onErr.setFb m) k') := by
  unfold requireCapacity
  rw [State.setFb_ctrl, State.setFb_frameBytes]
  split
  · exact sameWay_next hm he rfl
  · exact hk

theorem sameWay_asserting {checks : List (Option LayoutFault)} (hm : SameFrame s m)
    (hk : firstFault checks = none → SameWay s m k k') :
    SameWay s m (asserting s checks k) (asserting (s.setFb m) checks k') := by
  unfold asserting
  cases hc : firstFault checks with
  | some f => exact sameWay_next hm rfl rfl
  | none => exact hk hc

/-- The guard lets both runs pass: the bytes exist (R41). -/
theorem sameWay_guardBytes {bytes : List Nat} (hb : ∀ b ∈ bytes, b < s.params.maxb) (hk : SameWay s m k k') :
    SameWay s m (guardBytes s bytes k) (guardBytes (s.setFb m) bytes k') := by
  rw [guardBytes_ok hb, guardBytes_ok (s := s.setFb m) hb]
  exact hk

theorem sameWay_onField (hm : SameFrame s m)
    (hk : FieldOk (s.descAt i) → PlaceOk s.msg.lengthBytes.toNat (s.descAt i) → SameWay s m k k') :
    SameWay s m (onField i s k) (onField i (s.setFb m) k') := by
  refine sameWay_whenLive hm <| sameWay_requireSignal hm rfl <| sameWay_requireBuffer hm rfl <|
    sameWay_requireCapacity hm rfl <| sameWay_asserting hm fun hnone => ?_
  obtain ⟨-, hframe, hfield, hplace⟩ := fieldChecks_none.mp hnone
  exact sameWay_guardBytes (fun b hb => Nat.lt_of_lt_of_le (touchedBytes_lt hplace b hb) hframe) (hk hfield hplace)

theorem sameWay_onWidth (hm : SameFrame s m) (hk : SameWay s m k k') :
    SameWay s m (onWidth i s k) (onWidth i (s.setFb m) k') :=
  sameWay_whenLive hm <| sameWay_requireSignal hm rfl <| sameWay_asserting hm fun _ => hk

theorem sameWay_onTransform (hm : SameFrame s m) (hk : SameWay s m k k') :
    SameWay s m (onTransform i s k) (onTransform i (s.setFb m) k') :=
  sameWay_whenLive hm <| sameWay_requireSignal hm rfl <| sameWay_asserting hm fun _ => hk

theorem sameWay_onPackArguments (hm : SameFrame s m) (hk : SameWay s m k k') :
    SameWay s m (onPackArguments s k) (onPackArguments (s.setFb m) k') :=
  sameWay_whenLive hm <| sameWay_requireBufferAndValues (onErr := s.setResult 0) hm rfl <|
    sameWay_requireCapacity (onErr := s.setResult 0) hm rfl hk

theorem sameWay_onUnpackArguments (hm : SameFrame s m) (hk : SameWay s m k k') :
    SameWay s m (onUnpackArguments s k) (onUnpackArguments (s.setFb m) k') :=
  sameWay_whenLive hm <| sameWay_requireBuffer hm rfl <| sameWay_requireCapacity hm rfl hk

/-- The bytes PACK and PACK.P address exist (R41, R83, R113). -/
theorem frameBytes_lt (h : FrameLayoutOk s) :
    ∀ b ∈ List.range s.frameBytes ++ s.layoutBytes, b < s.params.maxb := by
  obtain ⟨-, hframe, -⟩ := id h
  intro b hb
  rcases List.mem_append.mp hb with hb | hb
  · exact Nat.lt_of_lt_of_le (List.mem_range.mp hb) hframe
  · exact layoutBytes_lt h b hb

/-! #### the signal loops (R110 phase 4) -/

/-- A loop that writes the value file only, and whose signals do not tell `m` from the buffer of `s`. -/
theorem forSignals_setFb {body : Nat → State → State}
    (hkeep : ∀ i t, (body i t).fb = t.fb ∧ (body i t).desc = t.desc)
    (hbody : ∀ i t, SignalOk s i → t.fb = s.fb → t.desc = s.desc → body i (t.setFb m) = (body i t).setFb m) :
    forSignals (s.setFb m) body = (forSignals s body).setFb m ∧ (forSignals s body).fb = s.fb := by
  have hloop := forSignals_induct (s := s) (body := body)
    (fun n t => (List.range n).foldl (fun t i => body i t) (s.setFb m) = t.setFb m ∧ t.fb = s.fb ∧ t.desc = s.desc)
    ⟨rfl, rfl, rfl⟩ ?_
  · exact ⟨hloop.1, hloop.2.1⟩
  · rintro i t hi ⟨hfold, hfb, hdesc⟩
    obtain ⟨hkfb, hkdesc⟩ := hkeep i t
    refine ⟨?_, hkfb.trans hfb, hkdesc.trans hdesc⟩
    rw [List.range_succ, List.foldl_append, hfold]
    exact hbody i t hi hfb hdesc

/-- INIT, INIT.P, UNPACK and UNPACK.P write no byte of FB. -/
theorem sameWay_produceValues {body : Nat → State → State} (hm : SameFrame s m)
    (hkeep : ∀ i t, (body i t).fb = t.fb ∧ (body i t).desc = t.desc)
    (hbody : ∀ i t, SignalOk s i → t.fb = s.fb → t.desc = s.desc → body i (t.setFb m) = (body i t).setFb m) :
    SameWay s m (produceValues body s) (produceValues body (s.setFb m)) := by
  obtain ⟨hloop, hfb⟩ := forSignals_setFb hkeep hbody
  unfold produceValues
  rw [hloop]
  exact sameWay_succeed hm hfb rfl

/-- The values UNPACK and UNPACK.P extract lie in the frame (R83, R117). -/
theorem fldValue_sameFrame (hm : SameFrame s m) (hl : FrameLayoutOk s) (hi : SignalOk s i) (hfb : t.fb = s.fb)
    (hdesc : t.desc = s.desc) : fldValue (t.descAt i) m = fldValue (t.descAt i) t.fb := by
  obtain ⟨-, -, hlayout⟩ := hl
  obtain ⟨hfield, hplace⟩ := hlayout i hi
  rw [State.descAt, hdesc, hfb]
  exact fldValue_eq_of_agree hfield hplace hm

theorem sameWay_unpack (hm : SameFrame s m) (hl : FrameLayoutOk s) :
    SameWay s m (produceValues unpackSignal s) (produceValues unpackSignal (s.setFb m)) := by
  refine sameWay_produceValues hm (fun _ _ => ⟨rfl, rfl⟩) fun i t hi hfb hdesc => ?_
  exact congrArg (fun w => (t.setRaw i w).setFb m) (fldValue_sameFrame hm hl hi hfb hdesc)

theorem sameWay_unpackP (hm : SameFrame s m) (hl : FrameLayoutOk s) :
    SameWay s m (produceValues unpackSignalP s) (produceValues unpackSignalP (s.setFb m)) := by
  refine sameWay_produceValues hm (fun _ _ => ⟨rfl, rfl⟩) fun i t hi hfb hdesc => ?_
  exact congrArg (fun w => (decodeSignal i w (t.setRaw i w)).setFb m) (fldValue_sameFrame hm hl hi hfb hdesc)

/-- PACK and PACK.P: a zero-fill of the frame, then fields inside it, whose values do not come from FB. -/
theorem sameWay_packWith {body : Nat → State → State} {v : State → Nat → Word} (hm : SameFrame s m)
    (hl : FrameLayoutOk s)
    (hbody : ∀ t, forSignals t body = t.setFb (writeFields t (v t) t.msg.numSignals.toNat t.fb))
    (hv : ∀ t m, v (State.setFb t m) = v t) : SameWay s m (packWith body s) (packWith body (s.setFb m)) := by
  obtain ⟨-, -, hlayout⟩ := hl
  refine ⟨_, writeFields s (v s) s.msg.numSignals.toNat (fbZero m s.frameBytes), rfl, ?_, fun hf hg => ?_⟩
  · simp only [packWith, hbody, hv]
    rfl
  · simp only [hbody, hv, State.setErr_fb, State.setResult_fb, State.setFb_fb]
    exact (hm.twins hf hg).fbZero.writeFields (fun i hi => (hlayout i hi).2) (v s)

/-! #### the commands -/

theorem execFldRead_sameWay (sig : Nat) (hm : SameFrame s m) :
    SameWay s m (execFldRead sig s) (execFldRead sig (s.setFb m)) := by
  refine sameWay_onField hm fun hfield hplace => ?_
  rw [State.setFb_fb, State.setFb_descAt, fldRead_eq_of_agree hfield hplace hm]
  exact sameWay_succeed hm rfl rfl

theorem execFldWrite_sameWay (sig : Nat) (hm : SameFrame s m) :
    SameWay s m (execFldWrite sig s) (execFldWrite sig (s.setFb m)) := by
  refine sameWay_onField hm fun _ hplace => ⟨_, fldWrite (s.descAt sig) m s.xr, rfl, rfl, fun hf hg => ?_⟩
  exact (hm.twins hf hg).fldWrite hplace s.xr

theorem execPack_sameWay (hm : SameFrame s m) : SameWay s m (execPack s) (execPack (s.setFb m)) := by
  refine sameWay_onPackArguments hm <| sameWay_asserting hm fun hnone => ?_
  have hl := frameChecks_none.mp hnone
  exact sameWay_guardBytes (frameBytes_lt hl) (sameWay_packWith hm hl forSignals_pack fun _ _ => rfl)

theorem execPackP_sameWay (hm : SameFrame s m) : SameWay s m (execPackP s) (execPackP (s.setFb m)) := by
  refine sameWay_onPackArguments hm <| sameWay_asserting hm fun hnone => ?_
  obtain ⟨hl, -⟩ := framePChecks_none.mp hnone
  exact sameWay_guardBytes (frameBytes_lt hl) (sameWay_packWith hm hl forSignals_packP fun _ _ => rfl)

theorem execUnpack_sameWay (hm : SameFrame s m) : SameWay s m (execUnpack s) (execUnpack (s.setFb m)) := by
  refine sameWay_onUnpackArguments hm <| sameWay_asserting hm fun hnone => ?_
  have hl := frameChecks_none.mp hnone
  exact sameWay_guardBytes (layoutBytes_lt hl) (sameWay_unpack hm hl)

theorem execUnpackP_sameWay (hm : SameFrame s m) : SameWay s m (execUnpackP s) (execUnpackP (s.setFb m)) := by
  refine sameWay_onUnpackArguments hm <| sameWay_asserting hm fun hnone => ?_
  obtain ⟨hl, -⟩ := framePChecks_none.mp hnone
  exact sameWay_guardBytes (layoutBytes_lt hl) (sameWay_unpackP hm hl)

/-- Every command goes the same way on two buffers that hold the same frame. -/
theorem exec_sameWay (i : Instr) (hm : SameFrame s m) : SameWay s m (exec i s) (exec i (s.setFb m)) := by
  cases i with
  | nop => exact sameWay_whenLive hm (sameWay_succeed hm rfl rfl)
  | sreset => exact sameWay_next hm rfl rfl
  | fldRead sig => exact execFldRead_sameWay sig hm
  | fldWrite sig => exact execFldWrite_sameWay sig hm
  | toSigned sig => exact sameWay_onWidth hm (sameWay_succeed hm rfl rfl)
  | toUbits sig => exact sameWay_onWidth hm (sameWay_succeed hm rfl rfl)
  | decode sig => exact sameWay_onTransform hm (sameWay_succeed hm rfl rfl)
  | encode sig => exact sameWay_onTransform hm (sameWay_succeed hm rfl rfl)
  | rangeRaw sig =>
    exact sameWay_whenLive hm <| sameWay_requireSignal (onErr := s.setInr false) hm rfl <| sameWay_asserting hm
      fun _ => sameWay_succeed hm rfl rfl
  | rangePhys sig =>
    exact sameWay_whenLive hm <| sameWay_requireSignal (onErr := s.setInr false) hm rfl <| sameWay_asserting hm
      fun _ => sameWay_succeed hm rfl rfl
  | init =>
    exact sameWay_whenLive hm <| sameWay_asserting hm fun _ =>
      sameWay_produceValues hm (fun _ _ => ⟨rfl, rfl⟩) fun _ _ _ _ _ => rfl
  | initP =>
    exact sameWay_whenLive hm <| sameWay_asserting hm fun _ =>
      sameWay_produceValues hm (fun _ _ => ⟨rfl, rfl⟩) fun _ _ _ _ _ => rfl
  | pack => exact execPack_sameWay hm
  | packP => exact execPackP_sameWay hm
  | unpack => exact execUnpack_sameWay hm
  | unpackP => exact execUnpackP_sameWay hm

end

/-- Settles O57: the accessor's places, the zero-fill and the loops of both runs stay inside the frame, where the
buffers agree. -/
theorem bytesBeyondTheFrameDoNotMatter : Obligations.BytesBeyondTheFrameDoNotMatter := by
  intro i s m hf hg hm
  obtain ⟨t, m', ht, ht', htwins⟩ := exec_sameWay i hm
  obtain ⟨-, -, hinside, hbeyond⟩ := htwins hf hg
  exact ⟨t, m', ht, ht', hinside, hbeyond⟩

/-! ### the engine never stops (R41, R47, R178) -/

/-- A buffer holds the same frame as itself, so a command's run beside itself answers a next state. -/
theorem exec_next (i : Instr) (s : State) : ∃ t, exec i s = .next t := by
  obtain ⟨t, -, ht, -⟩ := exec_sameWay (m := s.fb) i fun _ _ => rfl
  exact ⟨t, ht⟩

theorem runCommand_next (v : Word) (s : State) : ∃ t, runCommand v s = .next t := by
  unfold runCommand
  split
  · exact exec_next _ s
  · unfold illegalCommand
    split <;> exact ⟨_, rfl⟩

theorem hostWrite_ne_refused (s : State) (n : BitVec 12) (v : Word) (r : Refusal) : hostWrite s n v ≠ .refused r := by
  unfold hostWrite
  split <;> exact Fetched.noConfusion

/-- The port refuses nothing but a bus access without meaning (R47). -/
theorem serve_refused {s : State} {e : PortEvent} {r : Refusal} (h : serve s e = .refused r) :
    ∃ offset size, r = .undefinedBusAccess offset size := by
  cases e with
  | read n => cases h
  | write n v => exact absurd h (hostWrite_ne_refused s n v r)
  | busRead offset size =>
    simp only [serve] at h
    split at h
    · cases h
    · cases h
      exact ⟨offset, size, rfl⟩
  | busWrite offset size v =>
    simp only [serve] at h
    split at h
    · exact absurd h (hostWrite_ne_refused s _ v r)
    · cases h
      exact ⟨offset, size, rfl⟩
  | hardReset c => cases h

theorem step_next_or_refused (s : State) :
    (∃ t, step s = .next t) ∨ ∃ offset size, step s = .refused (.undefinedBusAccess offset size) := by
  cases hq : s.pending with
  | nil => exact .inl ⟨s, by rw [step_eq_run, fetch_nil hq]; rfl⟩
  | cons e rest =>
    rw [step_cons hq]
    cases hserve : serve { s with pending := rest } e with
    | idle => exact .inl ⟨s, rfl⟩
    | command v t => exact .inl (runCommand_next v t)
    | settled t => exact .inl ⟨t, rfl⟩
    | refused r =>
      obtain ⟨offset, size, rfl⟩ := serve_refused hserve
      exact .inr ⟨offset, size, rfl⟩

/-- Settles O19: the assertions before `guardBytes` make every byte it is asked for exist. -/
theorem theEngineNeverStops : Obligations.TheEngineNeverStops := ⟨exec_next, step_next_or_refused⟩

end Sys2Proof.Machine
end

section
/-! PROOFS. The register map (20_memory.md R45, R46, R48, R53): which numbers stand for no register, what a read of a
register's number answers and a write to it leaves, the eight bytes of a window, and that a write to one register
leaves the others as they are. -/

namespace Sys2Proof.Machine

/-! ### which numbers stand for a register -/

theorem fixedReg_eq_none : ∀ {n : Nat}, fixedReg n = none ↔ 7 ≤ n
  | 0 | 1 | 2 | 3 | 4 | 5 | 6 => by simp [fixedReg]
  | n + 7 => by simp [fixedReg]

theorem descWordOf_eq_none : ∀ {n : Nat}, descWordOf n = none ↔ 6 ≤ n
  | 0 | 1 | 2 | 3 | 4 | 5 => by simp [descWordOf]
  | n + 6 => by simp [descWordOf]

/-- The numbers without a register are those R46 lists, range by range of the map. -/
theorem regAt_eq_none {p : Params} (hp : p.Legal) (n : Nat) : regAt p n = none ↔ Unimplemented p n := by
  obtain ⟨-, -, hm, -, hn, -⟩ := hp
  unfold regAt Unimplemented
  split_ifs <;> simp [fixedReg_eq_none, descWordOf_eq_none] <;> omega

/-- Register numbers have 12 bits (R44). -/
theorem Reg.number_lt {p : Params} (hp : p.Legal) {r : Reg} (h : r.InRange p) : r.number < 4096 := by
  obtain ⟨-, -, hm, -, hn, -⟩ := hp
  cases r with
  | fbw k => have hk : k < p.maxb / 8 := h; simp only [Reg.number]; omega
  | raw i => have hi : i < p.nsigMax := h; simp only [Reg.number]; omega
  | phys i => have hi : i < p.nsigMax := h; simp only [Reg.number]; omega
  | desc i w =>
    have hi : i < p.nsigMax := h
    have hw : w.code < 6 := by cases w <;> decide
    simp only [Reg.number]
    omega
  | _ => simp [Reg.number]

/-- A register stands at its number as the port receives it. -/
theorem regAt_ofNat_number {p : Params} (hp : p.Legal) {r : Reg} (h : r.InRange p) :
    regAt p (BitVec.ofNat 12 r.number).toNat = some r := by
  rw [BitVec.toNat_ofNat, Nat.mod_eq_of_lt (Reg.number_lt hp h), regAt_number hp h]

/-! ### transactions on a number without a register -/

section
variable {s : State} {n : BitVec 12} {rest : List PortEvent}

theorem step_read_unimplemented (hreg : regAt s.params n.toNat = none) (hq : s.pending = .read n :: rest) :
    step s = .next (s.served rest .portError) := by
  rw [step_read hq, hreg]

theorem step_write_unimplemented (hreg : regAt s.params n.toNat = none) {v : Word}
    (hq : s.pending = .write n v :: rest) : step s = .next (s.served rest .portError) := by
  rw [step_write hq (by simp [hreg]), hreg]

/-- A write to a register other than CMD stores, or in the fatal state is ignored, and is answered `Done` (R147). -/
theorem step_write_register {r : Reg} (hreg : regAt s.params n.toNat = some r) (hcmd : r ≠ .cmd) {v : Word}
    (hq : s.pending = .write n v :: rest) :
    step s = .next ((if s.status.fatal then s else regWrite s r v).served rest .done) := by
  rw [step_write hq (by simpa [hreg] using hcmd), hreg]
  cases s.status.fatal with
  | true => rfl
  | false => simp [regWrite_setPending, State.answer]

end

/-- Settles O7: the numbers R46 lists are those at which `regAt` finds no register. -/
theorem unimplementedNumbersAnswerPortError : Obligations.UnimplementedNumbersAnswerPortError := by
  intro s n rest hp
  rw [← regAt_eq_none hp]
  refine ⟨fun hnone => ⟨step_read_unimplemented hnone, fun v => step_write_unimplemented hnone⟩,
    fun hsome => ?_⟩
  obtain ⟨r, hr⟩ := Option.ne_none_iff_exists'.mp hsome
  refine ⟨fun hq => ⟨_, step_read_register hr hq⟩, fun v hn hq => ?_⟩
  have hcmd : r ≠ .cmd := by
    rintro rfl
    exact hn (BitVec.eq_of_toNat_eq ((regAt_eq_cmd _ _).mp hr))
  refine ⟨_, step_write_register hr hcmd hq, ?_⟩
  split <;> simp

/-! ### the register map, number by number -/

theorem regRead_setPending (s : State) (r : Reg) (q : List PortEvent) :
    regRead { s with pending := q } r = regRead s r := by cases r <;> rfl

section
variable {s : State} (hp : s.params.Legal) {r : Reg} (hr : r.InRange s.params)
include hp hr

theorem readsAs_number : ReadsAs s r.number (regRead s r) := by
  intro rest
  rw [← regRead_setPending s r (.read (BitVec.ofNat 12 r.number) :: rest)]
  exact step_read_register (regAt_ofNat_number hp hr) rfl

theorem writesAs_number (hlive : Live s) (hcmd : r ≠ .cmd) (v : Word) :
    WritesAs s r.number v (regWrite s r v) := by
  intro rest
  rw [step_write_live (s := { s with pending := .write _ v :: rest }) hlive (regAt_ofNat_number hp hr) hcmd rfl,
    regWrite_setPending]

end

/-- Settles O59: each number is that of the register R45 puts there, whose read and write `regRead` and `regWrite`
give. -/
theorem registerNumbersNameTheirRegisters : Obligations.RegisterNumbersNameTheirRegisters := by
  intro s v hp
  refine ⟨⟨readsAs_number (r := .cmd) hp trivial, readsAs_number (r := .status) hp trivial,
      readsAs_number (r := .result) hp trivial, readsAs_number (r := .ctrl) hp trivial,
      readsAs_number (r := .msg) hp trivial, readsAs_number (r := .xr) hp trivial,
      readsAs_number (r := .xp) hp trivial, fun k hk => readsAs_number (r := .fbw k) hp hk, fun i hi => ?_⟩,
    fun rest => step_write_cmd rfl, fun hlive => ?_, fun n hn rest => ?_⟩
  · exact ⟨readsAs_number (r := .raw i) hp hi, readsAs_number (r := .phys i) hp hi,
      readsAs_number (r := .desc i .layout) hp hi, readsAs_number (r := .desc i .scale) hp hi,
      readsAs_number (r := .desc i .offset) hp hi, readsAs_number (r := .desc i .rawMin) hp hi,
      readsAs_number (r := .desc i .rawMax) hp hi, readsAs_number (r := .desc i .defaultRaw) hp hi⟩
  · have hw {r : Reg} (hr : r.InRange s.params) (hcmd : r ≠ .cmd) := writesAs_number hp hr hlive hcmd v
    refine ⟨hw (r := .status) trivial (by decide), hw (r := .result) trivial (by decide),
      hw (r := .ctrl) trivial (by decide), hw (r := .msg) trivial (by decide), hw (r := .xr) trivial (by decide),
      hw (r := .xp) trivial (by decide), fun k hk => hw (r := .fbw k) hk Reg.noConfusion, fun i hi => ?_⟩
    exact ⟨hw (r := .raw i) hi Reg.noConfusion, hw (r := .phys i) hi Reg.noConfusion,
      hw (r := .desc i .layout) hi Reg.noConfusion, hw (r := .desc i .scale) hi Reg.noConfusion,
      hw (r := .desc i .offset) hi Reg.noConfusion, hw (r := .desc i .rawMin) hi Reg.noConfusion,
      hw (r := .desc i .rawMax) hi Reg.noConfusion, hw (r := .desc i .defaultRaw) hi Reg.noConfusion⟩
  · have hnone := (regAt_eq_none hp n.toNat).mpr hn
    exact ⟨step_read_unimplemented (s := { s with pending := .read n :: rest }) hnone rfl,
      step_write_unimplemented (s := { s with pending := .write n v :: rest }) hnone rfl⟩

/-! ### the eight bytes of a window (R48) -/

/-- Bytes put side by side show each at its place. -/
theorem extractLsb'_foldl_fieldAt (b : Nat → Byte) {n : Nat} (hn : n ≤ 8) {j : Nat} (hj : j < 8) :
    ((List.range n).foldl (fun w i => w ||| fieldAt (8 * i) (b i)) 0#64).extractLsb' (8 * j) 8 =
      if j < n then b j else 0#8 := by
  induction n with
  | zero => simp
  | succ n ih =>
    rw [List.range_succ, List.foldl_append, List.foldl_cons, List.foldl_nil, BitVec.extractLsb'_or, ih (by omega)]
    rcases Nat.lt_trichotomy j n with h | rfl | h
    · rw [extractLsb'_fieldAt_other _ (by omega), if_pos h, if_pos (by omega), BitVec.or_zero]
    · rw [extractLsb'_fieldAt_same _ _ (by omega), if_neg (by omega), if_pos (by omega), BitVec.zero_or]
    · rw [extractLsb'_fieldAt_other _ (by omega), if_neg (by omega), if_neg (by omega), BitVec.or_zero]

theorem extractLsb'_fbWindow (m : Memory) (k : Nat) {j : Nat} (hj : j < 8) :
    (fbWindow m k).extractLsb' (8 * j) 8 = fbRead m (8 * k + j) := by
  have h := extractLsb'_foldl_fieldAt (fun i => fbRead m (8 * k + i)) (Nat.le_refl 8) hj
  rw [if_pos hj] at h
  exact h

/-- A window shows its own eight bytes only. -/
theorem fbWindow_congr {m m' : Memory} {k : Nat} (h : ∀ j, j < 8 → fbRead m (8 * k + j) = fbRead m' (8 * k + j)) :
    fbWindow m k = fbWindow m' k :=
  List.foldl_ext _ _ _ fun w j hj => by rw [h j (List.mem_range.mp hj)]

theorem fbWindow_fbSetWindow_other {m : Memory} (hm : Memory.wf m) {k k' : Nat} (h : k' ≠ k) (v : Word) :
    fbWindow (fbSetWindow m k v) k' = fbWindow m k' :=
  fbWindow_congr fun j hj => by rw [fbRead_fbSetWindow m k v _ hm, if_neg (by omega)]

theorem fbRead_regWrite_fbw {s : State} (hwf : Memory.wf s.fb) (k : Nat) (v : Word) (a : Nat) :
    fbRead (regWrite s (.fbw k) v).fb a =
      if 8 * k ≤ a ∧ a < 8 * k + 8 then byteOf v (a - 8 * k) else fbRead s.fb a :=
  fbRead_fbSetWindow s.fb k v a hwf

/-- Settles O8: the window is the OR of its eight bytes at their places, and a write to it is eight byte writes. -/
theorem frameWindowPacksLittleEndian : Obligations.FrameWindowPacksLittleEndian := by
  intro s k n rest hp hwf hk hn
  have hreg : regAt s.params n.toNat = some (.fbw k) := hn ▸ regAt_number (r := .fbw k) hp hk
  refine ⟨fun hq => ⟨_, step_read_register hreg hq, fun j hj => extractLsb'_fbWindow s.fb k hj⟩,
    fun v hlive hq => ⟨_, step_write_live hlive hreg Reg.noConfusion hq, fun j hj => ?_, fun a ha => ?_⟩⟩
  · rw [fbRead_regWrite_fbw hwf, if_pos (by omega), Nat.add_sub_cancel_left]
    rfl
  · rw [fbRead_regWrite_fbw hwf, if_neg (by omega)]

/-! ### the registers a write does not name (R53) -/

theorem Descriptor.word_withWord_other (d : Descriptor) {w w' : DescWord} (h : w' ≠ w) (v : Word) :
    (d.withWord w v).word w' = d.word w' := by
  cases w <;> cases w'
  case layout.layout | scale.scale | offset.offset | rawMin.rawMin | rawMax.rawMax | defaultRaw.defaultRaw =>
    exact absurd rfl h
  all_goals rfl

/-- A write to one register leaves what every other shows. -/
theorem regRead_regWrite_other {s : State} (hwf : Memory.wf s.fb) {r r' : Reg} (h : r' ≠ r) (v : Word) :
    regRead (regWrite s r v) r' = regRead s r' := by
  cases r with
  | cmd => rfl
  | status => cases r' with
    | status => exact absurd rfl h
    | _ => rfl
  | result => rfl
  | ctrl => cases r' with
    | ctrl => exact absurd rfl h
    | _ => rfl
  | msg => cases r' with
    | msg => exact absurd rfl h
    | _ => rfl
  | xr => cases r' with
    | xr => exact absurd rfl h
    | _ => rfl
  | xp => cases r' with
    | xp => exact absurd rfl h
    | _ => rfl
  | fbw k => cases r' with
    | fbw k' => exact fbWindow_fbSetWindow_other hwf (fun hk => h (congrArg Reg.fbw hk)) v
    | _ => rfl
  | raw i => cases r' with
    | raw j => exact (s.setRaw_rawAt i j v).trans (if_neg fun hij => h (congrArg Reg.raw hij.1.symm))
    | _ => rfl
  | phys i => cases r' with
    | phys j => exact (s.setPhys_physAt i j v).trans (if_neg fun hij => h (congrArg Reg.phys hij.1.symm))
    | _ => rfl
  | desc i w => cases r' with
    | desc j w' =>
      simp only [regRead, regWrite, State.setDesc_descAt]
      split
      next hij =>
        obtain ⟨rfl, -⟩ := hij
        exact Descriptor.word_withWord_other _ (fun hw => h (congrArg (Reg.desc i) hw)) v
      next => rfl
    | _ => rfl

/-- Settles O10: the write is `regWrite` to its register, or nothing in the fatal state. -/
theorem hostWriteLeavesTheOtherRegisters : Obligations.HostWriteLeavesTheOtherRegisters := by
  intro s r n v rest _ hwf hreg hcmd hq
  refine ⟨_, step_write_register hreg hcmd hq, ?_, rfl, ?_, fun n' r' _ hne => ?_⟩
  · split <;> simp
  · split <;> simp
  · rw [regRead_served]
    split
    · rfl
    · exact regRead_regWrite_other hwf hne v

end Sys2Proof.Machine
end

section
/-! PROOFS. The sequence of the host's accesses (20_memory.md R44, R47, R53; 70_reset_and_hazards.md R160): the bus in
front of the port, and that a step takes one event from the queue and a command none. -/

namespace Sys2Proof.Machine

/-! ### the bus (R47) -/

/-- Byte offset 8n is register n. -/
theorem busRegister_offset (n : BitVec 12) : busRegister (8 * n.toNat) 8 = some n := by
  have hn := n.isLt
  have hdiv : 8 * n.toNat / 8 = n.toNat := by omega
  rw [busRegister, if_pos (by omega), hdiv, BitVec.ofNat_toNat, BitVec.setWidth_eq]

section
variable {s : State} {offset size : Nat} {rest : List PortEvent}

/-- A bus read of a whole aligned register is the port's read of that register. -/
theorem step_busRead {n : BitVec 12} (hbus : busRegister offset size = some n)
    (hq : s.pending = .busRead offset size :: rest) : step s = step { s with pending := .read n :: rest } := by
  rw [step_cons hq, step_cons (s := { s with pending := .read n :: rest }) rfl]
  simp only [serve, hbus]
  rfl

theorem step_busRead_refused (hbus : busRegister offset size = none)
    (hq : s.pending = .busRead offset size :: rest) : step s = .refused (.undefinedBusAccess offset size) := by
  rw [step_cons hq]
  simp only [serve, hbus]
  rfl

theorem step_busWrite_refused (hbus : busRegister offset size = none) {v : Word}
    (hq : s.pending = .busWrite offset size v :: rest) : step s = .refused (.undefinedBusAccess offset size) := by
  rw [step_cons hq]
  simp only [serve, hbus]
  rfl

end

/-- Settles O14: `busRegister` finds register n at offset 8n, and no register for any other access. -/
theorem busAccessesMoveWholeRegisters : Obligations.BusAccessesMoveWholeRegisters := by
  intro s rest v
  refine ⟨fun n => ⟨?_, ?_⟩, fun offset size h => ⟨?_, ?_⟩⟩
  · exact step_busRead (s := { s with pending := .busRead _ 8 :: rest }) (busRegister_offset n) rfl
  · exact step_busWrite (s := { s with pending := .busWrite _ 8 v :: rest }) (busRegister_offset n) rfl
  · exact step_busRead_refused (s := { s with pending := .busRead _ _ :: rest }) (busRegister_none h) rfl
  · exact step_busWrite_refused (s := { s with pending := .busWrite _ _ v :: rest }) (busRegister_none h) rfl

/-! ### a command serves no event (R44, R53) -/

section
variable {P : State → Prop} {s : State} {k : Result} {q : List PortEvent}

theorem leaves_asserting {checks : List (Option LayoutFault)} (hf : ∀ f, P (s.raiseLayoutFault f))
    (hk : Leaves P k) : Leaves P (asserting s checks k) := by
  intro t h
  rcases asserting_next h with ⟨f, -, rfl⟩ | ⟨-, h⟩
  · exact hf f
  · exact hk t h

/-- The queue of a state is `q`. -/
abbrev QueueIs (q : List PortEvent) (s : State) : Prop := s.pending = q

theorem leaves_queue_succeed (h : QueueIs q s) : Leaves (QueueIs q) (succeed s) := leaves_next h

theorem leaves_queue_asserting (h : QueueIs q s) {checks : List (Option LayoutFault)}
    (hk : Leaves (QueueIs q) k) : Leaves (QueueIs q) (asserting s checks k) := leaves_asserting (fun _ => h) hk

theorem leaves_queue_onField {i : Nat} (h : QueueIs q s) (hk : Leaves (QueueIs q) k) :
    Leaves (QueueIs q) (onField i s k) :=
  leaves_whenLive h <| leaves_requireSignal h fun _ => leaves_requireBuffer h <| leaves_requireCapacity h <|
    leaves_queue_asserting h <| leaves_guardBytes hk

theorem leaves_queue_onWidth {i : Nat} (h : QueueIs q s) (hk : Leaves (QueueIs q) k) :
    Leaves (QueueIs q) (onWidth i s k) :=
  leaves_whenLive h <| leaves_requireSignal h fun _ => leaves_queue_asserting h hk

theorem leaves_queue_onTransform {i : Nat} (h : QueueIs q s) (hk : Leaves (QueueIs q) k) :
    Leaves (QueueIs q) (onTransform i s k) :=
  leaves_whenLive h <| leaves_requireSignal h fun _ => leaves_queue_asserting h hk

theorem leaves_queue_onPackArguments (h : QueueIs q s) (hk : Leaves (QueueIs q) k) :
    Leaves (QueueIs q) (onPackArguments s k) :=
  leaves_whenLive h <| leaves_requireBufferAndValues h <| leaves_requireCapacity h hk

theorem leaves_queue_onUnpackArguments (h : QueueIs q s) (hk : Leaves (QueueIs q) k) :
    Leaves (QueueIs q) (onUnpackArguments s k) :=
  leaves_whenLive h <| leaves_requireBuffer h <| leaves_requireCapacity h hk

theorem forSignals_pending {body : Nat → State → State} (hbody : ∀ i t, (body i t).pending = t.pending)
    (s : State) : (forSignals s body).pending = s.pending :=
  forSignals_induct (P := fun _ t => t.pending = s.pending) rfl fun i t _ ht => (hbody i t).trans ht

theorem leaves_queue_produceValues {body : Nat → State → State} (h : QueueIs q s)
    (hbody : ∀ i t, (body i t).pending = t.pending) : Leaves (QueueIs q) (produceValues body s) :=
  leaves_queue_succeed (s := (forSignals s body).setValv) ((forSignals_pending hbody s).trans h)

theorem leaves_queue_packWith {body : Nat → State → State} (h : QueueIs q s)
    (hbody : ∀ i t, (body i t).pending = t.pending) : Leaves (QueueIs q) (packWith body s) :=
  leaves_next ((forSignals_pending hbody (s.setFb (fbZero s.fb s.frameBytes))).trans h)

theorem exec_leaves_queue (i : Instr) (h : QueueIs q s) : Leaves (QueueIs q) (exec i s) := by
  cases i with
  | nop => exact leaves_whenLive h (leaves_queue_succeed h)
  | sreset => exact leaves_next h
  | fldRead sig => exact leaves_queue_onField h (leaves_queue_succeed h)
  | fldWrite sig => exact leaves_queue_onField h (leaves_queue_succeed h)
  | toSigned sig => exact leaves_queue_onWidth h (leaves_queue_succeed h)
  | toUbits sig => exact leaves_queue_onWidth h (leaves_queue_succeed h)
  | decode sig => exact leaves_queue_onTransform h (leaves_queue_succeed h)
  | encode sig => exact leaves_queue_onTransform h (leaves_queue_succeed h)
  | rangeRaw sig =>
    exact leaves_whenLive h <| leaves_requireSignal h fun _ => leaves_queue_asserting h <| leaves_queue_succeed h
  | rangePhys sig =>
    exact leaves_whenLive h <| leaves_requireSignal h fun _ => leaves_queue_asserting h <| leaves_queue_succeed h
  | init =>
    exact leaves_whenLive h <| leaves_queue_asserting h <| leaves_queue_produceValues h fun _ _ => rfl
  | initP =>
    exact leaves_whenLive h <| leaves_queue_asserting h <| leaves_queue_produceValues h fun _ _ => rfl
  | pack =>
    exact leaves_queue_onPackArguments h <| leaves_queue_asserting h <| leaves_guardBytes <|
      leaves_queue_packWith h fun _ _ => rfl
  | packP =>
    exact leaves_queue_onPackArguments h <| leaves_queue_asserting h <| leaves_guardBytes <|
      leaves_queue_packWith h fun _ _ => rfl
  | unpack =>
    exact leaves_queue_onUnpackArguments h <| leaves_queue_asserting h <| leaves_guardBytes <|
      leaves_queue_produceValues h fun _ _ => rfl
  | unpackP =>
    exact leaves_queue_onUnpackArguments h <| leaves_queue_asserting h <| leaves_guardBytes <|
      leaves_queue_produceValues h fun _ _ => rfl

theorem runCommand_leaves_queue (v : Word) (h : QueueIs q s) : Leaves (QueueIs q) (runCommand v s) := by
  unfold runCommand
  split
  · exact exec_leaves_queue _ h
  · exact leaves_whenLive h (leaves_next h)

/-! ### the port takes no further event -/

/-- An event was served, and the state it hands on, to the engine or to the next step, has the queue `q`. -/
def Fetched.HasQueue (q : List PortEvent) : Fetched → Prop
  | .idle => False
  | .command _ t => QueueIs q t
  | .settled t => QueueIs q t
  | .refused _ => True

theorem regWrite_pending (s : State) (r : Reg) (v : Word) : (regWrite s r v).pending = s.pending := by
  cases r <;> rfl

theorem hostRead_pending (s : State) (n : BitVec 12) : (hostRead s n).pending = s.pending := by
  unfold hostRead
  split <;> rfl

theorem hostWrite_hasQueue (h : QueueIs q s) (n : BitVec 12) (v : Word) : (hostWrite s n v).HasQueue q := by
  unfold hostWrite
  split
  · exact h
  · exact h
  · change (ite _ _ _ : State).pending = q
    split
    · exact h
    · exact (regWrite_pending s _ v).trans h

theorem serve_hasQueue (h : QueueIs q s) (e : PortEvent) : (serve s e).HasQueue q := by
  cases e with
  | read n => exact (hostRead_pending s n).trans h
  | write n v => exact hostWrite_hasQueue h n v
  | busRead offset size =>
    simp only [serve]
    split
    · exact (hostRead_pending s _).trans h
    · trivial
  | busWrite offset size v =>
    simp only [serve]
    split
    · exact hostWrite_hasQueue h _ v
    · trivial
  | hardReset c => exact h

end

/-- A step takes the oldest event, and it alone, from the queue. -/
theorem step_pending {s t : State} {e : PortEvent} {rest : List PortEvent} (hq : s.pending = e :: rest)
    (h : step s = .next t) : t.pending = rest := by
  have hserved := serve_hasQueue (q := rest) (s := { s with pending := rest }) rfl e
  rw [step_cons hq] at h
  generalize serve { s with pending := rest } e = f at h hserved
  cases f with
  | idle => exact hserved.elim
  | command v u => exact runCommand_leaves_queue v hserved t h
  | settled u =>
    cases h
    exact hserved
  | refused r => cases h

/-- Settles O13: the step serves the event at the head of the queue, and neither the port nor a command touches the
rest of it. -/
theorem eventsAreServedInOrder : Obligations.EventsAreServedInOrder := by
  refine ⟨fun s hq => ?_, fun s t e rest => step_pending⟩
  rw [step_eq_run, fetch_nil hq]
  rfl

end Sys2Proof.Machine
end

section
/-! PROOFS. The command word (30_encoding.md R60 to R66): its three fields, the opcode map as an equivalence, and the
round trip between commands and words. -/

namespace Sys2Proof.Machine

/-! ### the fields of a word (R60) -/

section
variable (v : Word)

theorem fieldOpc_eq_extractLsb' : fieldOpc v = (v.extractLsb' 0 8).toNat := by
  simp [fieldOpc, BitVec.extractLsb'_toNat]

theorem fieldSig_eq_extractLsb' : fieldSig v = (v.extractLsb' 8 8).toNat := by
  simp [fieldSig, BitVec.extractLsb'_toNat, Nat.shiftRight_eq_div_pow]

theorem fieldReserved_eq_extractLsb' : fieldReserved v = (v.extractLsb' 16 48).toNat := by
  have hv := v.isLt
  rw [fieldReserved, BitVec.extractLsb'_toNat, Nat.shiftRight_eq_div_pow]
  omega

/-- The three fields are the whole word. -/
theorem toNat_eq_fields : v.toNat = fieldOpc v + 256 * fieldSig v + 65536 * fieldReserved v := by
  simp only [fieldOpc, fieldSig, fieldReserved]
  omega

/-- The mask of format S leaves the opcode and the reserved bits of a word (R66). -/
theorem and_formatS_mask :
    v &&& 0xFFFFFFFFFFFF00FF = BitVec.ofNat 64 (fieldOpc v + 65536 * fieldReserved v) := by
  have hopc := (slice v 0 8).isLt
  calc v &&& 0xFFFFFFFFFFFF00FF
      = v &&& (fieldAt 0 (BitVec.allOnes 8) ||| fieldAt 16 (BitVec.allOnes 48)) := rfl
    _ = fieldAt 0 (slice v 0 8) ||| fieldAt 16 (slice v 16 48) := by
        rw [BitVec.and_or_distrib_left, fieldAt_slice, fieldAt_slice]
    _ = BitVec.ofNat 64 ((slice v 0 8).toNat + 65536 * (slice v 16 48).toNat) := by
        rw [ofNat_add_field (k := 16) (c := 65536) _ rfl (by omega), ofNat_toNat_eq_fieldAt]
    _ = _ := by rw [fieldOpc_eq_extractLsb', fieldReserved_eq_extractLsb']; rfl

theorem and_formatS_mask_eq {opc : Nat} (h : opc < 256) :
    v &&& 0xFFFFFFFFFFFF00FF = BitVec.ofNat 64 opc ↔ fieldReserved v = 0 ∧ opc = fieldOpc v := by
  have hv := toNat_eq_fields v
  have hlt := v.isLt
  have hopc : fieldOpc v < 256 := Nat.mod_lt _ (by decide)
  rw [and_formatS_mask, ← BitVec.toNat_inj, BitVec.toNat_ofNat, BitVec.toNat_ofNat]
  omega

end

/-! ### decoding, as an equivalence (R63, R66) -/

section
variable {v : Word} {i j : Instr} {opc sig : Nat}

theorem opcodeOf_lt (i : Instr) : opcodeOf i < 256 := by cases i <;> simp [opcodeOf]

theorem formatF_eq_ok : formatF j sig = .ok i ↔ j = i ∧ sig = 0 := by
  unfold formatF
  split <;> simp_all

/-- The map has one command for each opcode and operand, and format F counts as operand 0: the branches of the map
answer a command with that opcode and operand, or nothing. -/
theorem decodeOpcode_eq_ok : decodeOpcode opc sig = .ok i ↔ opcodeOf i = opc ∧ i.signal?.getD 0 = sig := by
  constructor
  · intro h
    unfold decodeOpcode at h
    split at h <;> grind [formatF_eq_ok, opcodeOf, Instr.signal?]
  · rintro ⟨rfl, rfl⟩
    cases i <;> rfl

theorem decodeWord_eq_ok :
    decodeWord v = .ok i ↔ fieldReserved v = 0 ∧ opcodeOf i = fieldOpc v ∧ i.signal?.getD 0 = fieldSig v := by
  unfold decodeWord
  split
  · simp_all
  · simp_all [decodeOpcode_eq_ok]

/-! ### the round trip -/

theorem wellFormed_iff : i.WellFormed ↔ i.signal?.getD 0 < 256 := by
  unfold Instr.WellFormed
  cases i.signal? <;> simp

theorem toNat_encodeWord (h : i.signal?.getD 0 < 256) :
    (encodeWord i).toNat = opcodeOf i + 256 * i.signal?.getD 0 := by
  have hopc := opcodeOf_lt i
  rw [encodeWord, BitVec.toNat_ofNat, Nat.mod_eq_of_lt (by omega)]

/-- R63 and R66 in one: a word decodes to a command iff it is that command's word. -/
theorem decodeWord_eq_ok_iff_encodeWord : decodeWord v = .ok i ↔ i.WellFormed ∧ encodeWord i = v := by
  rw [decodeWord_eq_ok, wellFormed_iff]
  have hopc := opcodeOf_lt i
  constructor
  · rintro ⟨hres, hopc, hsig⟩
    have hlt : i.signal?.getD 0 < 256 := hsig ▸ Nat.mod_lt _ (by decide)
    refine ⟨hlt, BitVec.eq_of_toNat_eq ?_⟩
    rw [toNat_encodeWord hlt, toNat_eq_fields v]
    omega
  · rintro ⟨hlt, rfl⟩
    rw [fieldReserved, fieldOpc, fieldSig, toNat_encodeWord hlt]
    omega

theorem decodeWord_encodeWord (h : i.signal?.getD 0 < 256) : decodeWord (encodeWord i) = .ok i :=
  decodeWord_eq_ok_iff_encodeWord.mpr ⟨wellFormed_iff.mpr h, rfl⟩

/-! ### the rows of the opcode map (R66) -/

/-- A row of format F is one word. -/
theorem formatF_row (v : Word) {row : Word} (h : i.signal? = none) (hrow : encodeWord i = row) :
    v &&& 0xFFFFFFFFFFFFFFFF = row ↔ decodeWord v = .ok i := by
  have hwf : i.WellFormed := by simp [wellFormed_iff, h]
  rw [← hrow, decodeWord_eq_ok_iff_encodeWord, and_allBits, and_iff_right hwf, eq_comm]

/-- A row of format S is every word with its opcode and no reserved bit; bits 15:8 are the operand. -/
theorem formatS_row (v : Word) {row : Word} (h : i.signal? = some (v.extractLsb' 8 8).toNat)
    (hrow : BitVec.ofNat 64 (opcodeOf i) = row) :
    v &&& 0xFFFFFFFFFFFF00FF = row ↔ decodeWord v = .ok i := by
  rw [← hrow, decodeWord_eq_ok, and_formatS_mask_eq v (opcodeOf_lt i), fieldSig_eq_extractLsb', h, Option.getD_some]
  simp

end

/-- Settles O1: the three fields of a command's word select its own opcode and carry its operand. -/
theorem decodeOfEncodedCommand : Obligations.DecodeOfEncodedCommand :=
  fun _ hwf => decodeWord_eq_ok_iff_encodeWord.mpr ⟨hwf, rfl⟩

/-- Settles O2: the fields the decoder reads are the whole word, and the encoder puts them back. -/
theorem encodeOfDecodedWord : Obligations.EncodeOfDecodedWord :=
  fun _ _ => decodeWord_eq_ok_iff_encodeWord.mp

/-- Settles O3: row by row of the map, in its order. -/
theorem decodeFollowsTheOpcodeMap : Obligations.DecodeFollowsTheOpcodeMap := fun v =>
  ⟨formatF_row v rfl rfl, formatF_row v rfl rfl,
    formatS_row v rfl rfl, formatS_row v rfl rfl, formatS_row v rfl rfl, formatS_row v rfl rfl,
    formatS_row v rfl rfl, formatS_row v rfl rfl, formatS_row v rfl rfl, formatS_row v rfl rfl,
    formatF_row v rfl rfl, formatF_row v rfl rfl, formatF_row v rfl rfl, formatF_row v rfl rfl, formatF_row v rfl rfl,
    formatF_row v rfl rfl⟩

/-- Settles O4: each word is the encoding of its command. -/
theorem workedCommandWordsDecode : Obligations.WorkedCommandWordsDecode :=
  ⟨decodeWord_encodeWord (i := .sreset) (by decide), decodeWord_encodeWord (i := .fldRead 3) (by decide),
    decodeWord_encodeWord (i := .toSigned 64) (by decide), decodeWord_encodeWord (i := .encode 255) (by decide),
    decodeWord_encodeWord (i := .rangePhys 63) (by decide), decodeWord_encodeWord (i := .packP) (by decide)⟩

end Sys2Proof.Machine
end

section
/-! PROOFS. A write to CMD (30_encoding.md R63, R67): the opcodes of the two formats, what the engine makes of a word
that is no command, and the fatal state, which only SRESET gets past (60_exceptions.md R147). -/

namespace Sys2Proof.Machine

/-! ### the opcodes of the two formats (R61, R62, R66) -/

/-- The opcodes of R66 whose row is of format F. -/
def formatFOpcodes : List Nat := [0x00, 0x01, 0x50, 0x51, 0x52, 0x53, 0x54, 0x55]

/-- The opcodes of R66 whose row is of format S. -/
def formatSOpcodes : List Nat := [0x10, 0x11, 0x20, 0x21, 0x30, 0x31, 0x40, 0x41]

theorem opcodeOf_mem_formatFOpcodes (i : Instr) : opcodeOf i ∈ formatFOpcodes ↔ i.signal? = none := by
  cases i <;> simp [opcodeOf, formatFOpcodes, Instr.signal?]

theorem opcodeOf_mem_formatSOpcodes (i : Instr) : opcodeOf i ∈ formatSOpcodes ↔ i.signal? ≠ none := by
  cases i <;> simp [opcodeOf, formatSOpcodes, Instr.signal?]

theorem exists_of_mem_formatFOpcodes : ∀ opc ∈ formatFOpcodes, ∃ i, i.signal? = none ∧ opcodeOf i = opc := by
  simp only [formatFOpcodes, List.forall_mem_cons]
  exact ⟨⟨.nop, rfl, rfl⟩, ⟨.sreset, rfl, rfl⟩, ⟨.init, rfl, rfl⟩, ⟨.initP, rfl, rfl⟩, ⟨.pack, rfl, rfl⟩,
    ⟨.packP, rfl, rfl⟩, ⟨.unpack, rfl, rfl⟩, ⟨.unpackP, rfl, rfl⟩, by simp⟩

theorem exists_of_mem_formatSOpcodes (sig : Nat) :
    ∀ opc ∈ formatSOpcodes, ∃ i, i.signal? = some sig ∧ opcodeOf i = opc := by
  simp only [formatSOpcodes, List.forall_mem_cons]
  exact ⟨⟨.fldRead sig, rfl, rfl⟩, ⟨.fldWrite sig, rfl, rfl⟩, ⟨.toSigned sig, rfl, rfl⟩, ⟨.toUbits sig, rfl, rfl⟩,
    ⟨.decode sig, rfl, rfl⟩, ⟨.encode sig, rfl, rfl⟩, ⟨.rangeRaw sig, rfl, rfl⟩, ⟨.rangePhys sig, rfl, rfl⟩, by simp⟩

/-! ### the engine at a write to CMD -/

section
variable {s : State} {v : Word} {i : Instr}

/-- In the fatal state every command but SRESET is ignored (R147). -/
theorem exec_fatal (hi : i ≠ .sreset) (hf : s.status.fatal = true) : exec i s = .next s := by
  cases i with
  | sreset => exact absurd rfl hi
  | _ => exact whenLive_fatal hf

theorem runCommand_of_ne_ok (h : ∀ i, decodeWord v ≠ .ok i) (s : State) : runCommand v s = illegalCommand s := by
  unfold runCommand
  split
  · exact absurd ‹_› (h _)
  · rfl

/-- Outside the fatal state a word that is no command is IllegalCommand (R63, R67). -/
theorem runCommand_illegal (hlive : Live s) (h : ∀ i, decodeWord v ≠ .ok i) :
    runCommand v s = .next (s.withErr .illegal) :=
  (runCommand_of_ne_ok h s).trans (whenLive_live (k := raiseErr .illegal s) hlive)

/-- In the fatal state every word but SRESET's is ignored, legal or not (R63 step (1)). -/
theorem runCommand_fatal (hf : s.status.fatal = true) (hv : v ≠ 1) : runCommand v s = .next s := by
  unfold runCommand
  split
  · next i hdecode =>
    obtain ⟨-, hword⟩ := decodeWord_eq_ok_iff_encodeWord.mp hdecode
    refine exec_fatal ?_ hf
    rintro rfl
    exact hv hword.symm
  · exact whenLive_fatal (k := raiseErr .illegal s) hf

/-- A word with a command's opcode and operand, and no reserved bit, is that command's word and runs it. -/
theorem encodeWord_runCommand_of_fields (hres : fieldReserved v = 0) (hopc : opcodeOf i = fieldOpc v)
    (hsig : i.signal?.getD 0 = fieldSig v) (s : State) : encodeWord i = v ∧ runCommand v s = exec i s := by
  have hdecode : decodeWord v = .ok i := decodeWord_eq_ok.mpr ⟨hres, hopc, hsig⟩
  exact ⟨(decodeWord_eq_ok_iff_encodeWord.mp hdecode).2, runCommand_of_decode hdecode s⟩

end

/-- Settles O6: a word with a reserved bit, an opcode of neither format, or an operand in format F decodes to nothing;
any other is the word of the command with its opcode and operand. -/
theorem commandWordsDecodeInOrder : Obligations.CommandWordsDecodeInOrder := by
  intro s v rest hq t
  rw [step_write_cmd hq, ← fieldOpc_eq_extractLsb', ← fieldSig_eq_extractLsb', ← fieldReserved_eq_extractLsb']
  refine ⟨fun _ hv => ?_, fun hf hv => runCommand_fatal (s := t) hf hv, fun hlive hres => ?_,
    fun hlive _ hF hS => ?_, fun hlive _ hF hsig => ?_, fun _ hres hF hsig => ?_, fun _ hres hS => ?_⟩
  · subst hv
    exact runCommand_of_decode rfl t
  · refine runCommand_illegal (s := t) hlive fun i hdecode => ?_
    obtain ⟨hzero, -, -⟩ := decodeWord_eq_ok.mp hdecode
    exact hres hzero
  · refine runCommand_illegal (s := t) hlive fun i hdecode => ?_
    obtain ⟨-, hopc, -⟩ := decodeWord_eq_ok.mp hdecode
    rw [← hopc] at hF hS
    exact hS ((opcodeOf_mem_formatSOpcodes i).mpr fun hnone => hF ((opcodeOf_mem_formatFOpcodes i).mpr hnone))
  · refine runCommand_illegal (s := t) hlive fun i hdecode => ?_
    obtain ⟨-, hopc, hoperand⟩ := decodeWord_eq_ok.mp hdecode
    rw [← hopc] at hF
    rw [(opcodeOf_mem_formatFOpcodes i).mp hF] at hoperand
    exact hsig hoperand.symm
  · obtain ⟨i, hnone, hopc⟩ := exists_of_mem_formatFOpcodes _ hF
    exact ⟨i, hnone, encodeWord_runCommand_of_fields hres hopc (by rw [hnone, hsig]; rfl) t⟩
  · obtain ⟨i, hsome, hopc⟩ := exists_of_mem_formatSOpcodes (fieldSig v) _ hS
    exact ⟨i, hsome, encodeWord_runCommand_of_fields hres hopc (by rw [hsome]; rfl) t⟩

end Sys2Proof.Machine
end

section
/-! PROOFS. The write set of every command (30_encoding.md R66; 10_state.md R10, R26): which commands may write which
register, what each update of the state adds to a write set, and what each command leaves. -/

namespace Sys2Proof.Machine

/-! ### the write sets (R10, R66) -/

/-- The registers that some command other than SRESET writes, beside ERR and the three fields of the fatal state. -/
inductive Item where
  | valv
  | xr
  | xp
  | raw
  | phys
  | fb
  | result
  | inr
  | sat

/-- The commands other than SRESET that may write a register. -/
@[simp] def MayWrite (i : Instr) : Item → Prop
  | .valv => i ∈ [.init, .initP, .unpack, .unpackP]
  | .xr => ∃ k, i ∈ [.fldRead k, .toSigned k, .toUbits k, .encode k]
  | .xp => ∃ k, i = .decode k
  | .raw => i ∈ [.init, .initP, .unpack, .unpackP]
  | .phys => i ∈ [.initP, .unpackP]
  | .fb => i ∈ [.pack, .packP] ∨ ∃ k, i = .fldWrite k
  | .result => i ∈ [.pack, .packP]
  | .inr => ∃ k, i ∈ [.rangeRaw k, .rangePhys k]
  | .sat => i ∈ [.initP, .unpackP] ∨ ∃ k, i = .decode k

/-- From `s` to `t` only registers that `i` may write have changed, and SAT and VALV were not cleared. -/
structure StaysIn (i : Instr) (s t : State) : Prop where
  desc : t.desc = s.desc
  params : t.params = s.params
  pending : t.pending = s.pending
  answers : t.answers = s.answers
  msg : t.msg = s.msg
  bufcap : t.ctrl.bufcap = s.ctrl.bufcap
  bufv : t.ctrl.bufv = s.ctrl.bufv
  satSticky : s.status.sat = true → t.status.sat = true
  valvSticky : s.ctrl.valv = true → t.ctrl.valv = true
  valv : t.ctrl.valv ≠ s.ctrl.valv → MayWrite i .valv
  xr : t.xr ≠ s.xr → MayWrite i .xr
  xp : t.xp ≠ s.xp → MayWrite i .xp
  raw : t.raw ≠ s.raw → MayWrite i .raw
  phys : t.phys ≠ s.phys → MayWrite i .phys
  fb : t.fb ≠ s.fb → MayWrite i .fb
  result : t.result ≠ s.result → MayWrite i .result
  inr : t.status.inr ≠ s.status.inr → MayWrite i .inr
  sat : t.status.sat ≠ s.status.sat → MayWrite i .sat

/-! ### the updates of the state -/

section
variable {i : Instr} {s t : State}

theorem StaysIn.refl (i : Instr) (s : State) : StaysIn i s s := by
  constructor <;> simp

theorem StaysIn.setErr (h : StaysIn i s t) (e : ErrCode) : StaysIn i s (t.setErr e) := { h with }

theorem StaysIn.raiseLayoutFault (h : StaysIn i s t) (f : LayoutFault) : StaysIn i s (t.raiseLayoutFault f) :=
  { h with }

theorem StaysIn.setXr (h : StaysIn i s t) (hi : MayWrite i .xr) (w : Word) : StaysIn i s (t.setXr w) :=
  { h with xr := fun _ => hi }

theorem StaysIn.setXp (h : StaysIn i s t) (hi : MayWrite i .xp) (w : Word) : StaysIn i s (t.setXp w) :=
  { h with xp := fun _ => hi }

theorem StaysIn.setRaw (h : StaysIn i s t) (hi : MayWrite i .raw) (j : Nat) (w : Word) : StaysIn i s (t.setRaw j w) :=
  { h with raw := fun _ => hi }

theorem StaysIn.setPhys (h : StaysIn i s t) (hi : MayWrite i .phys) (j : Nat) (w : Word) :
    StaysIn i s (t.setPhys j w) :=
  { h with phys := fun _ => hi }

theorem StaysIn.setFb (h : StaysIn i s t) (hi : MayWrite i .fb) (m : Memory) : StaysIn i s (t.setFb m) :=
  { h with fb := fun _ => hi }

theorem StaysIn.setResult (h : StaysIn i s t) (hi : MayWrite i .result) (w : Word) : StaysIn i s (t.setResult w) :=
  { h with result := fun _ => hi }

theorem StaysIn.setInr (h : StaysIn i s t) (hi : MayWrite i .inr) (b : Bool) : StaysIn i s (t.setInr b) :=
  { h with inr := fun _ => hi }

/-- SAT is only ever set (R26). -/
theorem StaysIn.noteSat (h : StaysIn i s t) (hi : MayWrite i .sat) (b : Bool) : StaysIn i s (t.noteSat b) :=
  { h with
    satSticky := fun hs => by simp [h.satSticky hs]
    sat := fun _ => hi }

/-- VALV is only ever set (R21). -/
theorem StaysIn.setValv (h : StaysIn i s t) (hi : MayWrite i .valv) : StaysIn i s t.setValv :=
  { h with
    valvSticky := fun _ => rfl
    valv := fun _ => hi }

theorem StaysIn.decodeSignal (h : StaysIn i s t) (hp : MayWrite i .phys) (hs : MayWrite i .sat) (j : Nat) (w : Word) :
    StaysIn i s (decodeSignal j w t) := (h.setPhys hp j _).noteSat hs _

end

/-! ### the tests and the loops of a command -/

section
variable {i : Instr} {s t : State} {k : Result} {sig : Nat} {body : Nat → State → State}

theorem leaves_staysIn_succeed (h : StaysIn i s t) : Leaves (StaysIn i s) (succeed t) := leaves_next (h.setErr .ok)

theorem leaves_staysIn_asserting {checks : List (Option LayoutFault)} (hk : Leaves (StaysIn i s) k) :
    Leaves (StaysIn i s) (asserting s checks k) := leaves_asserting (StaysIn.refl i s).raiseLayoutFault hk

theorem leaves_staysIn_onField (hk : Leaves (StaysIn i s) k) : Leaves (StaysIn i s) (onField sig s k) := by
  have hs := StaysIn.refl i s
  exact leaves_whenLive hs <| leaves_requireSignal (hs.setErr _) fun _ => leaves_requireBuffer (hs.setErr _) <|
    leaves_requireCapacity (hs.setErr _) <| leaves_staysIn_asserting <| leaves_guardBytes hk

theorem leaves_staysIn_onWidth (hk : Leaves (StaysIn i s) k) : Leaves (StaysIn i s) (onWidth sig s k) := by
  have hs := StaysIn.refl i s
  exact leaves_whenLive hs <| leaves_requireSignal (hs.setErr _) fun _ => leaves_staysIn_asserting hk

theorem leaves_staysIn_onTransform (hk : Leaves (StaysIn i s) k) : Leaves (StaysIn i s) (onTransform sig s k) := by
  have hs := StaysIn.refl i s
  exact leaves_whenLive hs <| leaves_requireSignal (hs.setErr _) fun _ => leaves_staysIn_asserting hk

/-- RANGE_RAW and RANGE_PHYS write INR in the failing case too (R106, R107). -/
theorem leaves_staysIn_range {checks : List (Option LayoutFault)} (hi : MayWrite i .inr) (b : Bool) :
    Leaves (StaysIn i s) (whenLive s <| requireSignal s sig (s.setInr false) <| asserting s checks <|
      succeed (s.setInr b)) := by
  have hinr := (StaysIn.refl i s).setInr hi
  exact leaves_whenLive (StaysIn.refl i s) <| leaves_requireSignal ((hinr false).setErr _) fun _ =>
    leaves_staysIn_asserting <| leaves_staysIn_succeed (hinr b)

/-- PACK and PACK.P write RESULT in the failing cases too (R23, R113). -/
theorem leaves_staysIn_onPackArguments (hi : MayWrite i .result) (hk : Leaves (StaysIn i s) k) :
    Leaves (StaysIn i s) (onPackArguments s k) := by
  have hfail := ((StaysIn.refl i s).setResult hi 0).setErr
  exact leaves_whenLive (StaysIn.refl i s) <| leaves_requireBufferAndValues (hfail _) <|
    leaves_requireCapacity (hfail _) hk

theorem leaves_staysIn_onUnpackArguments (hk : Leaves (StaysIn i s) k) :
    Leaves (StaysIn i s) (onUnpackArguments s k) := by
  have hs := StaysIn.refl i s
  exact leaves_whenLive hs <| leaves_requireBuffer (hs.setErr _) <| leaves_requireCapacity (hs.setErr _) hk

theorem StaysIn.forSignals (h : StaysIn i s t) (hbody : ∀ j u, StaysIn i s u → StaysIn i s (body j u)) :
    StaysIn i s (forSignals t body) :=
  forSignals_induct (P := fun _ u => StaysIn i s u) h fun j u _ hu => hbody j u hu

theorem leaves_staysIn_produceValues (hi : MayWrite i .valv)
    (hbody : ∀ j u, StaysIn i s u → StaysIn i s (body j u)) : Leaves (StaysIn i s) (produceValues body s) :=
  leaves_staysIn_succeed (((StaysIn.refl i s).forSignals hbody).setValv hi)

theorem leaves_staysIn_packWith (hfb : MayWrite i .fb) (hresult : MayWrite i .result)
    (hbody : ∀ j u, StaysIn i s u → StaysIn i s (body j u)) : Leaves (StaysIn i s) (packWith body s) :=
  leaves_staysIn_succeed ((((StaysIn.refl i s).setFb hfb _).forSignals hbody).setResult hresult _)

end

/-! ### the commands -/

/-- Every command but SRESET stays in its write set. -/
theorem exec_leaves_staysIn {i : Instr} (hi : i ≠ .sreset) (s : State) : Leaves (StaysIn i s) (exec i s) := by
  have hs := StaysIn.refl i s
  cases i with
  | nop => exact leaves_whenLive hs (leaves_staysIn_succeed hs)
  | sreset => exact absurd rfl hi
  | fldRead sig => exact leaves_staysIn_onField (leaves_staysIn_succeed (hs.setXr (by simp) _))
  | fldWrite sig => exact leaves_staysIn_onField (leaves_staysIn_succeed (hs.setFb (by simp) _))
  | toSigned sig => exact leaves_staysIn_onWidth (leaves_staysIn_succeed (hs.setXr (by simp) _))
  | toUbits sig => exact leaves_staysIn_onWidth (leaves_staysIn_succeed (hs.setXr (by simp) _))
  | decode sig =>
    exact leaves_staysIn_onTransform (leaves_staysIn_succeed ((hs.setXp (by simp) _).noteSat (by simp) _))
  | encode sig => exact leaves_staysIn_onTransform (leaves_staysIn_succeed (hs.setXr (by simp) _))
  | rangeRaw sig => exact leaves_staysIn_range (by simp) _
  | rangePhys sig => exact leaves_staysIn_range (by simp) _
  | init =>
    exact leaves_whenLive hs <| leaves_staysIn_asserting <| leaves_staysIn_produceValues (by simp) fun j _ hu =>
      hu.setRaw (by simp) j _
  | initP =>
    exact leaves_whenLive hs <| leaves_staysIn_asserting <| leaves_staysIn_produceValues (by simp) fun j _ hu =>
      (hu.setRaw (by simp) j _).decodeSignal (by simp) (by simp) j _
  | pack =>
    exact leaves_staysIn_onPackArguments (by simp) <| leaves_staysIn_asserting <| leaves_guardBytes <|
      leaves_staysIn_packWith (by simp) (by simp) fun _ _ hu => hu.setFb (by simp) _
  | packP =>
    exact leaves_staysIn_onPackArguments (by simp) <| leaves_staysIn_asserting <| leaves_guardBytes <|
      leaves_staysIn_packWith (by simp) (by simp) fun _ _ hu => hu.setFb (by simp) _
  | unpack =>
    exact leaves_staysIn_onUnpackArguments <| leaves_staysIn_asserting <| leaves_guardBytes <|
      leaves_staysIn_produceValues (by simp) fun j _ hu => hu.setRaw (by simp) j _
  | unpackP =>
    exact leaves_staysIn_onUnpackArguments <| leaves_staysIn_asserting <| leaves_guardBytes <|
      leaves_staysIn_produceValues (by simp) fun j _ hu =>
        (hu.setRaw (by simp) j _).decodeSignal (by simp) (by simp) j _

/-- Settles O56: SRESET keeps the storage, the parameters and the port's queue and answers, and may write the rest;
every other command stays in its write set, and in the fatal state it is ignored. -/
theorem everyCommandStaysInItsWriteSet : Obligations.EveryCommandStaysInItsWriteSet := by
  intro i s t h
  by_cases hi : i = .sreset
  · subst hi
    cases h
    simp
  · have hstays := exec_leaves_staysIn hi s t h
    have hfatal : s.status.fatal = true → t = s := fun hf => by
      rw [exec_fatal hi hf] at h
      cases h
      rfl
    exact ⟨hstays.desc, hstays.params, hstays.pending, hstays.answers,
      fun _ => ⟨hstays.msg, hstays.bufcap, hstays.bufv, hstays.satSticky, hstays.valvSticky, hfatal⟩,
      fun hne => List.mem_append_left [Instr.sreset] (hstays.valv hne), fun hne => .inr (hstays.xr hne),
      fun hne => .inr (hstays.xp hne), hstays.raw, hstays.phys, hstays.fb,
      fun hne => List.mem_append_left [Instr.sreset] (hstays.result hne), fun hne => .inr (hstays.inr hne),
      fun hne => (hstays.sat hne).imp_left (List.mem_append_left [Instr.sreset])⟩

end Sys2Proof.Machine
end

section
/-! PROOFS. The failures of every command in the order of R146 (60_exceptions.md R141, R144, R145, R146): each command
other than NOP and SRESET is one chain of tests, made for it from its class (does it use the buffer, does it pack, is
it a range command, does it use the transform), before its effect. -/

namespace Sys2Proof.Machine

/-! ### the chain of tests -/

/-- The writes that the line of a failing argument test names beside ERR (R141). -/
def State.withFailureWrites (s : State) (i : Instr) : State :=
  { s with
    result := if isPack i then 0 else s.result
    status := { s.status with inr := if isRange i then false else s.status.inr } }

/-- R146 steps 4 and 5 before `k`. -/
def bufferTests (i : Instr) (s : State) (k : Result) : Result :=
  let onErr := s.withFailureWrites i
  if usesBuffer i then
    (if isPack i then requireBufferAndValues s onErr else requireBuffer s onErr) (requireCapacity s onErr k)
  else k

/-- R146 steps 3, 4 and 5 before `k`. -/
def argumentTests (i : Instr) (s : State) (k : Result) : Result :=
  match i.signal? with
  | some j => requireSignal s j (s.withFailureWrites i) (bufferTests i s k)
  | none => bufferTests i s k

/-- The assertions a command makes of descriptor `j`, in the order of R146 step 6. -/
def descriptorChecks (i : Instr) (s : State) (j : Nat) : List (Option LayoutFault) :=
  assertField s j ::
    ((if usesBuffer i then [assertPlace s j] else []) ++ if usesTransform i then [assertXform s j] else [])

/-- The assertions a command makes of its own descriptor (format S), or of each of the layout (format F). -/
def descriptorPass (i : Instr) (s : State) : List (Option LayoutFault) :=
  match i.signal? with
  | some j => descriptorChecks i s j
  | none => assertEach s (descriptorChecks i s)

/-- The assertions a command makes, in the order of R146 step 6. -/
def layoutChecks (i : Instr) (s : State) : List (Option LayoutFault) :=
  assertMsg s :: ((if usesBuffer i then [assertFrame s] else []) ++ descriptorPass i s)

/-- Every command but NOP and SRESET is the chain of tests before some effect. -/
theorem exec_eq_tests {i : Instr} (hnop : i ≠ .nop) (hsreset : i ≠ .sreset) (s : State) :
    ∃ k, exec i s = whenLive s (argumentTests i s (asserting s (layoutChecks i s) k)) := by
  cases i with
  | nop => exact absurd rfl hnop
  | sreset => exact absurd rfl hsreset
  | _ => exact ⟨_, rfl⟩

/-! ### the argument and capacity tests (R146 steps 3 to 5) -/

section
variable {i : Instr} {s : State} {k : Result}

theorem argumentTests_badSignal (h : BadSignal i s) : argumentTests i s k = .next (s.failed i .argument) := by
  obtain ⟨j, hj, hbad⟩ := h
  simp only [argumentTests, hj]
  exact requireSignal_err hbad

theorem argumentTests_signalOk (h : ¬ BadSignal i s) : argumentTests i s k = bufferTests i s k := by
  cases hsig : i.signal? with
  | none => simp only [argumentTests, hsig]
  | some j =>
    simp only [argumentTests, hsig]
    exact requireSignal_ok (Decidable.not_not.mp fun hbad => h ⟨j, hsig, hbad⟩)

theorem bufferTests_missingReference (h : MissingReference i s) :
    bufferTests i s k = .next (s.failed i .argument) := by
  obtain ⟨huse, hmissing⟩ := h
  rw [bufferTests, if_pos huse]
  split
  · next hpack =>
    exact requireBufferAndValues_err (hmissing.elim .inr fun hvalv => .inl hvalv.2)
  · next hpack =>
    exact requireBuffer_err (hmissing.elim id fun hvalv => absurd hvalv.1 hpack)

/-- With the references there, the capacity test decides. -/
theorem bufferTests_references (h : ¬ MissingReference i s) (huse : usesBuffer i = true) :
    bufferTests i s k = requireCapacity s (s.withFailureWrites i) k := by
  have hbufv : s.ctrl.bufv = true := Bool.eq_true_of_not_eq_false fun hb => h ⟨huse, .inl hb⟩
  rw [bufferTests, if_pos huse]
  split
  · next hpack =>
    have hvalv : s.ctrl.valv = true := Bool.eq_true_of_not_eq_false fun hv => h ⟨huse, .inr ⟨hpack, hv⟩⟩
    exact requireBufferAndValues_ok hvalv hbufv
  · exact requireBuffer_ok hbufv

theorem bufferTests_shortBuffer (h : ¬ MissingReference i s) (hshort : ShortBuffer i s) :
    bufferTests i s k = .next (s.failed i .capacity) :=
  (bufferTests_references h hshort.1).trans (requireCapacity_err hshort.2)

theorem argumentTests_ok (h : ArgumentsOk i s) : argumentTests i s k = k := by
  obtain ⟨hsig, href, hcap⟩ := h
  rw [argumentTests_signalOk hsig]
  cases huse : usesBuffer i with
  | true =>
    rw [bufferTests_references href huse]
    exact requireCapacity_ok (Nat.le_of_not_lt fun hlt => hcap ⟨huse, hlt⟩)
  | false => simp only [bufferTests, huse, Bool.false_eq_true, if_false]

end

/-! ### the first assertion that fails (R144, R146 step 6) -/

section
variable {i : Instr} {s : State} {j : Nat}

theorem assertMsg_some (h : ¬ CountOk s) : assertMsg s = some ⟨.signalCount, 0⟩ := if_pos (Nat.lt_of_not_le h)

theorem assertFrame_some (h : ¬ FrameOk s) : assertFrame s = some ⟨.frameLength, 0⟩ := if_pos (Nat.lt_of_not_le h)

theorem assertField_some (h : ¬ FieldOk (s.descAt j)) : assertField s j = some ⟨.fieldLength, j⟩ := by
  unfold FieldOk at h
  exact if_pos (by unfold Descriptor.len; omega)

theorem assertPlace_some (h : ¬ PlaceOk s.msg.lengthBytes.toNat (s.descAt j)) :
    assertPlace s j = some ⟨.fieldPlace, j⟩ := by
  rw [← assertPlace_none] at h
  unfold assertPlace at h ⊢
  split at h
  · next hlt => exact if_pos hlt
  · exact absurd rfl h

theorem assertXform_some (h : ¬ XformOk (s.descAt j)) : assertXform s j = some ⟨.scaleZero, j⟩ :=
  if_pos (Decidable.not_not.mp h)

theorem forall_mem_ite_singleton {b : Bool} {c : Option LayoutFault} :
    (∀ x ∈ (if b then [c] else []), x = none) ↔ (b = true → c = none) := by
  cases b <;> simp

theorem firstFault_descriptorChecks_none :
    firstFault (descriptorChecks i s j) = none ↔ DescriptorOk i s j := by
  rw [firstFault_none, descriptorChecks, List.forall_mem_cons, List.forall_mem_append, forall_mem_ite_singleton,
    forall_mem_ite_singleton, assertField_none, assertPlace_none, assertXform_none]

/-- A failing descriptor is reported with cause 1, then 2, then 3. -/
theorem firstFault_descriptorChecks_some (h : ¬ DescriptorOk i s j) :
    ∃ c : LayoutCause, firstFault (descriptorChecks i s j) = some ⟨c, j⟩ ∧ c.code = descriptorCause i s j := by
  by_cases hfield : FieldOk (s.descAt j)
  · by_cases hplace : usesBuffer i = true ∧ ¬ PlaceOk s.msg.lengthBytes.toNat (s.descAt j)
    · refine ⟨.fieldPlace, ?_, by rw [descriptorCause, if_neg (not_not_intro hfield), if_pos hplace]; rfl⟩
      simp only [descriptorChecks, assertField_none.mpr hfield, hplace.1, if_true, assertPlace_some hplace.2]
      rfl
    · have hplace' : usesBuffer i = true → assertPlace s j = none := fun huse =>
        assertPlace_none.mpr (Decidable.not_not.mp fun hbad => hplace ⟨huse, hbad⟩)
      have hxform : usesTransform i = true ∧ ¬ XformOk (s.descAt j) := by
        by_contra hx
        exact h ⟨hfield, fun huse => assertPlace_none.mp (hplace' huse),
          fun huse => Decidable.not_not.mp fun hbad => hx ⟨huse, hbad⟩⟩
      refine ⟨.scaleZero, ?_, by rw [descriptorCause, if_neg (not_not_intro hfield), if_neg hplace]; rfl⟩
      simp only [descriptorChecks, assertField_none.mpr hfield, hxform.1, if_true, assertXform_some hxform.2]
      split
      · next huse =>
        rw [hplace' huse]
        rfl
      · rfl
  · refine ⟨.fieldLength, ?_, by rw [descriptorCause, if_pos hfield]; rfl⟩
    rw [descriptorChecks, assertField_some hfield, firstFault]

/-- The per-signal pass reports the first signal whose assertions fail. -/
theorem firstFault_assertEach_some {checks : Nat → List (Option LayoutFault)} {f : LayoutFault} (hj : SignalOk s j)
    (hfirst : ∀ j', j' < j → firstFault (checks j') = none) (hf : firstFault (checks j) = some f) :
    firstFault (assertEach s checks) = some f := by
  have hpass : ∀ n, j < n → firstFault ((List.range n).flatMap checks) = some f := by
    intro n hn
    induction n with
    | zero => exact absurd hn (Nat.not_lt_zero j)
    | succ n ih =>
      rw [List.range_succ, List.flatMap_append, firstFault_append, List.flatMap_singleton]
      by_cases hjn : j < n
      · rw [ih hjn, Option.some_or]
      · obtain rfl : j = n := by omega
        have hnone : firstFault ((List.range j).flatMap checks) = none :=
          firstFault_none.mpr fun c hc => by
            obtain ⟨j', hj', hc⟩ := List.mem_flatMap.mp hc
            exact firstFault_none.mp (hfirst j' (List.mem_range.mp hj')) c hc
        rw [hnone, Option.none_or, hf]
  exact hpass _ hj

theorem firstFault_layoutChecks_count (h : ¬ CountOk s) :
    firstFault (layoutChecks i s) = some ⟨.signalCount, 0⟩ := by
  rw [layoutChecks, assertMsg_some h, firstFault]

theorem firstFault_layoutChecks_frame (hcount : CountOk s) (huse : usesBuffer i = true) (h : ¬ FrameOk s) :
    firstFault (layoutChecks i s) = some ⟨.frameLength, 0⟩ := by
  rw [layoutChecks, assertMsg_none.mpr hcount, if_pos huse, assertFrame_some h]
  rfl

/-- Causes 4 and 5 aside, the pass over the descriptors decides. -/
theorem firstFault_layoutChecks_descriptors (hcount : CountOk s) (hframe : usesBuffer i = true → FrameOk s) :
    firstFault (layoutChecks i s) = firstFault (descriptorPass i s) := by
  rw [layoutChecks, assertMsg_none.mpr hcount, firstFault, firstFault_append]
  cases huse : usesBuffer i with
  | true => rw [if_pos rfl, assertFrame_none.mpr (hframe huse)]; rfl
  | false => rfl

theorem firstFault_layoutChecks_descriptor (hcount : CountOk s) (hframe : usesBuffer i = true → FrameOk s)
    (hj : Asserts i s j) (hfail : ¬ DescriptorOk i s j)
    (hfirst : ∀ j', j' < j → Asserts i s j' → DescriptorOk i s j') :
    ∃ c : LayoutCause, firstFault (layoutChecks i s) = some ⟨c, j⟩ ∧ c.code = descriptorCause i s j := by
  obtain ⟨c, hc, hcode⟩ := firstFault_descriptorChecks_some hfail
  refine ⟨c, ?_, hcode⟩
  rw [firstFault_layoutChecks_descriptors hcount hframe]
  rcases hj with hsig | ⟨hsig, hnop, hsreset, hlt⟩
  · simp only [descriptorPass, hsig]
    exact hc
  · simp only [descriptorPass, hsig]
    exact firstFault_assertEach_some hlt (fun j' hj' => firstFault_descriptorChecks_none.mpr
      (hfirst j' hj' (.inr ⟨hsig, hnop, hsreset, Nat.lt_trans hj' hlt⟩))) hc

end

/-! ### the order of the failures (R146) -/

/-- A command other than NOP and SRESET fails as R146 says, each case only when no earlier one applies. -/
theorem exec_failsInOrder {i : Instr} (hnop : i ≠ .nop) (hsreset : i ≠ .sreset) (s : State) : FailsInOrder i s := by
  obtain ⟨k, hk⟩ := exec_eq_tests hnop hsreset s
  have hlive (h : Live s) : exec i s = argumentTests i s (asserting s (layoutChecks i s) k) :=
    hk.trans (whenLive_live h)
  have hfault {f : LayoutFault} (h : Live s) (ha : ArgumentsOk i s) (hf : firstFault (layoutChecks i s) = some f) :
      exec i s = .next (s.faulted f.cause.code f.sig) := by
    rw [hlive h, argumentTests_ok ha, asserting_some hf]
    rfl
  refine ⟨exec_fatal hsreset, fun h hbad => ?_, fun h hsig hmiss => ?_, fun h hsig href hshort => ?_,
    fun h ha hcount => hfault h ha (firstFault_layoutChecks_count hcount),
    fun h ha hcount huse hframe => hfault h ha (firstFault_layoutChecks_frame hcount huse hframe),
    fun h ha hcount hframe j hj hfail hfirst => ?_⟩
  · rw [hlive h, argumentTests_badSignal hbad]
  · rw [hlive h, argumentTests_signalOk hsig, bufferTests_missingReference hmiss]
  · rw [hlive h, argumentTests_signalOk hsig, bufferTests_shortBuffer href hshort]
  · obtain ⟨c, hc, hcode⟩ := firstFault_layoutChecks_descriptor hcount hframe hj hfail hfirst
    rw [hfault h ha hc, hcode]

end Sys2Proof.Machine
end

section
/-! PROOFS. The accessor (40_bitfield_accessor.md R80 to R88): FLD_READ and FLD_WRITE, the four laws, and the closed
forms over the whole frame. A buffer is known by its bits, so each law is argued for one bit at one place. -/

namespace Sys2Proof.Machine

/-! ### the commands (R84, R85) -/

section
variable {s : State} {i : Nat} {k : Result}

/-- Every test of FLD_READ and FLD_WRITE passed, the effect is reached. -/
theorem onField_ok (hlive : Live s) (hsig : SignalOk s i) (hbuf : BufferOk s) (hcount : CountOk s)
    (hframe : FrameOk s) (hfield : FieldOk (s.descAt i)) (hplace : PlaceOk s.msg.lengthBytes.toNat (s.descAt i)) :
    onField i s k = k := by
  rw [onField, whenLive_live hlive, requireSignal_ok hsig, requireBuffer_ok hbuf.1, requireCapacity_ok hbuf.2,
    asserting_none (fieldChecks_none.mpr ⟨hcount, hframe, hfield, hplace⟩), guardBytes_field hframe hplace]

end

/-- Settles O27: the failures are those of every command; otherwise XR gets `fld_read`, known bit by bit. -/
theorem fldReadPutsTheFieldInXR : Obligations.FldReadPutsTheFieldInXR := by
  refine fun s i => ⟨exec_failsInOrder (by simp) (by simp) s,
    fun hlive hsig hbuf hcount hframe hfield hplace =>
      ⟨fldRead (s.descAt i) s.fb, onField_ok hlive hsig hbuf hcount hframe hfield hplace,
        fun k hk => ?_, fun k hk => ?_⟩⟩
  · rw [getLsbD_fldRead _ _ hfield.2, decide_eq_true hk, Bool.true_and]
  · rw [getLsbD_fldRead _ _ hfield.2, decide_eq_false (Nat.not_lt.mpr hk), Bool.false_and]

/-- Settles O28: the failures are those of every command; otherwise FB becomes what `fld_write` leaves of it. -/
theorem fldWriteChangesOnlyTheField : Obligations.FldWriteChangesOnlyTheField := by
  refine fun s i => ⟨exec_failsInOrder (by simp) (by simp) s,
    fun hlive hsig hbuf hcount hframe hfield hplace hwf => ?_⟩
  obtain ⟨-, hset, hkeep⟩ := fldWrite_spec (s.descAt i) s.fb s.xr hwf
  exact ⟨fldWrite (s.descAt i) s.fb s.xr, onField_ok hlive hsig hbuf hcount hframe hfield hplace, hset, hkeep⟩

/-! ### the four laws (R88) -/

section
variable {d e : Descriptor} {m : Memory}

/-- Law 1: what was written is read back, cut to L bits. -/
theorem fldRead_fldWrite_same (hL : d.lengthBits.toNat ≤ 64) (hm : Memory.wf m) (w : Word) :
    fldRead d (fldWrite d m w) = zextL d.lengthBits.toNat w := by
  obtain ⟨-, hset, -⟩ := fldWrite_spec d m w hm
  apply BitVec.eq_of_getLsbD_eq
  intro i _
  rw [getLsbD_fldRead d _ hL, zextL_getLsbD hL]
  by_cases hi : i < d.lengthBits.toNat
  · rw [hset i hi]
  · simp only [hi, decide_false, Bool.false_and]

/-- Law 2: writing what was read changes nothing. -/
theorem fldWrite_fldRead_same (hL : d.lengthBits.toNat ≤ 64) (hm : Memory.wf m) : fldWrite d m (fldRead d m) = m := by
  obtain ⟨hwf, hset, hkeep⟩ := fldWrite_spec d m (fldRead d m) hm
  refine fb_ext_bits hwf hm fun a k _ => ?_
  by_cases hc : Covers d (a, k)
  · obtain ⟨w, hw, hplace⟩ := hc
    rw [← hplace, hset w hw, getLsbD_fldRead d m hL, decide_eq_true hw, Bool.true_and]
  · exact hkeep _ hc

/-- No place is in both of two disjoint fields. -/
theorem DisjointFields.not_covers (h : DisjointFields d e) {p : Nat × Nat} (hd : Covers d p) : ¬ Covers e p := by
  obtain ⟨w, hw, rfl⟩ := hd
  exact h w hw

/-- Law 4, a write and a read: a field is not changed through a disjoint one. -/
theorem fldRead_fldWrite_disjoint (h : DisjointFields d e) (hL : e.lengthBits.toNat ≤ 64) (hm : Memory.wf m)
    (w : Word) : fldRead e (fldWrite d m w) = fldRead e m := by
  obtain ⟨-, -, hkeep⟩ := fldWrite_spec d m w hm
  exact fldRead_congr e _ _ hL fun i hi => hkeep _ fun hd => h.not_covers hd ⟨i, hi, rfl⟩

/-- Law 4, two writes: disjoint fields may be written in either order. -/
theorem fldWrite_comm (h : DisjointFields d e) (hm : Memory.wf m) (w w' : Word) :
    fldWrite e (fldWrite d m w) w' = fldWrite d (fldWrite e m w') w := by
  obtain ⟨hwfd, hsetd, hkeepd⟩ := fldWrite_spec d m w hm
  obtain ⟨hwfe, hsete, hkeepe⟩ := fldWrite_spec e m w' hm
  obtain ⟨hwfde, hsetde, hkeepde⟩ := fldWrite_spec e (fldWrite d m w) w' hwfd
  obtain ⟨hwfed, hseted, hkeeped⟩ := fldWrite_spec d (fldWrite e m w') w hwfe
  refine fb_ext_bits hwfde hwfed fun a k _ => ?_
  by_cases hd : Covers d (a, k)
  · rw [hkeepde _ (h.not_covers hd)]
    obtain ⟨i, hi, hplace⟩ := hd
    rw [← hplace, hsetd i hi, hseted i hi]
  · rw [hkeeped _ hd]
    by_cases he : Covers e (a, k)
    · obtain ⟨i, hi, hplace⟩ := he
      rw [← hplace, hsetde i hi, hsete i hi]
    · rw [hkeepde _ he, hkeepd _ hd, hkeepe _ he]

end

/-- Settles O29: the laws one by one; law 3 is what `fld_write` keeps. -/
theorem accessorLaws : Obligations.AccessorLaws := by
  intro d e m w w' hd he hm
  obtain ⟨-, -, hkeep⟩ := fldWrite_spec d m w hm
  exact ⟨fldRead_fldWrite_same hd.2 hm w, fldWrite_fldRead_same hd.2 hm, hkeep,
    fun h => ⟨fldRead_fldWrite_disjoint h he.2 hm w, fldWrite_comm h hm w w'⟩⟩

/-! ### the field in the direction of travel (R80, R86) -/

/-- The field's first bit, counted in the direction of travel: `a` or `q0`. -/
def firstBit (d : Descriptor) : Nat :=
  match d.byteOrder with
  | .littleEndian => d.startBit.toNat
  | .bigEndian => bigStart d

section
variable {d : Descriptor}

theorem fieldEnd_eq (d : Descriptor) : fieldEnd d = firstBit d + d.lengthBits.toNat := by
  unfold fieldEnd firstBit
  cases d.byteOrder <;> rfl

theorem firstBit_little (h : d.byteOrder = .littleEndian) : firstBit d = d.startBit.toNat := by
  simp only [firstBit, h]

theorem firstBit_big (h : d.byteOrder = .bigEndian) : firstBit d = bigStart d := by
  simp only [firstBit, h]

/-- Travelling along a BigEndian field starts in the byte of START_BIT too. -/
theorem bigStart_div (d : Descriptor) : bigStart d / 8 = d.startBit.toNat / 8 := by
  unfold bigStart
  omega

theorem triples_little (h : d.byteOrder = .littleEndian) :
    triples d = (List.range d.lengthBits.toNat).map fun i =>
      ⟨(d.startBit.toNat + i) / 8, (d.startBit.toNat + i) % 8, i⟩ := by
  simp only [triples, h]
  rfl

theorem triples_big (h : d.byteOrder = .bigEndian) :
    triples d = (List.range d.lengthBits.toNat).map fun j =>
      ⟨(bigStart d + j) / 8, 7 - (bigStart d + j) % 8, d.lengthBits.toNat - 1 - j⟩ := by
  simp only [triples, h]
  exact triplesBig_eq _ _ _ (by omega)

/-- The bytes of a field are those of the stretch of L bits from its first on. -/
theorem mem_touchedBytes_iff (b : Nat) :
    b ∈ touchedBytes d ↔ ∃ j, j < d.lengthBits.toNat ∧ (firstBit d + j) / 8 = b := by
  cases hbo : d.byteOrder with
  | littleEndian =>
    simp only [touchedBytes, triples_little hbo, firstBit_little hbo, List.mem_map, List.mem_range,
      exists_exists_and_eq_and]
  | bigEndian =>
    simp only [touchedBytes, triples_big hbo, firstBit_big hbo, List.mem_map, List.mem_range,
      exists_exists_and_eq_and]

theorem touchedBytes_first (h : FieldOk d) : firstBit d / 8 ∈ touchedBytes d :=
  (mem_touchedBytes_iff _).mpr ⟨0, h.1, rfl⟩

theorem touchedBytes_last (h : FieldOk d) : (firstBit d + d.lengthBits.toNat - 1) / 8 ∈ touchedBytes d := by
  have hL := h.1
  exact (mem_touchedBytes_iff _).mpr ⟨d.lengthBits.toNat - 1, by omega, by rw [Nat.add_sub_assoc hL]⟩

/-- No byte before the first or after the last is touched. -/
theorem touchedBytes_filter (d : Descriptor) :
    touchedBytes d = (touchedBytes d).filter
      fun b => firstBit d / 8 ≤ b && b ≤ (firstBit d + d.lengthBits.toNat - 1) / 8 := by
  refine (List.filter_eq_self.mpr fun b hb => ?_).symm
  obtain ⟨j, hj, rfl⟩ := (mem_touchedBytes_iff b).mp hb
  have hlow : firstBit d / 8 ≤ (firstBit d + j) / 8 := Nat.div_le_div_right (by omega)
  have hhigh : (firstBit d + j) / 8 ≤ (firstBit d + d.lengthBits.toNat - 1) / 8 := Nat.div_le_div_right (by omega)
  simp [hlow, hhigh]

/-- The field lies inside the frame iff each of its bytes does: the last one decides. -/
theorem placeOk_iff (h : FieldOk d) (n : Nat) : (∀ t ∈ triples d, t.byte < n) ↔ PlaceOk n d := by
  constructor
  · intro hall
    obtain ⟨t, ht, hbyte⟩ := List.mem_map.mp (touchedBytes_last h)
    have hlast := hall t ht
    rw [hbyte] at hlast
    unfold PlaceOk
    rw [fieldEnd_eq]
    omega
  · exact fun hp t ht => touchedBytes_lt hp t.byte (List.mem_map_of_mem ht)

end

/-! ### the frame as one number (R86) -/

/-- The number whose base-256 digits are the bytes `f 0`, …, `f (n-1)`, the least significant first. -/
def bytesNumber (f : Nat → Byte) (n : Nat) : Nat := ∑ i ∈ Finset.range n, (f i).toNat * 2 ^ (8 * i)

theorem foldl_add_eq_sum (g : Nat → Nat) (n : Nat) :
    (List.range n).foldl (fun acc i => acc + g i) 0 = ∑ i ∈ Finset.range n, g i := by
  induction n with
  | zero => rfl
  | succ n ih => rw [List.range_succ, List.foldl_append, ih, Finset.sum_range_succ]; rfl

theorem leInt_eq_bytesNumber (m : Memory) (n : Nat) :
    (List.range n).foldl (fun acc i => acc + (fbRead m i).toNat * 2 ^ (8 * i)) 0 = bytesNumber (fbRead m) n :=
  foldl_add_eq_sum _ n

/-- The BigEndian number is that of the bytes taken from the last to the first. -/
theorem beInt_eq_bytesNumber (m : Memory) (n : Nat) :
    (List.range n).foldl (fun acc i => acc + (fbRead m i).toNat * 2 ^ (8 * (n - 1 - i))) 0 =
      bytesNumber (fun i => fbRead m (n - 1 - i)) n := by
  rw [foldl_add_eq_sum, bytesNumber,
    ← Finset.sum_range_reflect (fun i => (fbRead m (n - 1 - i)).toNat * 2 ^ (8 * i)) n]
  refine Finset.sum_congr rfl fun i hi => ?_
  have hback : n - 1 - (n - 1 - i) = i := by
    have := Finset.mem_range.mp hi
    omega
  rw [hback]

theorem bytesNumber_lt (f : Nat → Byte) (n : Nat) : bytesNumber f n < 2 ^ (8 * n) := by
  induction n with
  | zero => exact Nat.one_pos
  | succ n ih =>
    have hdigit : (f n).toNat + 1 ≤ 2 ^ 8 := (f n).isLt
    calc bytesNumber f (n + 1)
        = bytesNumber f n + (f n).toNat * 2 ^ (8 * n) := Finset.sum_range_succ _ _
      _ < ((f n).toNat + 1) * 2 ^ (8 * n) := by linarith
      _ ≤ 2 ^ 8 * 2 ^ (8 * n) := Nat.mul_le_mul_right _ hdigit
      _ = 2 ^ (8 * (n + 1)) := by ring

/-- Bit `j` of the number is bit `j mod 8` of its byte `j div 8`. -/
theorem testBit_bytesNumber (f : Nat → Byte) {n j : Nat} (hj : j < 8 * n) :
    (bytesNumber f n).testBit j = (f (j / 8)).getLsbD (j % 8) := by
  induction n with
  | zero => omega
  | succ n ih =>
    have hsucc : bytesNumber f (n + 1) = 2 ^ (8 * n) * (f n).toNat + bytesNumber f n := by
      rw [bytesNumber, Finset.sum_range_succ, bytesNumber]
      ring
    rw [hsucc, Nat.testBit_two_pow_mul_add _ (bytesNumber_lt f n)]
    split
    · next hlow => exact ih hlow
    · next hhigh =>
      have hdiv : j / 8 = n := by omega
      have hmod : j % 8 = j - 8 * n := by omega
      rw [hdiv, hmod, BitVec.testBit_toNat]

section
variable {d : Descriptor} {n : Nat}

/-- A field whose bit `i` is bit `c + i` of a number is the number's L bits from `c` on. -/
theorem toNat_fldRead_eq (hf : FieldOk d) (m : Memory) {x c : Nat}
    (h : ∀ i, i < d.lengthBits.toNat → x.testBit (c + i) = bitAt m (bitPlace d i)) :
    (fldRead d m).toNat = x / 2 ^ c % 2 ^ d.lengthBits.toNat := by
  apply Nat.eq_of_testBit_eq
  intro i
  rw [BitVec.testBit_toNat, getLsbD_fldRead d m hf.2, Nat.testBit_mod_two_pow, Nat.testBit_div_two_pow]
  by_cases hi : i < d.lengthBits.toNat
  · rw [Nat.add_comm i c, h i hi]
  · simp only [hi, decide_false, Bool.false_and]

theorem toNat_fldRead_little (hf : FieldOk d) (hbo : d.byteOrder = .littleEndian) (hp : PlaceOk n d) (m : Memory) :
    (fldRead d m).toNat = bytesNumber (fbRead m) n / 2 ^ d.startBit.toNat % 2 ^ d.lengthBits.toNat := by
  refine toNat_fldRead_eq hf m fun i hi => ?_
  rw [PlaceOk, fieldEnd_eq, firstBit_little hbo] at hp
  rw [testBit_bytesNumber _ (by omega)]
  simp only [bitAt, bitPlace, hbo]

/-- Position `q` in the direction of travel is bit `8n - 1 - q` of the BigEndian number. -/
theorem toNat_fldRead_big (hf : FieldOk d) (hbo : d.byteOrder = .bigEndian) (hp : PlaceOk n d) (m : Memory) :
    (fldRead d m).toNat =
      bytesNumber (fun i => fbRead m (n - 1 - i)) n / 2 ^ (8 * n - bigStart d - d.lengthBits.toNat) %
        2 ^ d.lengthBits.toNat := by
  refine toNat_fldRead_eq hf m fun i hi => ?_
  rw [PlaceOk, fieldEnd_eq, firstBit_big hbo] at hp
  rw [testBit_bytesNumber _ (by omega)]
  simp only [bitAt, bitPlace, hbo]
  congr 2 <;> omega

end

/-- Settles O30: the triple list position by position, the frame as one number bit by bit, and the bytes of the
stretch of L bits that the field is in the direction of travel. -/
theorem wholeFrameClosedForms : Obligations.WholeFrameClosedForms := by
  intro d m n hf a len q0 leInt beInt
  have hq0 : q0 / 8 = a / 8 := bigStart_div d
  refine ⟨placeOk_iff hf n, fun hbo => ?_, fun hbo => ?_⟩
  · have hfirst : firstBit d = a := firstBit_little hbo
    have hle : leInt = bytesNumber (fbRead m) n := leInt_eq_bytesNumber m n
    rw [hle, ← hfirst]
    exact ⟨hfirst ▸ triples_little hbo, fun hp => hfirst ▸ toNat_fldRead_little hf hbo hp m,
      touchedBytes_filter d, touchedBytes_first hf, touchedBytes_last hf⟩
  · have hfirst : firstBit d = q0 := firstBit_big hbo
    have hbe : beInt = bytesNumber (fun i => fbRead m (n - 1 - i)) n := beInt_eq_bytesNumber m n
    rw [hbe, ← hq0, ← hfirst]
    exact ⟨hfirst ▸ triples_big hbo, fun hp => hfirst ▸ toNat_fldRead_big hf hbo hp m,
      touchedBytes_filter d, touchedBytes_first hf, touchedBytes_last hf⟩

end Sys2Proof.Machine
end

section
/-! PROOFS. Sign extension (41_sign_extension.md R90 to R92). A word stands for its residue modulo 2^L, and the field's
value is the one representable integer of that residue; TO_SIGNED, TO_UBITS and the laws are read off from this. -/

namespace Sys2Proof.Machine

/-! ### words modulo 2^L -/

section
variable {len : Nat}

/-- What is congruent modulo 2^64 is congruent modulo 2^L. -/
theorem modEq_two_pow_of_le_64 {a b : Int} (hL : len ≤ 64) (h : a ≡ b [ZMOD (2 ^ 64 : Nat)]) :
    a ≡ b [ZMOD 2 ^ len] :=
  h.of_dvd (by exact_mod_cast pow_dvd_pow 2 hL)

/-- `word(n)` keeps the residue of `n`. -/
theorem toNat_ofInt_modEq (hL : len ≤ 64) (r : Int) : ((BitVec.ofInt 64 r).toNat : Int) ≡ r [ZMOD 2 ^ len] := by
  refine modEq_two_pow_of_le_64 hL ?_
  rw [BitVec.toNat_ofInt, Int.toNat_of_nonneg (Int.emod_nonneg r (by norm_num))]
  exact Int.mod_modEq r _

/-- Signed or unsigned, the integer of a word keeps the word's residue (R18). -/
theorem rawInt_modEq_toNat (hL : len ≤ 64) (d : Descriptor) (w : Word) : rawInt d w ≡ w.toNat [ZMOD 2 ^ len] := by
  refine modEq_two_pow_of_le_64 hL ?_
  unfold rawInt
  split
  · rw [BitVec.toInt_eq_toNat_bmod]
    exact Int.bmod_emod
  · rfl

theorem toNat_zextL_modEq (hL : len ≤ 64) (w : Word) : ((zextL len w).toNat : Int) ≡ w.toNat [ZMOD 2 ^ len] := by
  rw [zextL_toNat hL]
  push_cast
  exact Int.mod_modEq _ _

/-- Masking forgets all but the residue. -/
theorem zextL_eq_zextL_iff (hL : len ≤ 64) (u w : Word) :
    zextL len u = zextL len w ↔ (u.toNat : Int) ≡ w.toNat [ZMOD 2 ^ len] := by
  rw [← BitVec.toNat_inj, zextL_toNat hL, zextL_toNat hL]
  exact_mod_cast (Int.natCast_modEq_iff (n := 2 ^ len)).symm

theorem zextL_zextL (len : Nat) (w : Word) : zextL len (zextL len w) = zextL len w := by
  rw [zextL, zextL, BitVec.and_assoc, BitVec.and_self]

theorem sextL_zextL (len : Nat) (w : Word) : sextL len (zextL len w) = sextL len w := by
  rw [sextL, zextL_zextL, sextL]

end

/-! ### the field's value (R90) -/

section
variable {d : Descriptor}

/-- The value of an unsigned field is the residue in `0 .. 2^L-1`. -/
theorem rawInt_extendRaw_unsigned (hf : FieldOk d) (hd : d.isSigned = false) (w : Word) :
    rawInt d (extendRaw d w) = (w.toNat : Int) % 2 ^ d.lengthBits.toNat := by
  have hz := zextL_toNat hf.2 w
  simp only [rawInt, extendRaw, hd, Bool.false_eq_true, if_false, Descriptor.len]
  exact_mod_cast hz

/-- The value of a signed field is the residue balanced around 0. -/
theorem rawInt_extendRaw_signed (hf : FieldOk d) (hd : d.isSigned = true) (w : Word) :
    rawInt d (extendRaw d w) = (w.toNat : Int).bmod (2 ^ d.lengthBits.toNat) := by
  simp only [rawInt, extendRaw, hd, if_true]
  exact sextL_toInt hf.1 hf.2 w

/-- The heart of R90 and R92: the field's value is the unique representable integer with the word's residue. -/
theorem eq_rawInt_extendRaw_iff (hf : FieldOk d) (w : Word) (r : Int) :
    r = rawInt d (extendRaw d w) ↔ Representable d r ∧ (w.toNat : Int) ≡ r [ZMOD 2 ^ d.lengthBits.toNat] := by
  rw [eq_comm, Int.modEq_iff_dvd]
  cases hd : d.isSigned with
  | false =>
    rw [rawInt_extendRaw_unsigned hf hd, Int.emod_eq_iff (by positivity)]
    simp [Representable, hd, Int.natAbs_pow, and_assoc]
  | true =>
    rw [rawInt_extendRaw_signed hf hd, Int.bmod_eq_iff (by positivity)]
    have hdouble : ((2 ^ d.lengthBits.toNat : Nat) : Int) = 2 * 2 ^ (d.lengthBits.toNat - 1) := by
      rw [Nat.cast_pow, Nat.cast_ofNat, mul_pow_sub_one (Nat.ne_of_gt hf.1)]
    have hlow : ((2 ^ d.lengthBits.toNat : Nat) : Int) / 2 = 2 ^ (d.lengthBits.toNat - 1) := by omega
    have hhigh : (((2 ^ d.lengthBits.toNat : Nat) : Int) + 1) / 2 = 2 ^ (d.lengthBits.toNat - 1) := by omega
    rw [hlow, hhigh]
    simp [Representable, hd, and_assoc]

/-- Every bit pattern has a representable value, and extending keeps the residue. -/
theorem rawInt_extendRaw_spec (hf : FieldOk d) (w : Word) :
    Representable d (rawInt d (extendRaw d w)) ∧
      (w.toNat : Int) ≡ rawInt d (extendRaw d w) [ZMOD 2 ^ d.lengthBits.toNat] :=
  (eq_rawInt_extendRaw_iff hf w _).mp rfl

/-- Law (1): extending changes nothing of the low L bits. -/
theorem zextL_extendRaw (hf : FieldOk d) (w : Word) :
    zextL d.lengthBits.toNat (extendRaw d w) = zextL d.lengthBits.toNat w :=
  (zextL_eq_zextL_iff hf.2 _ _).mpr <|
    ((rawInt_extendRaw_spec hf w).2.trans (rawInt_modEq_toNat hf.2 d (extendRaw d w))).symm

/-- Law (2): extending looks at the low L bits only. -/
theorem extendRaw_zextL (d : Descriptor) (w : Word) :
    extendRaw d (zextL d.lengthBits.toNat w) = extendRaw d w := by
  rw [extendRaw, Descriptor.len, sextL_zextL, zextL_zextL, extendRaw, Descriptor.len]

theorem isFieldValue_extendRaw (hf : FieldOk d) (w : Word) :
    IsFieldValue d (extendRaw d w) (fun k => w.getLsbD k) := by
  refine ⟨fun k hk => ?_, (rawInt_extendRaw_spec hf w).1⟩
  have hbit := congrArg (fun u => u.getLsbD k) (zextL_extendRaw hf w)
  simpa only [zextL_getLsbD hf.2, hk, decide_true, Bool.true_and] using hbit

/-- Law (4), for any integer: masking its word and extending gives the representable integer congruent to it. -/
theorem eq_rawInt_masked_ofInt_iff (hf : FieldOk d) (r r' : Int) :
    r' = rawInt d (extendRaw d (zextL d.lengthBits.toNat (BitVec.ofInt 64 r))) ↔
      Representable d r' ∧ (2 ^ d.lengthBits.toNat : Int) ∣ r' - r := by
  have hr := toNat_ofInt_modEq hf.2 r
  rw [extendRaw_zextL, eq_rawInt_extendRaw_iff hf, ← Int.modEq_iff_dvd]
  exact and_congr_right fun _ => ⟨hr.symm.trans, hr.trans⟩

end

/-! ### the commands (R90, R91) -/

/-- Every test of TO_SIGNED and TO_UBITS passed, the effect is reached. -/
theorem onWidth_ok {s : State} {i : Nat} {k : Result} (hlive : Live s) (hsig : SignalOk s i) (hcount : CountOk s)
    (hfield : FieldOk (s.descAt i)) : onWidth i s k = k := by
  have hchecks : firstFault [assertMsg s, assertField s i] = none := by
    rw [assertMsg_none.mpr hcount, assertField_none.mpr hfield]
    rfl
  rw [onWidth, whenLive_live hlive, requireSignal_ok hsig, asserting_none hchecks]

/-- Settles O31: the failures are those of every command; otherwise XR gets the field's value. -/
theorem toSignedLeavesTheFieldValue : Obligations.ToSignedLeavesTheFieldValue :=
  fun s i => ⟨exec_failsInOrder (by simp) (by simp) s, fun hlive hsig hcount hfield =>
    ⟨extendRaw (s.descAt i) s.xr, onWidth_ok hlive hsig hcount hfield, isFieldValue_extendRaw hfield s.xr⟩⟩

/-- Settles O32: the failures are those of every command; otherwise XR is masked, which is reduction modulo 2^L. -/
theorem toUbitsReducesModuloTwoToTheL : Obligations.ToUbitsReducesModuloTwoToTheL :=
  fun s i => ⟨exec_failsInOrder (by simp) (by simp) s, fun hlive hsig hcount hfield =>
    ⟨zextL (s.descAt i).lengthBits.toNat s.xr, onWidth_ok hlive hsig hcount hfield, zextL_toNat hfield.2 s.xr⟩⟩

/-! ### the laws (R92) -/

/-- Settles O33: laws (1) and (2) as stated above; law (3) is law (4) at an integer that is itself representable. -/
theorem maskAndExtendLaws : Obligations.MaskAndExtendLaws := by
  intro d w hf len
  refine ⟨zextL_extendRaw hf w, extendRaw_zextL d w, fun r hr => ?_, eq_rawInt_masked_ofInt_iff hf⟩
  exact ((eq_rawInt_masked_ofInt_iff hf r r).mpr ⟨hr, by simp⟩).symm

end Sys2Proof.Machine
end

section
/-! PROOFS. The transform (42_scale_offset.md R95 to R102). Rounding has one idea: `RoundsTo a b` holds of `rha a b` and
of nothing else. That DECODE and ENCODE undo each other, and that the grid point of an encode is the nearest, are both
read off from this uniqueness. -/

namespace Sys2Proof.Machine

/-! ### rounding (R96) -/

section
variable {a b q : Int}

theorem roundsTo_neg_left : RoundsTo (-a) b q ↔ RoundsTo a b (-q) := by
  have hdist : |-a - q * b| = |a - -q * b| := by
    rw [← abs_neg]
    congr 1
    ring
  have hsize : |-q * b| = |q * b| := by rw [neg_mul, abs_neg]
  simp only [RoundsTo, hdist, hsize, abs_neg]

theorem roundsTo_neg_right : RoundsTo a (-b) q ↔ RoundsTo a b (-q) := by
  simp only [RoundsTo, mul_neg, neg_mul, abs_neg]

/-- For a nonnegative quotient, nearest with ties away from zero is the quotient rounded up at half. -/
theorem roundsTo_natCast_iff (a b : Nat) (hb : 0 < b) (q : Int) : RoundsTo a b q ↔ q = rha a b := by
  have hfloor : q = rha a b ↔ 2 * (q * b) ≤ 2 * a + b ∧ 2 * (a : Int) < 2 * (q * b) + b := by
    rw [rha_natCast a b hb, Int.natCast_ediv, eq_comm, Int.ediv_eq_iff_of_pos (by omega)]
    push_cast
    constructor <;> rintro ⟨hlow, hhigh⟩ <;> constructor <;> linarith
  have hneg : q < 0 → q * b ≤ -b := fun hq => by nlinarith
  have hpos : 0 ≤ q → 0 ≤ q * b := fun hq => by positivity
  rw [hfloor, RoundsTo]
  simp only [Int.abs_eq_natAbs]
  generalize q * (b : Int) = t at *
  omega

/-- R96: `rha` is the only rounding to the nearest integer with ties away from zero. -/
theorem roundsTo_iff (hb : b ≠ 0) : RoundsTo a b q ↔ q = rha a b := by
  obtain ⟨m, rfl | rfl⟩ := a.eq_nat_or_neg <;> obtain ⟨n, rfl | rfl⟩ := b.eq_nat_or_neg
  · exact roundsTo_natCast_iff m n (by omega) q
  · rw [roundsTo_neg_right, roundsTo_natCast_iff m n (by omega), rha_neg_right, neg_eq_iff_eq_neg]
  · rw [roundsTo_neg_left, roundsTo_natCast_iff m n (by omega), rha_neg_left, neg_eq_iff_eq_neg]
  · rw [roundsTo_neg_left, roundsTo_neg_right, roundsTo_natCast_iff m n (by omega), rha_neg_left, rha_neg_right,
      neg_neg, neg_neg]

theorem roundsTo_rha (a : Int) (hb : b ≠ 0) : RoundsTo a b (rha a b) := (roundsTo_iff hb).mpr rfl

/-- An exact quotient is not rounded. -/
theorem rha_mul_self (q : Int) (hb : b ≠ 0) : rha (q * b) b = q := by
  refine ((roundsTo_iff hb).mp ⟨?_, fun htie => absurd htie ?_⟩).symm
  · simp
  · simpa using (abs_pos.mpr hb).ne

/-- No multiple of `b` is nearer to `a` than the rounded one: a nearer one would round too. -/
theorem RoundsTo.nearest (h : RoundsTo a b q) (hb : b ≠ 0) (k : Int) : |a - q * b| ≤ |a - k * b| := by
  by_contra! hnear
  have hk : RoundsTo a b k := ⟨by linarith [h.1], fun htie => by linarith [h.1]⟩
  rw [(roundsTo_iff hb).mp hk, (roundsTo_iff hb).mp h] at hnear
  exact lt_irrefl _ hnear

/-- Of two nearest multiples the rounded one is farther from zero: a farther one would round too. -/
theorem RoundsTo.farthest_of_tie (h : RoundsTo a b q) (hb : b ≠ 0) {k : Int} (htie : |a - q * b| = |a - k * b|) :
    |k * b| ≤ |q * b| := by
  by_contra! hfar
  have hk : RoundsTo a b k := ⟨htie ▸ h.1, fun hhalf => (h.2 (htie ▸ hhalf)).trans hfar⟩
  rw [(roundsTo_iff hb).mp hk, (roundsTo_iff hb).mp h] at hfar
  exact lt_irrefl _ hfar

/-- Dividing by an integer other than 0 and rounding does not enlarge. -/
theorem RoundsTo.abs_le (h : RoundsTo a b q) (hb : b ≠ 0) : |q| ≤ |a| := by
  have htri : |q| * |b| ≤ |a| + |a - q * b| := by
    calc |q| * |b| = |a - (a - q * b)| := by rw [sub_sub_cancel, abs_mul]
      _ ≤ |a| + |a - q * b| := abs_sub a _
  have hb1 : 1 ≤ |b| := Int.one_le_abs hb
  by_contra! hlt
  nlinarith [h.1, abs_nonneg a]

end

/-- Settles O36: `rha` rounds, only `rha` rounds, and the rule's values are computed. -/
theorem roundHalfAwayFromZero : Obligations.RoundHalfAwayFromZero :=
  ⟨fun a _ hb => roundsTo_rha a hb, fun _ _ _ hb => (roundsTo_iff hb).mp, by decide⟩

/-! ### decode and encode of one number (R95, R97) -/

/-- The word of the integer that a raw word stands for is that word (R18). -/
theorem wordOf_rawInt (d : Descriptor) (w : Word) : wordOf (rawInt d w) = w := by
  unfold wordOf rawInt
  split
  · exact BitVec.ofInt_toInt
  · rw [BitVec.ofInt_natCast, BitVec.ofNat_toNat, BitVec.setWidth_eq]

theorem enc_roundsTo {d : Descriptor} (hd : XformOk d) (p : Word) :
    RoundsTo (p.toInt - d.offset.toInt) d.scale.toInt (enc d p) := by
  rw [enc_eq]
  exact roundsTo_rha _ (scale_toInt_ne_zero hd)

/-- R99: the rounded quotient of two 64-bit words fits 65 bits. -/
theorem enc_abs_le {d : Descriptor} (hd : XformOk d) (p : Word) : |enc d p| ≤ 2 ^ 64 - 1 := by
  have hp := p.toInt_lt
  have hp' := p.le_toInt
  have ho := d.offset.toInt_lt
  have ho' := d.offset.le_toInt
  calc |enc d p| ≤ |p.toInt - d.offset.toInt| := (enc_roundsTo hd p).abs_le (scale_toInt_ne_zero hd)
    _ ≤ 2 ^ 64 - 1 := abs_le.mpr (by omega)

/-- R100, number by number. -/
theorem enc_dec {d : Descriptor} (hd : XformOk d) {r : Int} (h : (dec d r).2 = false) : enc d (dec d r).1 = r := by
  rw [enc_eq, dec_exact h, exactPhys, add_sub_cancel_right]
  exact rha_mul_self r (scale_toInt_ne_zero hd)

/-- Settles O38: decoding `q = enc p` gives the grid point of `q`, whose distance to `p` is that of `q * S` to the number
`P - O` it was rounded from. -/
theorem encodeThenDecodeQuantises : Obligations.EncodeThenDecodeQuantises := by
  intro d p hd hfits g sc off
  have hsc : sc ≠ 0 := scale_toInt_ne_zero hd
  have hround : RoundsTo (p.toInt - off) sc (enc d p) := enc_roundsTo hd p
  have hg : g = off + sc * enc d p := by
    rw [add_comm, mul_comm]
    exact dec_exact hfits
  have hdist (k : Int) : |p.toInt - (off + sc * k)| = |p.toInt - off - k * sc| := by rw [← sub_sub, mul_comm]
  have hsize (k : Int) : |off + sc * k - off| = |k * sc| := by rw [add_sub_cancel_left, mul_comm]
  rw [hg]
  simp only [hdist, hsize]
  exact ⟨⟨_, rfl⟩, hround.1, hround.nearest hsc, fun _ => hround.farthest_of_tie hsc⟩

/-! ### the commands (R98 to R100) -/

section
variable {s : State} {i : Nat} {k : Result}

/-- Every test of DECODE and ENCODE passed, the effect is reached. -/
theorem onTransform_ok (hlive : Live s) (hsig : SignalOk s i) (hcount : CountOk s) (hfield : FieldOk (s.descAt i))
    (hxform : XformOk (s.descAt i)) : onTransform i s k = k := by
  have hchecks : firstFault [assertMsg s, assertField s i, assertXform s i] = none := by
    rw [assertMsg_none.mpr hcount, assertField_none.mpr hfield, assertXform_none.mpr hxform]
    rfl
  rw [onTransform, whenLive_live hlive, requireSignal_ok hsig, asserting_none hchecks]

theorem exec_decode_ok (hlive : Live s) (hsig : SignalOk s i) (hcount : CountOk s) (hfield : FieldOk (s.descAt i))
    (hxform : XformOk (s.descAt i)) :
    exec (.decode i) s =
      let r := dec (s.descAt i) (rawInt (s.descAt i) s.xr)
      .next (((s.setXp r.1).noteSat r.2).setErr .ok) := by
  rw [← ival_eq_rawInt]
  exact onTransform_ok hlive hsig hcount hfield hxform

theorem exec_encode_ok (hlive : Live s) (hsig : SignalOk s i) (hcount : CountOk s) (hfield : FieldOk (s.descAt i))
    (hxform : XformOk (s.descAt i)) :
    exec (.encode i) s = .next ((s.setXr (wordOf (enc (s.descAt i) s.xp))).setErr .ok) :=
  onTransform_ok hlive hsig hcount hfield hxform

end

/-- Settles O34: the failures are those of every command; otherwise XP and SAT get the word and the flag of `dec`. -/
theorem decodeComputesTheExactSumSaturated : Obligations.DecodeComputesTheExactSumSaturated := by
  refine fun s i => ⟨exec_failsInOrder (by simp) (by simp) s, fun hlive hsig hcount hfield hxform => ?_⟩
  obtain ⟨hword, hsat⟩ := dec_spec (s.descAt i) (rawInt (s.descAt i) s.xr)
  refine ⟨_, _, exec_decode_ok hlive hsig hcount hfield hxform, hword, ?_⟩
  rw [← hsat]
  exact Bool.or_eq_true_iff

/-- Settles O35: the failures are those of every command; otherwise XR gets the word of `enc`. -/
theorem encodeRoundsToTheNearestRaw : Obligations.EncodeRoundsToTheNearestRaw :=
  fun s i => ⟨exec_failsInOrder (by simp) (by simp) s, fun hlive hsig hcount hfield hxform =>
    ⟨enc (s.descAt i) s.xp, enc_roundsTo hxform s.xp, enc_abs_le hxform s.xp,
      exec_encode_ok hlive hsig hcount hfield hxform⟩⟩

/-- Settles O37: number by number, and then for XR, which is the word of the integer it stands for. DECODE changes
nothing that the tests of ENCODE look at. -/
theorem encodeUndoesDecode : Obligations.EncodeUndoesDecode := by
  refine ⟨fun d r hd => enc_dec hd, fun s i hlive hsig hcount hfield hxform hsat => ?_⟩
  refine ⟨_, _, exec_decode_ok hlive hsig hcount hfield hxform,
    exec_encode_ok hlive hsig hcount hfield hxform, fun hkept => ?_⟩
  have hfits : (dec (s.descAt i) (rawInt (s.descAt i) s.xr)).2 = false := (Bool.or_eq_false_iff.mp hkept).2
  calc wordOf (enc (s.descAt i) (dec (s.descAt i) (rawInt (s.descAt i) s.xr)).1)
      = wordOf (rawInt (s.descAt i) s.xr) := by rw [enc_dec hxform hfits]
    _ = s.xr := wordOf_rawInt _ _

end Sys2Proof.Machine
end

section
/-! PROOFS. The bounds (43_range.md R105 to R108). R105 fixes `lo` and `hi` of a descriptor, and the range commands are
read off from their predicates. For R108 the bounds are erased from the whole descriptor table: every other command
commutes with the erasure, so two states that are equal once it is done go the same way. -/

namespace Sys2Proof.Machine

/-! ### the bounds of a descriptor (R105) -/

section
variable {d : Descriptor}

/-- R105 has one solution, the bounds the model computes. -/
theorem boundsOf_iff {lo hi : Int} : BoundsOf d lo hi ↔ lo = loBound d ∧ hi = hiBound d := by
  cases hb : d.hasBounds <;> cases hs : d.isSigned <;> simp [BoundsOf, loBound, hiBound, Descriptor.len, hb, hs]

theorem representable_iff_of_no_bounds (hb : d.hasBounds = false) (r : Int) :
    Representable d r ↔ loBound d ≤ r ∧ r ≤ hiBound d := by
  cases hs : d.isSigned <;> simp [Representable, loBound, hiBound, Descriptor.len, hb, hs]

end

/-- Settles O39: the model's bounds are those of R105; without explicit ones they delimit the representable range. -/
theorem boundsDefaultToTheRepresentableRange : Obligations.BoundsDefaultToTheRepresentableRange :=
  fun _ _ => ⟨boundsOf_iff.mpr ⟨rfl, rfl⟩, representable_iff_of_no_bounds⟩

/-! ### the range commands (R106, R107) -/

section
variable {s : State} {i : Nat}

theorem exec_rangeRaw_ok (hlive : Live s) (hsig : SignalOk s i) (hcount : CountOk s) (hfield : FieldOk (s.descAt i)) :
    exec (.rangeRaw i) s = .next ((s.setInr (inRangeRaw (s.descAt i) s.xr)).setErr .ok) := by
  have hchecks : firstFault [assertMsg s, assertField s i] = none := by
    rw [assertMsg_none.mpr hcount, assertField_none.mpr hfield]
    rfl
  rw [exec, execRangeRaw, whenLive_live hlive, requireSignal_ok hsig, asserting_none hchecks, succeed_eq]

theorem exec_rangePhys_ok (hlive : Live s) (hsig : SignalOk s i) (hcount : CountOk s) (hfield : FieldOk (s.descAt i))
    (hxform : XformOk (s.descAt i)) :
    exec (.rangePhys i) s = .next ((s.setInr (inRangePhys (s.descAt i) s.xp)).setErr .ok) := by
  have hchecks : firstFault [assertMsg s, assertField s i, assertXform s i] = none := by
    rw [assertMsg_none.mpr hcount, assertField_none.mpr hfield, assertXform_none.mpr hxform]
    rfl
  rw [exec, execRangePhys, whenLive_live hlive, requireSignal_ok hsig, asserting_none hchecks, succeed_eq]

end

/-- Settles O40: the failures are those of every command; otherwise INR is the comparison with the bounds of R105. -/
theorem rangeRawComparesInclusively : Obligations.RangeRawComparesInclusively := by
  refine fun s i => ⟨exec_failsInOrder (by simp) (by simp) s, fun hlive hsig hcount hfield lo hi hbounds => ?_⟩
  obtain ⟨rfl, rfl⟩ := boundsOf_iff.mp hbounds
  exact ⟨inRangeRaw (s.descAt i) s.xr, exec_rangeRaw_ok hlive hsig hcount hfield, inRangeRaw_iff _ _⟩

/-- Settles O41: the failures are those of every command; otherwise INR is the comparison with the decoded bounds, whose
saturation flags go nowhere. -/
theorem rangePhysComparesDecodedBounds : Obligations.RangePhysComparesDecodedBounds := by
  refine fun s i => ⟨exec_failsInOrder (by simp) (by simp) s, fun hlive hsig hcount hfield hxform lo hi hbounds => ?_⟩
  obtain ⟨rfl, rfl⟩ := boundsOf_iff.mp hbounds
  exact ⟨inRangePhys (s.descAt i) s.xp, exec_rangePhys_ok hlive hsig hcount hfield hxform, inRangePhys_iff _ _⟩

/-! ### the bounds erased from the descriptor table (R108) -/

/-- The state without the bounds of any signal. -/
def State.withoutBounds (s : State) : State := { s with desc := s.desc.map stripBounds }

/-- The result without the bounds of any signal. -/
def eraseBounds : Result → Result
  | .next s => .next s.withoutBounds
  | .fault f => .fault f
  | .refused r => .refused r

section
variable {s t t' : State} {k k' : Result} {i : Instr}

@[simp] theorem withoutBounds_status (s : State) : s.withoutBounds.status = s.status := rfl

@[simp] theorem withoutBounds_params (s : State) : s.withoutBounds.params = s.params := rfl

theorem descAt_withoutBounds (s : State) (j : Nat) : s.withoutBounds.descAt j = stripBounds (s.descAt j) := by
  have hblank : Descriptor.blank = stripBounds Descriptor.blank := rfl
  rw [State.descAt, State.descAt, State.withoutBounds, hblank, List.getD_map, ← hblank]

/-- Two states that are equal without bounds differ in the descriptor table alone. -/
theorem eq_of_withoutBounds_eq (h : t'.withoutBounds = t.withoutBounds) : t' = { t with desc := t'.desc } :=
  congrArg (fun u => { u with desc := t'.desc }) h

/-! #### the tests before a command's effect (R146): none of them reads a bound -/

theorem whenLive_withoutBounds (hk : k' = eraseBounds k) :
    whenLive s.withoutBounds k' = eraseBounds (whenLive s k) := by
  subst hk
  unfold whenLive
  rw [withoutBounds_status]
  split_ifs <;> rfl

/-- The premises of R146 steps 3 to 5 do not mention a descriptor. -/
theorem argumentTests_withoutBounds (hk : k' = eraseBounds k) :
    argumentTests i s.withoutBounds k' = eraseBounds (argumentTests i s k) := by
  subst hk
  by_cases hbad : BadSignal i s
  · rw [argumentTests_badSignal hbad, argumentTests_badSignal (s := s.withoutBounds) hbad]
    rfl
  by_cases hmiss : MissingReference i s
  · rw [argumentTests_signalOk hbad, argumentTests_signalOk (s := s.withoutBounds) hbad,
      bufferTests_missingReference hmiss, bufferTests_missingReference (s := s.withoutBounds) hmiss]
    rfl
  by_cases hshort : ShortBuffer i s
  · rw [argumentTests_signalOk hbad, argumentTests_signalOk (s := s.withoutBounds) hbad,
      bufferTests_shortBuffer hmiss hshort, bufferTests_shortBuffer (s := s.withoutBounds) hmiss hshort]
    rfl
  · rw [argumentTests_ok ⟨hbad, hmiss, hshort⟩, argumentTests_ok (s := s.withoutBounds) ⟨hbad, hmiss, hshort⟩]

theorem descriptorChecks_withoutBounds (i : Instr) (s : State) (j : Nat) :
    descriptorChecks i s.withoutBounds j = descriptorChecks i s j := by
  simp only [descriptorChecks, assertField, assertPlace, assertXform, descAt_withoutBounds]
  rfl

theorem layoutChecks_withoutBounds (i : Instr) (s : State) : layoutChecks i s.withoutBounds = layoutChecks i s := by
  have hpass : descriptorPass i s.withoutBounds = descriptorPass i s := by
    simp only [descriptorPass, assertEach, funext (descriptorChecks_withoutBounds i s)]
    rfl
  rw [layoutChecks, layoutChecks, hpass]
  rfl

theorem asserting_withoutBounds {checks : List (Option LayoutFault)} (hk : k' = eraseBounds k) :
    asserting s.withoutBounds checks k' = eraseBounds (asserting s checks k) := by
  subst hk
  unfold asserting
  cases firstFault checks <;> rfl

theorem guardBytes_withoutBounds {bytes bytes' : List Nat} (hb : bytes' = bytes) (hk : k' = eraseBounds k) :
    guardBytes s.withoutBounds bytes' k' = eraseBounds (guardBytes s bytes k) := by
  subst hb hk
  unfold guardBytes
  rw [withoutBounds_params]
  cases bytes'.find? fun b => decide (s.params.maxb ≤ b) <;> rfl

theorem layoutBytes_withoutBounds (s : State) : s.withoutBounds.layoutBytes = s.layoutBytes := by
  simp only [State.layoutBytes, descAt_withoutBounds]
  rfl

end

/-! #### the signal loops (R110 phase 4) -/

/-- One signal's work does not read a bound. -/
def IgnoresBounds (body : Nat → State → State) : Prop :=
  ∀ j t, body j t.withoutBounds = (body j t).withoutBounds

theorem initSignal_ignoresBounds : IgnoresBounds initSignal := by
  intro j t
  rw [initSignal, descAt_withoutBounds]
  rfl

theorem unpackSignal_ignoresBounds : IgnoresBounds unpackSignal := by
  intro j t
  rw [unpackSignal, descAt_withoutBounds]
  rfl

theorem packSignal_ignoresBounds : IgnoresBounds packSignal := by
  intro j t
  rw [packSignal, descAt_withoutBounds]
  rfl

theorem packSignalP_ignoresBounds : IgnoresBounds packSignalP := by
  intro j t
  rw [packSignalP, descAt_withoutBounds]
  rfl

theorem decodeSignal_ignoresBounds (w : Word) : IgnoresBounds fun j => decodeSignal j w := by
  intro j t
  simp only [decodeSignal, descAt_withoutBounds]
  rfl

theorem initSignalP_ignoresBounds : IgnoresBounds initSignalP := by
  intro j t
  rw [initSignalP, initSignal_ignoresBounds, descAt_withoutBounds]
  exact decodeSignal_ignoresBounds _ j _

theorem unpackSignalP_ignoresBounds : IgnoresBounds unpackSignalP := by
  intro j t
  rw [unpackSignalP, unpackSignal_ignoresBounds, descAt_withoutBounds]
  exact decodeSignal_ignoresBounds _ j _

section
variable {body : Nat → State → State}

theorem forSignals_withoutBounds (h : IgnoresBounds body) (s : State) :
    forSignals s.withoutBounds body = (forSignals s body).withoutBounds :=
  List.foldl_hom State.withoutBounds fun t j => h j t

theorem produceValues_withoutBounds (h : IgnoresBounds body) (s : State) :
    produceValues body s.withoutBounds = eraseBounds (produceValues body s) := by
  unfold produceValues
  rw [forSignals_withoutBounds h]
  rfl

theorem packWith_withoutBounds (h : IgnoresBounds body) (s : State) :
    packWith body s.withoutBounds = eraseBounds (packWith body s) :=
  congrArg (fun t : State => succeed (t.setResult (BitVec.ofNat 64 s.frameBytes)))
    (forSignals_withoutBounds h (s.setFb (fbZero s.fb s.frameBytes)))

end

/-! #### the commands -/

/-- The effect behind the tests of a command other than the range commands does not read a bound. -/
theorem exec_effect_ignoresBounds {i : Instr} (hnop : i ≠ .nop) (hsreset : i ≠ .sreset) (hi : isRange i = false) :
    ∃ k : State → Result,
      (∀ s, exec i s = whenLive s (argumentTests i s (asserting s (layoutChecks i s) (k s)))) ∧
      ∀ s, k s.withoutBounds = eraseBounds (k s) := by
  cases i with
  | nop => exact absurd rfl hnop
  | sreset => exact absurd rfl hsreset
  | rangeRaw sig | rangePhys sig => cases hi
  | fldRead sig | fldWrite sig =>
    refine ⟨_, fun _ => rfl, fun s => ?_⟩
    rw [descAt_withoutBounds]
    exact guardBytes_withoutBounds rfl rfl
  | toSigned sig | toUbits sig | decode sig | encode sig =>
    refine ⟨_, fun _ => rfl, fun s => ?_⟩
    rw [descAt_withoutBounds]
    rfl
  | init => exact ⟨_, fun _ => rfl, produceValues_withoutBounds initSignal_ignoresBounds⟩
  | initP => exact ⟨_, fun _ => rfl, produceValues_withoutBounds initSignalP_ignoresBounds⟩
  | pack =>
    exact ⟨_, fun _ => rfl, fun s => guardBytes_withoutBounds (congrArg _ (layoutBytes_withoutBounds s))
      (packWith_withoutBounds packSignal_ignoresBounds s)⟩
  | packP =>
    exact ⟨_, fun _ => rfl, fun s => guardBytes_withoutBounds (congrArg _ (layoutBytes_withoutBounds s))
      (packWith_withoutBounds packSignalP_ignoresBounds s)⟩
  | unpack =>
    exact ⟨_, fun _ => rfl, fun s => guardBytes_withoutBounds (layoutBytes_withoutBounds s)
      (produceValues_withoutBounds unpackSignal_ignoresBounds s)⟩
  | unpackP =>
    exact ⟨_, fun _ => rfl, fun s => guardBytes_withoutBounds (layoutBytes_withoutBounds s)
      (produceValues_withoutBounds unpackSignalP_ignoresBounds s)⟩

/-- Every command but RANGE_RAW and RANGE_PHYS commutes with the erasure of the bounds. -/
theorem exec_withoutBounds {i : Instr} (hi : isRange i = false) (s : State) :
    exec i s.withoutBounds = eraseBounds (exec i s) := by
  by_cases hnop : i = .nop
  · subst hnop
    exact whenLive_withoutBounds rfl
  by_cases hsreset : i = .sreset
  · subst hsreset
    rfl
  obtain ⟨k, hexec, hk⟩ := exec_effect_ignoresBounds hnop hsreset hi
  rw [hexec, hexec, layoutChecks_withoutBounds]
  exact whenLive_withoutBounds <| argumentTests_withoutBounds <| asserting_withoutBounds (hk s)

/-- Settles O42: both states are the same without bounds, so both runs end in the same state without bounds, and each
run keeps its descriptor table. -/
theorem onlyRangeCommandsReadTheBounds : Obligations.OnlyRangeCommandsReadTheBounds := by
  intro i s desc' hi hdesc
  obtain ⟨t, ht⟩ := exec_next i s
  obtain ⟨t', ht'⟩ := exec_next i { s with desc := desc' }
  have hstart : State.withoutBounds { s with desc := desc' } = s.withoutBounds :=
    congrArg (fun l => { s with desc := l }) hdesc
  have hend : t'.withoutBounds = t.withoutBounds := by
    have hruns := exec_withoutBounds hi { s with desc := desc' }
    rw [hstart, exec_withoutBounds hi s, ht, ht'] at hruns
    exact (Host.Outcome.next.inj hruns).symm
  have hkeep : t'.desc = desc' := (everyCommandStaysInItsWriteSet i _ t' ht').1
  refine ⟨t, ht, ?_⟩
  rw [ht', eq_of_withoutBounds_eq hend, hkeep]

end Sys2Proof.Machine
end

section
/-! PROOFS. The frame codec (44_frame_codec.md R111 to R118). Every test passed, a command of the codec is its signal
loop and its completion: INIT, INIT.P, UNPACK and UNPACK.P fill the value file signal by signal, PACK and PACK.P leave
in FB the zero-filled frame with every field written in ascending order. -/

namespace Sys2Proof.Machine

/-! ### every test passed, the effect is reached (R110, R146) -/

section
variable {s : State} {k : Result}

theorem onPackArguments_ok (hlive : Live s) (hbuf : BufferOk s) (hvalv : s.ctrl.valv = true) :
    onPackArguments s k = k := by
  rw [onPackArguments, whenLive_live hlive, requireBufferAndValues_ok hvalv hbuf.1, requireCapacity_ok hbuf.2]

theorem onUnpackArguments_ok (hlive : Live s) (hbuf : BufferOk s) : onUnpackArguments s k = k := by
  rw [onUnpackArguments, whenLive_live hlive, requireBuffer_ok hbuf.1, requireCapacity_ok hbuf.2]

theorem exec_init_eq (hlive : Live s) (hl : InitLayoutOk s) : exec .init s = produceValues initSignal s := by
  rw [exec, execInit, whenLive_live hlive, asserting_none (initChecks_none.mpr hl)]

theorem exec_initP_eq (hlive : Live s) (hl : InitLayoutOk s) (hx : AllXformOk s) :
    exec .initP s = produceValues initSignalP s := by
  rw [exec, execInitP, whenLive_live hlive, asserting_none (initPChecks_none.mpr ⟨hl, hx⟩)]

theorem exec_unpack_eq (hlive : Live s) (hbuf : BufferOk s) (hl : FrameLayoutOk s) :
    exec .unpack s = produceValues unpackSignal s := by
  rw [exec, execUnpack, onUnpackArguments_ok hlive hbuf, asserting_none (frameChecks_none.mpr hl),
    guardBytes_layout hl]

theorem exec_unpackP_eq (hlive : Live s) (hbuf : BufferOk s) (hl : FrameLayoutOk s) (hx : AllXformOk s) :
    exec .unpackP s = produceValues unpackSignalP s := by
  rw [exec, execUnpackP, onUnpackArguments_ok hlive hbuf, asserting_none (framePChecks_none.mpr ⟨hl, hx⟩),
    guardBytes_layout hl]

theorem exec_pack_eq (hlive : Live s) (hbuf : BufferOk s) (hvalv : s.ctrl.valv = true) (hl : FrameLayoutOk s) :
    exec .pack s = packWith packSignal s := by
  rw [exec, execPack, onPackArguments_ok hlive hbuf hvalv, asserting_none (frameChecks_none.mpr hl),
    guardBytes_frame hl]

theorem exec_packP_eq (hlive : Live s) (hbuf : BufferOk s) (hvalv : s.ctrl.valv = true) (hl : FrameLayoutOk s)
    (hx : AllXformOk s) : exec .packP s = packWith packSignalP s := by
  rw [exec, execPackP, onPackArguments_ok hlive hbuf hvalv, asserting_none (framePChecks_none.mpr ⟨hl, hx⟩),
    guardBytes_frame hl]

end

/-! ### the commands that produce a value object (R111, R112, R117, R118) -/

/-- Entry `j` of `l` is `v j` for a signal of the layout and the old `old j` for any other. -/
structure HoldsValues (s : State) (l : List Word) (v old : Nat → Word) : Prop where
  below : ∀ j, SignalOk s j → l.getD j 0 = v j
  above : ∀ j, ¬ SignalOk s j → l.getD j 0 = old j

/-- The signals of the layout hold the raw values `v` and their decodes, the other entries are old, and SAT was set if
a decode saturated (R112, R118). -/
structure HoldsDecoded (s : State) (v : Nat → Word) (raw' phys' : List Word) (sat : Bool) : Prop where
  raw : HoldsValues s raw' v s.rawAt
  phys : HoldsValues s phys' (fun j => (dec (s.descAt j) (rawInt (s.descAt j) (v j))).1) s.physAt
  sat : sat = true ↔ s.status.sat = true ∨
    ∃ j, SignalOk s j ∧ Overflows64 (exactPhys (s.descAt j) (rawInt (s.descAt j) (v j)))

/-- The state after a command that produced the raw values `raw'`. -/
def State.withRawValues (s : State) (raw' : List Word) : State :=
  { s with raw := raw', ctrl := { s.ctrl with valv := true }, status := { s.status with err := .ok } }

/-- The state after a command that produced the values `raw'` and `phys'`. -/
def State.withValues (s : State) (raw' phys' : List Word) (sat : Bool) : State :=
  { s with
    raw := raw', phys := phys', ctrl := { s.ctrl with valv := true },
    status := { s.status with err := .ok, sat := sat } }

section
variable {s : State} {v old : Nat → Word} {l : List Word}

theorem holdsValues_of_ite (h : ∀ j, l.getD j 0 = if j < s.msg.numSignals.toNat then v j else old j) :
    HoldsValues s l v old where
  below j hj := (h j).trans (if_pos hj)
  above j hj := (h j).trans (if_neg hj)

/-- The signal indices that the value file holds (R6, R144 cause 4). -/
theorem numSignals_le_length (hsize : Sized s) (hcount : CountOk s) :
    s.msg.numSignals.toNat ≤ s.raw.length ∧ s.msg.numSignals.toNat ≤ s.phys.length := by
  obtain ⟨hraw, hphys, -⟩ := hsize
  exact ⟨hraw ▸ hcount, hphys ▸ hcount⟩

theorem exec_init_ok (hlive : Live s) (hsize : Sized s) (hl : InitLayoutOk s) :
    ∃ raw', exec .init s = .next (s.withRawValues raw') ∧
      HoldsValues s raw' (fun j => (s.descAt j).defaultRaw) s.rawAt := by
  obtain ⟨raw', hloop, -, hraw⟩ := forSignals_init s (numSignals_le_length hsize hl.1).1
  refine ⟨raw', ?_, holdsValues_of_ite hraw⟩
  rw [exec_init_eq hlive hl, produceValues, hloop]
  rfl

theorem exec_unpack_ok (hlive : Live s) (hsize : Sized s) (hbuf : BufferOk s) (hl : FrameLayoutOk s) :
    ∃ raw', exec .unpack s = .next (s.withRawValues raw') ∧
      HoldsValues s raw' (fun j => fldValue (s.descAt j) s.fb) s.rawAt := by
  obtain ⟨raw', hloop, -, hraw⟩ := forSignals_unpack s (numSignals_le_length hsize hl.1).1
  refine ⟨raw', ?_, holdsValues_of_ite hraw⟩
  rw [exec_unpack_eq hlive hbuf hl, produceValues, hloop]
  rfl

/-- The saturations of a loop that decodes `v j` for every signal are ORed into SAT (R26). -/
theorem or_any_dec_iff (s : State) (v : Nat → Word) (sat : Bool) :
    (sat || (List.range s.msg.numSignals.toNat).any fun j => (dec (s.descAt j) (ival (s.descAt j) (v j))).2) = true ↔
      sat = true ∨ ∃ j, SignalOk s j ∧ Overflows64 (exactPhys (s.descAt j) (rawInt (s.descAt j) (v j))) := by
  simp only [Bool.or_eq_true, List.any_eq_true, List.mem_range, (dec_spec _ _).2, ival_eq_rawInt]

/-- A loop that decodes the raw words `v`: what it leaves in the value file and in SAT. -/
theorem produceValues_decoded {body : Nat → State → State} (hsize : Sized s) (hcount : CountOk s)
    (hbody : ∀ i raw' phys' st, i < s.msg.numSignals.toNat →
      body i { s with raw := raw', phys := phys', status := st } =
        decodeSignal i (v i) { s with raw := raw'.set i (v i), phys := phys', status := st }) :
    ∃ raw' phys' sat, produceValues body s = .next (s.withValues raw' phys' sat) ∧
      HoldsDecoded s v raw' phys' sat := by
  obtain ⟨hlraw, hlphys⟩ := numSignals_le_length hsize hcount
  obtain ⟨raw', phys', hloop, -, -, hraw, hphys⟩ := forSignals_both s v body hbody hlraw hlphys
  simp only [ival_eq_rawInt] at hphys
  refine ⟨raw', phys', _, ?_, holdsValues_of_ite hraw, holdsValues_of_ite hphys, or_any_dec_iff s v _⟩
  rw [produceValues, hloop]
  rfl

theorem exec_initP_ok (hlive : Live s) (hsize : Sized s) (hl : InitLayoutOk s) (hx : AllXformOk s) :
    ∃ raw' phys' sat, exec .initP s = .next (s.withValues raw' phys' sat) ∧
      HoldsDecoded s (fun j => (s.descAt j).defaultRaw) raw' phys' sat :=
  exec_initP_eq hlive hl hx ▸ produceValues_decoded hsize hl.1 fun _ _ _ _ _ => rfl

theorem exec_unpackP_ok (hlive : Live s) (hsize : Sized s) (hbuf : BufferOk s) (hl : FrameLayoutOk s)
    (hx : AllXformOk s) :
    ∃ raw' phys' sat, exec .unpackP s = .next (s.withValues raw' phys' sat) ∧
      HoldsDecoded s (fun j => fldValue (s.descAt j) s.fb) raw' phys' sat :=
  exec_unpackP_eq hlive hbuf hl hx ▸ produceValues_decoded hsize hl.1 fun _ _ _ _ _ => rfl

end

/-! ### the value of a field (R117) -/

section
variable {d : Descriptor}

/-- UNPACK extends what it reads as TO_SIGNED does: an unsigned field has no bit above L to mask. -/
theorem fldValue_eq_extendRaw (hL : d.lengthBits.toNat ≤ 64) (m : Memory) :
    fldValue d m = extendRaw d (fldRead d m) := by
  unfold fldValue extendRaw
  split
  · rfl
  · refine BitVec.eq_of_toNat_eq ?_
    rw [Descriptor.len, zextL_toNat hL, Nat.mod_eq_of_lt (fldRead_lt d m hL)]

theorem isFieldValue_fldValue (hf : FieldOk d) (m : Memory) :
    IsFieldValue d (fldValue d m) (fun k => bitAt m (bitPlace d k)) := by
  obtain ⟨hbits, hrep⟩ := isFieldValue_extendRaw hf (fldRead d m)
  rw [fldValue_eq_extendRaw hf.2]
  refine ⟨fun k hk => (hbits k hk).trans ?_, hrep⟩
  simp only [getLsbD_fldRead d m hf.2, hk, decide_true, Bool.true_and]

end

/-- Settles O43: the failures are those of every command; otherwise the loop leaves the defaults. -/
theorem initCopiesTheDefaults : Obligations.InitCopiesTheDefaults := by
  refine fun s => ⟨exec_failsInOrder (by simp) (by simp) s, fun hlive hsize hl => ?_⟩
  obtain ⟨raw', hexec, hraw⟩ := exec_init_ok hlive hsize hl
  exact ⟨raw', hexec, hraw.below, hraw.above⟩

/-- Settles O44: the failures are those of every command; otherwise the loop leaves the defaults and their decodes. -/
theorem initPAlsoDecodesTheDefaults : Obligations.InitPAlsoDecodesTheDefaults := by
  refine fun s => ⟨exec_failsInOrder (by simp) (by simp) s, fun hlive hsize hl hx => ?_⟩
  obtain ⟨raw', phys', sat, hexec, hraw, hphys, hsat⟩ := exec_initP_ok hlive hsize hl hx
  refine ⟨raw', phys', sat, hexec, fun j hj => ⟨hraw.below j hj, ?_⟩,
    fun j hj => ⟨hraw.above j hj, hphys.above j hj⟩, hsat⟩
  rw [hphys.below j hj, (dec_spec _ _).1]

/-- Settles O48: the failures are those of every command; otherwise the loop leaves the value of every field. -/
theorem unpackExtractsTheFieldValues : Obligations.UnpackExtractsTheFieldValues := by
  refine fun s => ⟨exec_failsInOrder (by simp) (by simp) s, fun hlive hsize hbuf hl => ?_⟩
  obtain ⟨raw', hexec, hraw⟩ := exec_unpack_ok hlive hsize hbuf hl
  obtain ⟨-, -, hlayout⟩ := hl
  refine ⟨raw', hexec, fun j hj => ?_, hraw.above⟩
  rw [hraw.below j hj]
  exact isFieldValue_fldValue (hlayout j hj).1 s.fb

/-- Settles O49: the failures are those of every command; otherwise the loop leaves the value of every field and its
decode. -/
theorem unpackPAlsoDecodesTheValues : Obligations.UnpackPAlsoDecodesTheValues := by
  refine fun s => ⟨exec_failsInOrder (by simp) (by simp) s, fun hlive hsize hbuf hl hx => ?_⟩
  obtain ⟨raw', phys', sat, hexec, hraw, hphys, hsat⟩ := exec_unpackP_ok hlive hsize hbuf hl hx
  obtain ⟨-, -, hlayout⟩ := hl
  refine ⟨raw', phys', sat, hexec, fun j hj => ?_,
    fun j hj => ⟨hraw.above j hj, hphys.above j hj⟩, ?_⟩
  · rw [hphys.below j hj, hraw.below j hj, (dec_spec _ _).1]
    exact ⟨isFieldValue_fldValue (hlayout j hj).1 s.fb, rfl⟩
  · rw [hsat]
    exact or_congr_right (exists_congr fun j => and_congr_right fun hj => by rw [hraw.below j hj])

/-! ### the packed frame (R113 to R116) -/

/-- FB after PACK or PACK.P: the frame zero-filled, then the field of every signal written from `v`, ascending. -/
def packedFrame (s : State) (v : Nat → Word) : Memory :=
  writeFields s v s.msg.numSignals.toNat (fbZero s.fb s.msg.lengthBytes.toNat)

/-- What PACK.P writes for a signal (R115). -/
def State.encodedAt (s : State) (j : Nat) : Word := wordOf (enc (s.descAt j) (s.physAt j))

/-- The state after a successful PACK or PACK.P of the words `v`. -/
def State.withPackedFrame (s : State) (v : Nat → Word) : State :=
  { s with
    fb := packedFrame s v, result := BitVec.ofNat 64 s.msg.lengthBytes.toNat, status := { s.status with err := .ok } }

section
variable {s : State} {v : Nat → Word}

theorem exec_pack_ok (hlive : Live s) (hbuf : BufferOk s) (hvalv : s.ctrl.valv = true) (hl : FrameLayoutOk s) :
    exec .pack s = .next (s.withPackedFrame s.rawAt) := by
  rw [exec_pack_eq hlive hbuf hvalv hl, packWith, forSignals_pack]
  rfl

theorem exec_packP_ok (hlive : Live s) (hbuf : BufferOk s) (hvalv : s.ctrl.valv = true) (hl : FrameLayoutOk s)
    (hx : AllXformOk s) : exec .packP s = .next (s.withPackedFrame s.encodedAt) := by
  rw [exec_packP_eq hlive hbuf hvalv hl hx, packWith, forSignals_packP]
  rfl

theorem packedFrame_wf (hm : Memory.wf s.fb) : Memory.wf (packedFrame s v) :=
  (writeFields_spec s v _ _ (fbZero_wf _ hm)).1

/-- Of the fields that cover a place, the one of the highest index has the last word (R125). -/
theorem bitAt_packedFrame_last (hm : Memory.wf s.fb) {j w : Nat} (hj : SignalOk s j)
    (hw : w < (s.descAt j).lengthBits.toNat)
    (hlast : ∀ j', j < j' → SignalOk s j' → ¬ Covers (s.descAt j') (bitPlace (s.descAt j) w)) :
    bitAt (packedFrame s v) (bitPlace (s.descAt j) w) = (v j).getLsbD w := by
  obtain ⟨-, hset, -⟩ := writeFields_spec s v s.msg.numSignals.toNat _ (fbZero_wf s.msg.lengthBytes.toNat hm)
  exact hset j w hj hw hlast

theorem bitAt_packedFrame_uncovered (hm : Memory.wf s.fb) {p : Nat × Nat}
    (hp : ∀ j, SignalOk s j → ¬ Covers (s.descAt j) p) :
    bitAt (packedFrame s v) p = bitAt (fbZero s.fb s.msg.lengthBytes.toNat) p := by
  obtain ⟨-, -, hkeep⟩ := writeFields_spec s v s.msg.numSignals.toNat _ (fbZero_wf s.msg.lengthBytes.toNat hm)
  exact hkeep p hp

/-- Inside the frame, a place of no field holds 0 (R116). -/
theorem bitAt_packedFrame_zero (hm : Memory.wf s.fb) {p : Nat × Nat} (hlt : p.1 < s.msg.lengthBytes.toNat)
    (hp : ∀ j, SignalOk s j → ¬ Covers (s.descAt j) p) : bitAt (packedFrame s v) p = false := by
  rw [bitAt_packedFrame_uncovered hm hp, bitAt, fbRead_fbZero _ _ _ hm, if_pos hlt]
  exact BitVec.getLsbD_zero

/-- Any two buffers hold the same frame once it is zero-filled. -/
theorem fbZero_twins {n : Nat} {f g : Memory} (hf : Memory.wf f) (hg : Memory.wf g) :
    FrameTwins n f g (fbZero f n) (fbZero g n) where
  wf := fbZero_wf n hf
  wf' := fbZero_wf n hg
  inside a ha := by rw [fbRead_fbZero _ _ _ hf, fbRead_fbZero _ _ _ hg, if_pos ha, if_pos ha]
  beyond a ha := by
    rw [fbRead_fbZero _ _ _ hf, fbRead_fbZero _ _ _ hg, if_neg (Nat.not_lt.mpr ha), if_neg (Nat.not_lt.mpr ha)]
    exact ⟨rfl, rfl⟩

/-- The frames packed into two buffers: equal inside the frame, and beyond it the buffers they were packed into. -/
theorem packedFrame_twins (hl : FrameLayoutOk s) (hm : Memory.wf s.fb) {m : Memory} (hm' : Memory.wf m) :
    FrameTwins s.msg.lengthBytes.toNat s.fb m (packedFrame s v) (packedFrame (s.setFb m) v) := by
  obtain ⟨-, -, hlayout⟩ := hl
  exact (fbZero_twins hm hm').writeFields (fun i hi => (hlayout i hi).2) v

/-- The bytes beyond the frame are kept (R116). -/
theorem fbRead_packedFrame_beyond (hl : FrameLayoutOk s) (hm : Memory.wf s.fb) {a : Nat}
    (ha : s.msg.lengthBytes.toNat ≤ a) : fbRead (packedFrame s v) a = fbRead s.fb a :=
  ((packedFrame_twins hl hm hm).beyond a ha).2

end

/-- Settles O45: the failures are those of every command; otherwise FB is the packed frame of RAW. -/
theorem packBuildsTheFrameFromRaw : Obligations.PackBuildsTheFrameFromRaw :=
  fun s => ⟨exec_failsInOrder (by simp) (by simp) s, fun hlive hbuf hvalv hl hm =>
    ⟨packedFrame s s.rawAt, exec_pack_ok hlive hbuf hvalv hl, fun _ _ => bitAt_packedFrame_last hm,
      fun _ => bitAt_packedFrame_zero hm, fun _ => fbRead_packedFrame_beyond hl hm⟩⟩

/-- Settles O46: the failures are those of every command; otherwise FB is the packed frame of the encoded PHYS. -/
theorem packPBuildsTheFrameFromPhys : Obligations.PackPBuildsTheFrameFromPhys :=
  fun s => ⟨exec_failsInOrder (by simp) (by simp) s, fun hlive hbuf hvalv hl hx hm =>
    ⟨packedFrame s s.encodedAt, exec_packP_ok hlive hbuf hvalv hl hx,
      fun j hj => ⟨enc (s.descAt j) (s.physAt j), enc_roundsTo (hx j hj) _, fun _ => bitAt_packedFrame_last hm hj⟩,
      fun _ => bitAt_packedFrame_zero hm, fun _ => fbRead_packedFrame_beyond hl hm⟩⟩

/-- Settles O47: both runs write the same words, for the words packed do not come from FB; the rest is what two frames
packed alike have in common. -/
theorem packedFrameForgetsTheOldBuffer : Obligations.PackedFrameForgetsTheOldBuffer := by
  intro s m hlive hbuf hvalv hl hx hf hm i hi
  have hpacked : ∃ v, exec i s = .next (s.withPackedFrame v) ∧
      exec i (s.setFb m) = .next ((s.setFb m).withPackedFrame v) := by
    simp only [List.mem_cons, List.not_mem_nil, or_false] at hi
    rcases hi with rfl | rfl
    · exact ⟨s.rawAt, exec_pack_ok hlive hbuf hvalv hl, exec_pack_ok (s := s.setFb m) hlive hbuf hvalv hl⟩
    · exact ⟨s.encodedAt, exec_packP_ok hlive hbuf hvalv hl hx,
        exec_packP_ok (s := s.setFb m) hlive hbuf hvalv hl hx⟩
  obtain ⟨v, hexec, hexec'⟩ := hpacked
  obtain ⟨-, -, hinside, hbeyond⟩ := packedFrame_twins (v := v) hl hf hm
  exact ⟨_, _, hexec, hexec', hinside, fun p => bitAt_packedFrame_zero hf, fun a ha => (hbeyond a ha).symm⟩

end Sys2Proof.Machine
end

section
/-! PROOFS. The properties of the frame codec (44_frame_codec.md R120 to R124): the round trip, the order of the
descriptors, running a command twice, the capacity and the defaults. -/

namespace Sys2Proof.Machine

/-! ### the default values (R124) -/

/-- The decode of 0 is the offset, which here is 0. -/
theorem dec_rawInt_zero {d : Descriptor} (h : d.offset = 0) : (dec d (rawInt d 0)).1 = 0 := by
  have hzero : rawInt d 0 = 0 := by simp [rawInt]
  have hsum : exactPhys d (rawInt d 0) = 0 := by rw [exactPhys, hzero, h]; simp
  refine BitVec.eq_of_toInt_eq ?_
  rw [(dec_spec d _).1, hsum]
  rfl

/-- Settles O54: the loops leave the defaults and their decodes. -/
theorem defaultInitialisation : Obligations.DefaultInitialisation := by
  refine fun s hlive hsize hl => ⟨?_, fun hx => ?_⟩
  · obtain ⟨raw', hexec, hraw⟩ := exec_init_ok hlive hsize hl
    exact ⟨_, hexec, hraw.below⟩
  · obtain ⟨raw', phys', sat, hexec, hraw, hphys, -⟩ := exec_initP_ok hlive hsize hl hx
    refine ⟨_, hexec, fun j hj => ⟨hraw.below j hj, ?_, fun hdefault hoffset => (hphys.below j hj).trans ?_⟩⟩
    · rw [ival_eq_rawInt]
      exact hphys.below j hj
    · simp only [hdefault]
      exact dec_rawInt_zero hoffset

/-! ### PACK then UNPACK (R120) -/

section
variable {d : Descriptor}

/-- A raw word in the representable range is its own field value. -/
theorem extendRaw_of_representable (hf : FieldOk d) {w : Word} (h : Representable d (rawInt d w)) :
    extendRaw d w = w := by
  have hint : rawInt d w = rawInt d (extendRaw d w) :=
    (eq_rawInt_extendRaw_iff hf w _).mpr ⟨h, (rawInt_modEq_toNat hf.2 d w).symm⟩
  rw [← wordOf_rawInt d (extendRaw d w), ← hint, wordOf_rawInt]

/-- A buffer whose bits at the field's places are those of `w` holds the field value of `w`. -/
theorem fldValue_of_bits (hf : FieldOk d) {m : Memory} {w : Word}
    (h : ∀ k, k < d.lengthBits.toNat → bitAt m (bitPlace d k) = w.getLsbD k) : fldValue d m = extendRaw d w := by
  have hread : fldRead d m = zextL d.lengthBits.toNat w := by
    refine BitVec.eq_of_getLsbD_eq fun k _ => ?_
    rw [getLsbD_fldRead d m hf.2, zextL_getLsbD hf.2]
    by_cases hk : k < d.lengthBits.toNat
    · rw [h k hk]
    · simp only [hk, decide_false, Bool.false_and]
  rw [fldValue_eq_extendRaw hf.2, hread, extendRaw_zextL]

end

/-- In a disjoint layout every field of the packed frame holds the word packed for it. -/
theorem bitAt_packedFrame_disjoint {s : State} {v : Nat → Word} (hdisj : Disjoint s) (hm : Memory.wf s.fb) {j w : Nat}
    (hj : SignalOk s j) (hw : w < (s.descAt j).lengthBits.toNat) :
    bitAt (packedFrame s v) (bitPlace (s.descAt j) w) = (v j).getLsbD w :=
  bitAt_packedFrame_last hm hj hw fun j' hlt hj' => hdisj j hj j' hj' (Nat.ne_of_lt hlt) w hw

/-- Settles O50: each field of the packed frame holds the low bits of its RAW, whose field value UNPACK extracts. -/
theorem packThenUnpackRoundTrip : Obligations.PackThenUnpackRoundTrip := by
  intro s hlive hsize hm hbuf hvalv hl hdisj
  obtain ⟨raw', hunpack, hraw⟩ := exec_unpack_ok (s := s.withPackedFrame s.rawAt) hlive hsize hbuf hl
  refine ⟨_, _, exec_pack_ok hlive hbuf hvalv hl, hunpack, fun j hj => ?_⟩
  obtain ⟨-, -, hlayout⟩ := hl
  have hfield : FieldOk (s.descAt j) := (hlayout j hj).1
  have hvalue : (State.withRawValues (s.withPackedFrame s.rawAt) raw').rawAt j = extendRaw (s.descAt j) (s.rawAt j) :=
    (hraw.below j hj).trans (fldValue_of_bits hfield fun k hk => bitAt_packedFrame_disjoint hdisj hm hj hk)
  rw [hvalue]
  exact ⟨extendRaw_of_representable hfield, isFieldValue_extendRaw hfield _⟩

/-! ### the order of the descriptors (R121) -/

/-- A renumbering of the signals: `s'` is `s` with the descriptors and their RAW entries taken in the order `f`. -/
structure Renumbered (s s' : State) (f : Nat → Nat) : Prop where
  fb : s'.fb = s.fb
  msg : s'.msg = s.msg
  mapsTo : ∀ i, SignalOk s i → SignalOk s (f i)
  descAt : ∀ i, SignalOk s i → s'.descAt i = s.descAt (f i)
  rawAt : ∀ i, SignalOk s i → s'.rawAt i = s.rawAt (f i)
  injective : ∀ i j, SignalOk s i → SignalOk s j → f i = f j → i = j
  surjective : ∀ j, SignalOk s j → ∃ i, SignalOk s i ∧ f i = j

section
variable {s s' : State} {f : Nat → Nat}

theorem Renumbered.signalOk_iff (h : Renumbered s s' f) (i : Nat) : SignalOk s' i ↔ SignalOk s i := by
  rw [SignalOk, SignalOk, h.msg]

theorem Renumbered.disjoint (h : Renumbered s s' f) (hdisj : Disjoint s) : Disjoint s' := by
  intro i hi j hj hne
  have hi' := (h.signalOk_iff i).mp hi
  have hj' := (h.signalOk_iff j).mp hj
  rw [h.descAt i hi', h.descAt j hj']
  exact hdisj _ (h.mapsTo i hi') _ (h.mapsTo j hj') fun heq => hne (h.injective i j hi' hj' heq)

/-- Place by place: a place of signal `f i` in `s` is one of signal `i` in `s'`, and the other places are the same. -/
theorem Renumbered.packedFrame_eq (h : Renumbered s s' f) (hdisj : Disjoint s) (hm : Memory.wf s.fb) :
    packedFrame s' s'.rawAt = packedFrame s s.rawAt := by
  have hm' : Memory.wf s'.fb := h.fb ▸ hm
  refine fb_ext_bits (packedFrame_wf hm') (packedFrame_wf hm) fun a k _ => ?_
  by_cases hc : ∃ i, SignalOk s' i ∧ Covers (s'.descAt i) (a, k)
  · obtain ⟨i, hi, w, hw, hplace⟩ := hc
    have hi' := (h.signalOk_iff i).mp hi
    rw [← hplace, bitAt_packedFrame_disjoint (h.disjoint hdisj) hm' hi hw, h.rawAt i hi']
    rw [h.descAt i hi'] at hw ⊢
    exact (bitAt_packedFrame_disjoint hdisj hm (h.mapsTo i hi') hw).symm
  · have huncovered : ∀ i, SignalOk s' i → ¬ Covers (s'.descAt i) (a, k) := fun i hi hci => hc ⟨i, hi, hci⟩
    have huncovered' : ∀ j, SignalOk s j → ¬ Covers (s.descAt j) (a, k) := by
      intro j hj
      obtain ⟨i, hi, rfl⟩ := h.surjective j hj
      rw [← h.descAt i hi]
      exact huncovered i ((h.signalOk_iff i).mpr hi)
    rw [bitAt_packedFrame_uncovered hm' huncovered, bitAt_packedFrame_uncovered hm huncovered', h.fb, h.msg]

/-- PACK and UNPACK assert of the renumbered layout what they assert of the old one. -/
theorem Renumbered.frameLayoutOk (h : Renumbered s s' f) (hparams : s'.params = s.params) (hl : FrameLayoutOk s) :
    FrameLayoutOk s' := by
  obtain ⟨hcount, hframe, hlayout⟩ := hl
  rw [FrameLayoutOk, CountOk, FrameOk, h.msg, hparams]
  exact ⟨hcount, hframe, fun i hi => h.descAt i hi ▸ hlayout _ (h.mapsTo i hi)⟩

end

/-- The state after FLD_WRITE of the word `x` to signal `i` (R85). -/
def State.withField (s : State) (i : Nat) (x : Word) : State :=
  { s with xr := x, fb := fldWrite (s.descAt i) s.fb x, status := { s.status with err := .ok } }

section
variable {s : State} {a b : Nat}

theorem exec_fldWrite_ok (hlive : Live s) (hbuf : BufferOk s) (hl : FrameLayoutOk s) (ha : SignalOk s a) (x : Word) :
    exec (.fldWrite a) { s with xr := x } = .next (s.withField a x) := by
  obtain ⟨hcount, hframe, hlayout⟩ := hl
  obtain ⟨hfield, hplace⟩ := hlayout a ha
  exact onField_ok (s := { s with xr := x }) hlive ha hbuf hcount hframe hfield hplace

theorem exec_fldWrite_fldWrite_ok (hlive : Live s) (hbuf : BufferOk s) (hl : FrameLayoutOk s) (ha : SignalOk s a)
    (hb : SignalOk s b) (x y : Word) :
    exec (.fldWrite a) { s with xr := x } = .next (s.withField a x) ∧
      exec (.fldWrite b) { s.withField a x with xr := y } = .next ((s.withField a x).withField b y) :=
  ⟨exec_fldWrite_ok hlive hbuf hl ha x, exec_fldWrite_ok (s := s.withField a x) hlive hbuf hl hb y⟩

end

/-- Settles O51: the packed frame is the same place by place; two FLD_WRITEs commute as the accessor's writes do. -/
theorem descriptorOrderDoesNotMatter : Obligations.DescriptorOrderDoesNotMatter := by
  refine ⟨fun s s' f hlive hm hbuf hvalv hl hdisj hs' hf hinj hsurj => ?_,
    fun s a b x y hlive hm hbuf hl ha hb hdisj => ?_⟩
  · obtain ⟨desc', raw', rfl⟩ : ∃ desc' raw', s' = { s with desc := desc', raw := raw' } := ⟨_, _, hs'⟩
    have h : Renumbered s { s with desc := desc', raw := raw' } f :=
      { fb := rfl
        msg := rfl
        mapsTo := fun i hi => (hf i hi).1
        descAt := fun i hi => (hf i hi).2.1
        rawAt := fun i hi => (hf i hi).2.2
        injective := hinj
        surjective := hsurj }
    exact ⟨_, _, exec_pack_ok hlive hbuf hvalv hl,
      exec_pack_ok (s := { s with desc := desc', raw := raw' }) hlive hbuf hvalv (h.frameLayoutOk rfl hl),
      h.packedFrame_eq hdisj hm⟩
  · obtain ⟨ha1, hb2⟩ := exec_fldWrite_fldWrite_ok hlive hbuf hl ha hb x y
    obtain ⟨hb1, ha2⟩ := exec_fldWrite_fldWrite_ok hlive hbuf hl hb ha y x
    exact ⟨_, _, _, _, ha1, hb2, hb1, ha2, fldWrite_comm hdisj hm x y⟩

/-! ### UNPACK and UNPACK.P on storage of any size

R122 and R123 are claimed of every state, also of one whose lists are shorter than NUM_SIGNALS, so what the loops leave
is given here without `Sized`. -/

/-- A list after the writes `l[0] <- v 0, …, l[n-1] <- v (n-1)`; those beyond its end are lost. -/
def putEntries (l : List Word) (v : Nat → Word) (n : Nat) : List Word :=
  (List.range n).foldl (fun l i => l.set i (v i)) l

section
variable {s : State}

theorem putEntries_succ (l : List Word) (v : Nat → Word) (n : Nat) :
    putEntries l v (n + 1) = (putEntries l v n).set n (v n) := by
  rw [putEntries, List.range_succ, List.foldl_append]
  rfl

theorem getElem?_putEntries (l : List Word) (v : Nat → Word) (n j : Nat) :
    (putEntries l v n)[j]? = if j < n then l[j]?.map fun _ => v j else l[j]? := by
  induction n with
  | zero => rfl
  | succ n ih =>
    rw [putEntries_succ, List.getElem?_set', ih]
    rcases Nat.lt_trichotomy j n with h | rfl | h
    · rw [if_neg (by omega), if_pos h, if_pos (by omega)]
    · rw [if_pos rfl, if_neg (by omega), if_pos (by omega)]
      rfl
    · rw [if_neg (by omega), if_neg (by omega), if_neg (by omega)]

theorem putEntries_putEntries (l : List Word) (v : Nat → Word) (n : Nat) :
    putEntries (putEntries l v n) v n = putEntries l v n := by
  refine List.ext_getElem? fun j => ?_
  simp only [getElem?_putEntries]
  split_ifs
  · exact Option.map_map _ _ _
  · rfl

/-- The raw values after UNPACK and UNPACK.P. -/
def State.unpackedRaw (s : State) : List Word :=
  putEntries s.raw (fun i => fldValue (s.descAt i) s.fb) s.msg.numSignals.toNat

/-- The decode of signal `i` as it stands in FB. -/
def State.unpackedDec (s : State) (i : Nat) : Word × Bool :=
  dec (s.descAt i) (ival (s.descAt i) (fldValue (s.descAt i) s.fb))

/-- The physical values after UNPACK.P. -/
def State.unpackedPhys (s : State) : List Word :=
  putEntries s.phys (fun i => (s.unpackedDec i).1) s.msg.numSignals.toNat

/-- SAT after UNPACK.P. -/
def State.unpackedSat (s : State) : Bool :=
  s.status.sat || (List.range s.msg.numSignals.toNat).any fun i => (s.unpackedDec i).2

theorem exec_unpack_all (hlive : Live s) (hbuf : BufferOk s) (hl : FrameLayoutOk s) :
    exec .unpack s = .next (s.withRawValues s.unpackedRaw) := by
  have hloop : forSignals s unpackSignal = { s with raw := s.unpackedRaw } := by
    refine forSignals_induct (P := fun n t =>
      t = { s with raw := putEntries s.raw (fun i => fldValue (s.descAt i) s.fb) n }) rfl ?_
    rintro n t - rfl
    rw [putEntries_succ]
    rfl
  rw [exec_unpack_eq hlive hbuf hl, produceValues, hloop]
  rfl

theorem exec_unpackP_all (hlive : Live s) (hbuf : BufferOk s) (hl : FrameLayoutOk s) (hx : AllXformOk s) :
    exec .unpackP s = .next (s.withValues s.unpackedRaw s.unpackedPhys s.unpackedSat) := by
  have hloop : forSignals s unpackSignalP =
      { s with raw := s.unpackedRaw, phys := s.unpackedPhys, status := { s.status with sat := s.unpackedSat } } := by
    refine forSignals_induct (P := fun n t => t =
      { s with
        raw := putEntries s.raw (fun i => fldValue (s.descAt i) s.fb) n
        phys := putEntries s.phys (fun i => (s.unpackedDec i).1) n
        status := { s.status with
          sat := s.status.sat || (List.range n).any fun i => (s.unpackedDec i).2 } }) ?_ ?_
    · simp [putEntries]
    · rintro n t - rfl
      simp only [putEntries_succ, List.range_succ, List.any_append, List.any_cons, List.any_nil, Bool.or_false,
        ← Bool.or_assoc]
      rfl
  rw [exec_unpackP_eq hlive hbuf hl hx, produceValues, hloop]
  rfl

theorem exec_fldRead_ok {i : Nat} (hlive : Live s) (hbuf : BufferOk s) (hcount : CountOk s) (hframe : FrameOk s)
    (hsig : SignalOk s i) (hfield : FieldOk (s.descAt i)) (hplace : PlaceOk s.msg.lengthBytes.toNat (s.descAt i)) :
    exec (.fldRead i) s = .next ((s.setXr (fldRead (s.descAt i) s.fb)).setErr .ok) :=
  onField_ok hlive hsig hbuf hcount hframe hfield hplace

end

/-! ### a command twice in a row (R122) -/

/-- Run twice, the command leaves what it leaves run once, and FB as it was. -/
abbrev Idempotent (i : Instr) (s : State) : Prop := ∃ t, exec i s = .next t ∧ t.fb = s.fb ∧ exec i t = .next t

section
variable {i : Instr} {s : State}

theorem failed_failed (s : State) (i : Instr) (e : ErrCode) : (s.failed i e).failed i e = s.failed i e := by
  simp +contextual

/-- A command that fails fails again the same way: no test looks at what the failure wrote, and the fatal state
ignores it. -/
theorem idempotent_or_passes (hnop : i ≠ .nop) (hsreset : i ≠ .sreset) (s : State) :
    Idempotent i s ∨ (Live s ∧ ArgumentsOk i s ∧ firstFault (layoutChecks i s) = none) := by
  by_cases hlive : Live s
  case neg =>
    have hskip := exec_fatal hsreset (Bool.eq_true_of_not_eq_false hlive)
    exact .inl ⟨s, hskip, rfl, hskip⟩
  have hagain {e : ErrCode} (h : exec i s = .next (s.failed i e))
      (h' : exec i (s.failed i e) = .next ((s.failed i e).failed i e)) : Idempotent i s :=
    ⟨s.failed i e, h, rfl, h'.trans (congrArg Host.Outcome.next (failed_failed s i e))⟩
  obtain ⟨-, hsignal, hreference, hcapacity, -⟩ := exec_failsInOrder hnop hsreset s
  obtain ⟨-, hsignal', hreference', -⟩ := exec_failsInOrder hnop hsreset (s.failed i .argument)
  obtain ⟨-, -, -, hcapacity', -⟩ := exec_failsInOrder hnop hsreset (s.failed i .capacity)
  by_cases hbad : BadSignal i s
  · exact .inl <| hagain (hsignal hlive hbad) (hsignal' hlive hbad)
  by_cases hmiss : MissingReference i s
  · exact .inl <| hagain (hreference hlive hbad hmiss) (hreference' hlive hbad hmiss)
  by_cases hshort : ShortBuffer i s
  · exact .inl <| hagain (hcapacity hlive hbad hmiss hshort) (hcapacity' hlive hbad hmiss hshort)
  cases hfault : firstFault (layoutChecks i s) with
  | none => exact .inr ⟨hlive, ⟨hbad, hmiss, hshort⟩, rfl⟩
  | some f =>
    obtain ⟨k, hk⟩ := exec_eq_tests hnop hsreset s
    rw [whenLive_live hlive, argumentTests_ok ⟨hbad, hmiss, hshort⟩, asserting_some hfault] at hk
    exact .inl ⟨_, hk, rfl, exec_fatal hsreset rfl⟩

theorem bufferOk_of_argumentsOk (huse : usesBuffer i = true) (h : ArgumentsOk i s) : BufferOk s := by
  obtain ⟨-, hmiss, hshort⟩ := h
  exact ⟨Bool.eq_true_of_not_eq_false fun hb => hmiss ⟨huse, .inl hb⟩,
    Nat.le_of_not_lt fun hlt => hshort ⟨huse, hlt⟩⟩

end

theorem unpack_idempotent (s : State) : Idempotent .unpack s := by
  rcases idempotent_or_passes (i := .unpack) (by simp) (by simp) s with hfails | ⟨hlive, hargs, hchecks⟩
  · exact hfails
  have hbuf := bufferOk_of_argumentsOk rfl hargs
  have hl : FrameLayoutOk s := frameChecks_none.mp hchecks
  refine ⟨_, exec_unpack_all hlive hbuf hl, rfl, ?_⟩
  rw [exec_unpack_all (s := s.withRawValues _) hlive hbuf hl]
  have hraw : (s.withRawValues s.unpackedRaw).unpackedRaw = s.unpackedRaw := putEntries_putEntries _ _ _
  rw [hraw]
  rfl

theorem unpackP_idempotent (s : State) : Idempotent .unpackP s := by
  rcases idempotent_or_passes (i := .unpackP) (by simp) (by simp) s with hfails | ⟨hlive, hargs, hchecks⟩
  · exact hfails
  have hbuf := bufferOk_of_argumentsOk rfl hargs
  obtain ⟨hl, hx⟩ : FrameLayoutOk s ∧ AllXformOk s := framePChecks_none.mp hchecks
  refine ⟨_, exec_unpackP_all hlive hbuf hl hx, rfl, ?_⟩
  rw [exec_unpackP_all (s := s.withValues _ _ _) hlive hbuf hl hx]
  have hraw : (s.withValues s.unpackedRaw s.unpackedPhys s.unpackedSat).unpackedRaw = s.unpackedRaw :=
    putEntries_putEntries _ _ _
  have hphys : (s.withValues s.unpackedRaw s.unpackedPhys s.unpackedSat).unpackedPhys = s.unpackedPhys :=
    putEntries_putEntries _ _ _
  have hsat : (s.withValues s.unpackedRaw s.unpackedPhys s.unpackedSat).unpackedSat = s.unpackedSat :=
    (Bool.or_assoc _ _ _).trans (congrArg _ (Bool.or_self _))
  rw [hraw, hphys, hsat]
  rfl

theorem fldRead_idempotent (s : State) (k : Nat) : Idempotent (.fldRead k) s := by
  rcases idempotent_or_passes (i := .fldRead k) (by simp) (by simp) s with hfails | ⟨hlive, hargs, hchecks⟩
  · exact hfails
  have hbuf := bufferOk_of_argumentsOk rfl hargs
  obtain ⟨hgood, -⟩ := hargs
  have hsig : SignalOk s k := Decidable.not_not.mp fun hbad => hgood ⟨k, rfl, hbad⟩
  obtain ⟨hcount, hframe, hfield, hplace⟩ := fieldChecks_none.mp hchecks
  refine ⟨_, exec_fldRead_ok hlive hbuf hcount hframe hsig hfield hplace, rfl, ?_⟩
  exact exec_fldRead_ok (s := (s.setXr _).setErr .ok) hlive hbuf hcount hframe hsig hfield hplace

/-- Settles O52: a failure repeats itself; what a success extracts from FB it extracts again, for FB is not written. -/
theorem unpackIsIdempotent : Obligations.UnpackIsIdempotent := by
  intro s k i hi
  simp only [List.mem_cons, List.not_mem_nil, or_false] at hi
  rcases hi with rfl | rfl | rfl
  · exact unpack_idempotent s
  · exact unpackP_idempotent s
  · exact fldRead_idempotent s k

/-! ### the capacity (R123) -/

/-- The frame commands that use the buffer. -/
abbrev bufferFrameCommands : List Instr := [.pack, .packP, .unpack, .unpackP]

theorem bufferFrameCommands_class :
    ∀ i ∈ bufferFrameCommands, i ≠ .nop ∧ i ≠ .sreset ∧ i.signal? = none ∧ usesBuffer i = true := by
  decide

section
variable {i : Instr} {s : State}

/-- With both references there, a short buffer is a CapacityError. -/
theorem exec_shortBuffer (hi : i ∈ bufferFrameCommands) (hlive : Live s) (hbufv : s.ctrl.bufv = true)
    (hvalv : s.ctrl.valv = true) (hshort : s.ctrl.bufcap.toNat < s.msg.lengthBytes.toNat) :
    exec i s = .next (s.failed i .capacity) := by
  obtain ⟨hnop, hsreset, hsig, huse⟩ := bufferFrameCommands_class i hi
  obtain ⟨-, -, -, hcapacity, -⟩ := exec_failsInOrder hnop hsreset s
  exact hcapacity hlive (by simp [BadSignal, hsig]) (by simp [MissingReference, hbufv, hvalv]) ⟨huse, hshort⟩

theorem exec_bufferFrameCommand_ok (hi : i ∈ bufferFrameCommands) (hlive : Live s) (hbuf : BufferOk s)
    (hvalv : s.ctrl.valv = true) (hl : FrameLayoutOk s) (hx : AllXformOk s) :
    ∃ u, exec i s = .next u ∧ u.status.err = .ok ∧ Live u := by
  simp only [List.mem_cons, List.not_mem_nil, or_false] at hi
  rcases hi with rfl | rfl | rfl | rfl
  · exact ⟨_, exec_pack_ok hlive hbuf hvalv hl, rfl, hlive⟩
  · exact ⟨_, exec_packP_ok hlive hbuf hvalv hl hx, rfl, hlive⟩
  · exact ⟨_, exec_unpack_all hlive hbuf hl, rfl, hlive⟩
  · exact ⟨_, exec_unpackP_all hlive hbuf hl hx, rfl, hlive⟩

end

/-- Settles O53: the capacity test is the one that fails, and its failure changes nothing that a test looks at. -/
theorem capacityIsEnforcedAndRecoverable : Obligations.CapacityIsEnforcedAndRecoverable := by
  intro s hlive hbufv hvalv hlen hcap
  have hfail {i : Instr} (hi : i ∈ bufferFrameCommands) : exec i s = .next (s.failed i .capacity) :=
    exec_shortBuffer hi hlive hbufv hvalv (by omega)
  refine ⟨hfail (by simp), hfail (by simp), hfail (by simp), hfail (by simp), fun c i hi hc hl hx => ?_⟩
  obtain ⟨u, hu⟩ := exec_bufferFrameCommand_ok
    (s := { s.failed i .capacity with ctrl := { s.ctrl with bufcap := c } }) hi hlive ⟨hbufv, hc⟩ hvalv hl hx
  exact ⟨_, u, hfail hi, hu⟩

end Sys2Proof.Machine
end

section
/-! PROOFS. The system commands (45_system.md R130, R131; 60_exceptions.md R147, R148): SRESET makes no test and resets
the control registers; NOP makes the fatal test alone and succeeds. -/

namespace Sys2Proof.Machine

/-- SRESET makes no test: it is the return from the fatal state as well (R148). -/
theorem exec_sreset (s : State) : exec .sreset s = .next s.softReset := rfl

/-- NOP has no argument and asserts nothing of the layout, so outside the fatal state it cannot fail. -/
theorem exec_nop_live {s : State} (hlive : Live s) : exec .nop s = .next (s.withErr .ok) := by
  rw [exec, execNop, whenLive_live hlive, succeed_eq, State.setErr]

/-- Settles O21: SRESET is `softReset`, whose updates are these six registers at their zeros. -/
theorem sresetClearsTheControlRegisters : Obligations.SresetClearsTheControlRegisters := by
  intro s
  rw [exec_sreset, State.softReset, State.resetControl, StatusReg.zero, CtrlReg.zero, MsgReg.zero]

/-- Settles O22: NOP's one test is the fatal one, and its success writes ERR. -/
theorem nopWritesOnlyErr : Obligations.NopWritesOnlyErr :=
  fun _ => ⟨exec_nop_live, exec_fatal (by simp)⟩

end Sys2Proof.Machine
end

section
/-! PROOFS. How a command ends (60_exceptions.md R140, R141, R145, R146): behind its tests a command succeeds, so the
order of R146 says of every command which of the outcomes of R140 it has. -/

namespace Sys2Proof.Machine

/-! ### behind the tests there is only success (R140 (5)) -/

/-- The command that left this state ran to its end. -/
abbrev Succeeded (t : State) : Prop := t.status.err = .ok ∧ Live t

section
variable {s : State} {body : Nat → State → State}

theorem leaves_succeeded_succeed (h : Live s) : Leaves Succeeded (succeed s) := leaves_next ⟨rfl, h⟩

theorem forSignals_live (h : Live s) (hbody : ∀ j u, Live u → Live (body j u)) : Live (forSignals s body) :=
  forSignals_induct (P := fun _ u => Live u) h fun j u _ hu => hbody j u hu

theorem leaves_succeeded_produceValues (h : Live s) (hbody : ∀ j u, Live u → Live (body j u)) :
    Leaves Succeeded (produceValues body s) :=
  leaves_succeeded_succeed (s := (forSignals s body).setValv) (forSignals_live h hbody)

theorem leaves_succeeded_packWith (h : Live s) (hbody : ∀ j u, Live u → Live (body j u)) :
    Leaves Succeeded (packWith body s) :=
  leaves_next ⟨rfl, forSignals_live (s := s.setFb _) h hbody⟩

/-- The effect behind the tests of a command can only succeed. -/
theorem exec_effect_succeeds {i : Instr} (hnop : i ≠ .nop) (hsreset : i ≠ .sreset) (h : Live s) :
    ∃ k, exec i s = whenLive s (argumentTests i s (asserting s (layoutChecks i s) k)) ∧ Leaves Succeeded k := by
  cases i with
  | nop => exact absurd rfl hnop
  | sreset => exact absurd rfl hsreset
  | fldRead sig | fldWrite sig => exact ⟨_, rfl, leaves_guardBytes (leaves_next ⟨rfl, h⟩)⟩
  | toSigned sig | toUbits sig | decode sig | encode sig | rangeRaw sig | rangePhys sig =>
    exact ⟨_, rfl, leaves_next ⟨rfl, h⟩⟩
  | init | initP => exact ⟨_, rfl, leaves_succeeded_produceValues h fun _ _ hu => hu⟩
  | pack | packP => exact ⟨_, rfl, leaves_guardBytes (leaves_succeeded_packWith h fun _ _ hu => hu)⟩
  | unpack | unpackP => exact ⟨_, rfl, leaves_guardBytes (leaves_succeeded_produceValues h fun _ _ hu => hu)⟩

end

/-! ### when no condition of R146 holds -/

section
variable {i : Instr} {s : State}

theorem firstFault_descriptorPass_none (hnop : i ≠ .nop) (hsreset : i ≠ .sreset)
    (h : ∀ j, Asserts i s j → DescriptorOk i s j) : firstFault (descriptorPass i s) = none := by
  cases hsig : i.signal? with
  | some j =>
    simp only [descriptorPass, hsig]
    exact firstFault_descriptorChecks_none.mpr (h j (.inl hsig))
  | none =>
    simp only [descriptorPass, hsig]
    exact firstFault_assertEach.mpr fun j hj =>
      firstFault_descriptorChecks_none.mpr (h j (.inr ⟨hsig, hnop, hsreset, hj⟩))

theorem exec_succeeds (hnop : i ≠ .nop) (hsreset : i ≠ .sreset) (hlive : Live s) (hargs : ArgumentsOk i s)
    (hcount : CountOk s) (hframe : usesBuffer i = true → FrameOk s) (h : ∀ j, Asserts i s j → DescriptorOk i s j) :
    ∃ t, exec i s = .next t ∧ Succeeded t := by
  obtain ⟨k, hk, hsucceeds⟩ := exec_effect_succeeds hnop hsreset hlive
  have hchecks : firstFault (layoutChecks i s) = none :=
    (firstFault_layoutChecks_descriptors hcount hframe).trans (firstFault_descriptorPass_none hnop hsreset h)
  rw [whenLive_live hlive, argumentTests_ok hargs, asserting_none hchecks] at hk
  obtain ⟨t, ht⟩ := exec_next i s
  exact ⟨t, ht, hsucceeds t (hk ▸ ht)⟩

end

/-- Settles O15: the decoder's answer picks the command, and the command's chain of tests is in the rule's order. -/
theorem firstFailureIsTheOneReported : Obligations.FirstFailureIsTheOneReported := fun s _ =>
  ⟨runCommand_fatal, runCommand_illegal, fun _ hdecode => ⟨runCommand_of_decode hdecode s, fun hnop hsreset =>
    ⟨exec_failsInOrder hnop hsreset s, exec_succeeds hnop hsreset⟩⟩⟩

/-! ### the outcomes of a command (R140 (3) to (5)) -/

/-- An assertion of R144 with this cause fails of the signal, which is one of the table (0 for causes 4 and 5). -/
abbrev FailedAssertion (s : State) (cause : BitVec 3) (sig : Nat) : Prop :=
  (cause = 1 ∧ sig < s.params.nsigMax ∧ ¬ FieldOk (s.descAt sig)) ∨
  (cause = 2 ∧ sig < s.params.nsigMax ∧ ¬ PlaceOk s.msg.lengthBytes.toNat (s.descAt sig)) ∨
  (cause = 3 ∧ sig < s.params.nsigMax ∧ ¬ XformOk (s.descAt sig)) ∨
  (cause = 4 ∧ sig = 0 ∧ ¬ CountOk s) ∨
  (cause = 5 ∧ sig = 0 ∧ ¬ FrameOk s)

/-- What `i` can make of a live state `s`: an error value, a LayoutFault, or success. -/
inductive CommandOutcome (i : Instr) (s : State) : State → Prop
  | error (e : ErrCode) (he : e = .capacity ∨ e = .argument) : CommandOutcome i s (s.failed i e)
  | fault (cause : BitVec 3) (sig : Nat) (h : FailedAssertion s cause sig) : CommandOutcome i s (s.faulted cause sig)
  | success (t : State) (h : Succeeded t) : CommandOutcome i s t

section
variable {i : Instr} {s t : State} {j : Nat}

/-- The signals a command asserts are signals of the table (R64, R144). -/
theorem lt_nsigMax_of_asserts (hsig : ¬ BadSignal i s) (hcount : CountOk s) (hj : Asserts i s j) :
    j < s.params.nsigMax := by
  have hlt : SignalOk s j := hj.elim (fun hown => Decidable.not_not.mp fun hbad => hsig ⟨j, hown, hbad⟩)
    fun ⟨_, _, _, hall⟩ => hall
  exact Nat.lt_of_lt_of_le hlt hcount

/-- The cause a failing descriptor is reported with is that of an assertion that fails. -/
theorem failedAssertion_descriptorCause (hlt : j < s.params.nsigMax) (h : ¬ DescriptorOk i s j) :
    FailedAssertion s (descriptorCause i s j) j := by
  unfold descriptorCause
  split_ifs with hfield hplace
  · exact .inr (.inl ⟨rfl, hlt, hplace.2⟩)
  · refine .inr (.inr (.inl ⟨rfl, hlt, fun hxform => h ⟨hfield, fun huse => ?_, fun _ => hxform⟩⟩))
    exact Decidable.not_not.mp fun hbad => hplace ⟨huse, hbad⟩
  · exact .inl ⟨rfl, hlt, hfield⟩

/-- The order of R146 leaves no other outcome. -/
theorem exec_tested_outcome (hnop : i ≠ .nop) (hsreset : i ≠ .sreset) (hlive : Live s) :
    ∃ t, exec i s = .next t ∧ CommandOutcome i s t := by
  obtain ⟨-, hsignal, hreference, hcapacity, hcount, hframe, hdescriptor⟩ := exec_failsInOrder hnop hsreset s
  by_cases hbad : BadSignal i s
  · exact ⟨_, hsignal hlive hbad, .error _ (.inr rfl)⟩
  by_cases hmiss : MissingReference i s
  · exact ⟨_, hreference hlive hbad hmiss, .error _ (.inr rfl)⟩
  by_cases hshort : ShortBuffer i s
  · exact ⟨_, hcapacity hlive hbad hmiss hshort, .error _ (.inl rfl)⟩
  have hargs : ArgumentsOk i s := ⟨hbad, hmiss, hshort⟩
  by_cases hN : CountOk s
  case neg => exact ⟨_, hcount hlive hargs hN, .fault _ _ (.inr (.inr (.inr (.inl ⟨rfl, rfl, hN⟩))))⟩
  by_cases hF : usesBuffer i = true ∧ ¬ FrameOk s
  · obtain ⟨huse, hlong⟩ := hF
    exact ⟨_, hframe hlive hargs hN huse hlong, .fault _ _ (.inr (.inr (.inr (.inr ⟨rfl, rfl, hlong⟩))))⟩
  have hF' : usesBuffer i = true → FrameOk s := fun huse => Decidable.not_not.mp fun hno => hF ⟨huse, hno⟩
  by_cases hD : ∃ j, Asserts i s j ∧ ¬ DescriptorOk i s j
  · obtain ⟨hj, hfail⟩ := Nat.find_spec hD
    have hfirst : ∀ j', j' < Nat.find hD → Asserts i s j' → DescriptorOk i s j' := fun j' hlt hj' =>
      Decidable.not_not.mp fun hno => Nat.find_min hD hlt ⟨hj', hno⟩
    exact ⟨_, hdescriptor hlive hargs hN hF' _ hj hfail hfirst,
      .fault _ _ (failedAssertion_descriptorCause (lt_nsigMax_of_asserts hbad hN hj) hfail)⟩
  · obtain ⟨t, ht, hsucceeded⟩ := exec_succeeds hnop hsreset hlive hargs hN hF' fun j hj =>
      Decidable.not_not.mp fun hno => hD ⟨j, hj, hno⟩
    exact ⟨t, ht, .success t hsucceeded⟩

/-- NOP and SRESET only succeed; the order of R146 decides for every other command. -/
theorem exec_live_outcome (hlive : Live s) (h : exec i s = .next t) : CommandOutcome i s t := by
  by_cases hnop : i = .nop
  · subst hnop
    rw [exec_nop_live hlive] at h
    cases h
    exact .success _ ⟨rfl, hlive⟩
  by_cases hsreset : i = .sreset
  · subst hsreset
    rw [exec_sreset] at h
    cases h
    exact .success _ ⟨rfl, rfl⟩
  obtain ⟨u, hu, houtcome⟩ := exec_tested_outcome hnop hsreset hlive
  rw [hu] at h
  cases h
  exact houtcome

end

/-- Settles O16: of the outcomes only the LayoutFault is fatal. -/
theorem layoutFaultIsPrecise : Obligations.LayoutFaultIsPrecise := by
  intro i s t _ hlive hexec hfatal
  cases exec_live_outcome hlive hexec with
  | error e _ => exact absurd hfatal (by simp [hlive])
  | fault cause sig hcause => exact ⟨cause, sig, rfl, hcause⟩
  | success _ hsucceeded =>
    obtain ⟨-, hlive'⟩ := hsucceeded
    exact absurd hfatal (by simp [hlive'])

/-- Settles O17: of the outcomes that are not fatal only the error value leaves ERR other than 0. -/
theorem errorValuesLeaveTheRest : Obligations.ErrorValuesLeaveTheRest := by
  intro i s t hlive hexec hlive' herr
  cases exec_live_outcome hlive hexec with
  | error e he => exact ⟨rfl, he⟩
  | fault cause sig _ => cases hlive'
  | success _ hsucceeded =>
    obtain ⟨hok, -⟩ := hsucceeded
    exact absurd hok herr

/-- Settles O18: the fatal state knows SRESET only; outside it a word is illegal, or its command has one of the
outcomes of a command. -/
theorem commandsHaveFiveOutcomes : Obligations.CommandsHaveFiveOutcomes := by
  intro s v
  by_cases hlive : Live s
  case neg =>
    have hfatal : s.status.fatal = true := Bool.eq_true_of_not_eq_false hlive
    by_cases hv : v = 1
    · subst hv
      exact ⟨s.softReset, runCommand_of_decode (i := .sreset) rfl s,
        .inr (.inr (.inr (.inr ⟨rfl, rfl, .sreset, rfl, exec_sreset s⟩)))⟩
    · exact ⟨s, runCommand_fatal hfatal hv, .inl ⟨hfatal, hv, rfl⟩⟩
  cases hdecode : decodeWord v with
  | error _ =>
    exact ⟨_, runCommand_illegal hlive (by simp [hdecode]), .inr (.inl ⟨hlive, by simp, rfl⟩)⟩
  | ok i =>
    obtain ⟨t, ht⟩ := exec_next i s
    refine ⟨t, (runCommand_of_decode hdecode s).trans ht, ?_⟩
    cases exec_live_outcome hlive ht with
    | error e he => exact .inr (.inr (.inl ⟨hlive, hlive, i, rfl, ht, he⟩))
    | fault cause sig _ => exact .inr (.inr (.inr (.inl ⟨hlive, rfl, i, rfl, ht⟩)))
    | success _ hsucceeded =>
      obtain ⟨hok, hlive'⟩ := hsucceeded
      exact .inr (.inr (.inr (.inr ⟨hlive', hok, i, rfl, ht⟩)))

end Sys2Proof.Machine
end

section
/-! PROOFS. The fatal state (60_exceptions.md R147, R148): what the port answers in it, and the two ways out. -/

namespace Sys2Proof.Machine

section
variable {s t : State} {n : BitVec 12} {v : Word} {rest : List PortEvent}

/-- In the fatal state every write but SRESET's is answered `Done` and ignored. -/
theorem step_write_fatal {r : Reg} (hf : s.status.fatal = true) (hreg : regAt s.params n.toNat = some r)
    (hne : ¬ (n = 0 ∧ v = 1)) (hq : s.pending = .write n v :: rest) : step s = .next (s.served rest .done) := by
  by_cases hcmd : r = .cmd
  · subst hcmd
    obtain rfl : n = 0 := BitVec.eq_of_toNat_eq ((regAt_eq_cmd _ _).mp hreg)
    rw [step_write_cmd hq]
    exact runCommand_fatal (s := s.served rest .done) hf fun hv => hne ⟨rfl, hv⟩
  · rw [step_write_register hreg hcmd hq, if_pos hf]

/-- A read has no side effect (R47). -/
theorem step_read_status (hq : s.pending = .read n :: rest) (h : step s = .next t) : t.status = s.status := by
  have hserved : ∃ a, step s = .next (s.served rest a) := by
    cases hreg : regAt s.params n.toNat with
    | none => exact ⟨_, step_read_unimplemented hreg hq⟩
    | some r => exact ⟨_, step_read_register hreg hq⟩
  obtain ⟨a, ha⟩ := hserved
  rw [ha] at h
  cases h
  rfl

/-- The one write that leaves the fatal state is SRESET's. -/
theorem write_leaves_fatal (hf : s.status.fatal = true) (hq : s.pending = .write n v :: rest)
    (h : step s = .next t) (hlive : Live t) : n = 0 ∧ v = 1 := by
  by_contra hne
  have hserved : ∃ a, step s = .next (s.served rest a) := by
    cases hreg : regAt s.params n.toNat with
    | none => exact ⟨_, step_write_unimplemented hreg hq⟩
    | some r => exact ⟨_, step_write_fatal hf hreg hne hq⟩
  obtain ⟨a, ha⟩ := hserved
  rw [ha] at h
  cases h
  exact absurd hlive (by simp [hf])

theorem step_leaves_fatal (hf : s.status.fatal = true) (h : step s = .next t) (hlive : Live t) :
    ∃ r, s.pending = .write 0 1 :: r ∨ s.pending = .busWrite 0 8 1 :: r ∨ ∃ c, s.pending = .hardReset c :: r := by
  have hstays (hsame : t.status = s.status) : False := by simp [Live, hsame, hf] at hlive
  cases hq : s.pending with
  | nil =>
    rw [step_eq_run, fetch_nil hq] at h
    cases h
    exact (hstays rfl).elim
  | cons e rest =>
    refine ⟨rest, ?_⟩
    cases e with
    | read n => exact (hstays (step_read_status hq h)).elim
    | write n v =>
      obtain ⟨rfl, rfl⟩ := write_leaves_fatal hf hq h hlive
      exact .inl rfl
    | busRead offset size =>
      cases hbus : busRegister offset size with
      | none =>
        rw [step_busRead_refused hbus hq] at h
        cases h
      | some n =>
        rw [step_busRead hbus hq] at h
        exact (hstays (step_read_status (s := { s with pending := .read n :: rest }) rfl h)).elim
    | busWrite offset size v =>
      cases hbus : busRegister offset size with
      | none =>
        rw [step_busWrite_refused hbus hq] at h
        cases h
      | some n =>
        rw [step_busWrite hbus hq] at h
        obtain ⟨rfl, rfl⟩ := write_leaves_fatal (s := { s with pending := .write n v :: rest }) hf rfl h hlive
        obtain ⟨rfl, rfl⟩ := busRegister_some hbus
        exact .inr (.inl rfl)
    | hardReset c => exact .inr (.inr ⟨c, rfl⟩)

end

/-- Settles O20: the port looks at FATAL in a write only, and the engine in every command but SRESET. -/
theorem fatalStateFreezesTheEngine : Obligations.FatalStateFreezesTheEngine := by
  intro s rest hf
  refine ⟨fun n r => step_read_register, fun n r v hreg hne hq => step_write_fatal hf hreg hne hq, fun hq => ?_,
    fun n v hreg => ⟨step_read_unimplemented hreg, step_write_unimplemented hreg⟩, fun t => step_leaves_fatal hf⟩
  refine ⟨(s.served rest .done).softReset, ?_, rfl, rfl⟩
  rw [step_write_cmd hq, runCommand_of_decode (i := .sreset) rfl, exec_sreset]

end Sys2Proof.Machine
end

section
/-! PROOFS. The reset state (70_reset_and_hazards.md R162): SRESET leaves it as it is; with no signal and no buffer
every command that needs one of them is an ArgumentError, and INIT and INIT.P run over an empty layout. -/

namespace Sys2Proof.Machine

section
variable {s : State} {i : Instr} {k : Nat}

/-- The registers that SRESET writes hold their reset values already (R29, R131). -/
theorem softReset_of_resetRegisters (h : ResetRegisters s) : s.softReset = s := by
  obtain ⟨hstatus, hresult, hctrl, hmsg, hxr, hxp⟩ := h
  cases s
  simp_all only [State.softReset, State.resetControl]

theorem live_of_resetRegisters (h : ResetRegisters s) : Live s := by
  obtain ⟨hstatus, -⟩ := h
  rw [Live, hstatus]
  rfl

theorem not_signalOk_of_resetRegisters (h : ResetRegisters s) (j : Nat) : ¬ SignalOk s j := by
  obtain ⟨-, -, -, hmsg, -⟩ := h
  rw [SignalOk, hmsg]
  exact j.not_lt_zero

theorem withErr_ok_of_resetRegisters (h : ResetRegisters s) : s.withErr .ok = s := by
  rw [← softReset_of_resetRegisters h]
  rfl

/-- RESULT and INR, which the line of a failing test may clear, are 0 already (R141). -/
theorem failed_of_resetRegisters (h : ResetRegisters s) (i : Instr) (e : ErrCode) : s.failed i e = s.withErr e := by
  rw [← softReset_of_resetRegisters h]
  simp [StatusReg.zero]

/-- No index is below NUM_SIGNALS = 0 (R64). -/
theorem exec_signal_of_resetRegisters (h : ResetRegisters s) (hi : i.signal? = some k) :
    exec i s = .next (s.withErr .argument) := by
  have hnop : i ≠ .nop := by rintro rfl; cases hi
  have hsreset : i ≠ .sreset := by rintro rfl; cases hi
  have hbad : BadSignal i s := ⟨k, hi, not_signalOk_of_resetRegisters h k⟩
  obtain ⟨-, hsignal, -⟩ := exec_failsInOrder hnop hsreset s
  rw [hsignal (live_of_resetRegisters h) hbad, failed_of_resetRegisters h]

/-- There is no buffer: BUFV is 0 (R142). -/
theorem exec_bufferFrameCommand_of_resetRegisters (h : ResetRegisters s) (hi : i ∈ bufferFrameCommands) :
    exec i s = .next (s.withErr .argument) := by
  obtain ⟨hnop, hsreset, hsig, huse⟩ := bufferFrameCommands_class i hi
  have hgood : ¬ BadSignal i s := by simp [BadSignal, hsig]
  have hmiss : MissingReference i s := by
    obtain ⟨-, -, hctrl, -⟩ := h
    exact ⟨huse, .inl (congrArg CtrlReg.bufv hctrl)⟩
  obtain ⟨-, -, hreference, -⟩ := exec_failsInOrder hnop hsreset s
  rw [hreference (live_of_resetRegisters h) hgood hmiss, failed_of_resetRegisters h]

/-- The signal loop of an empty layout does nothing, and its command is left with VALV (R111, R112). -/
theorem produceValues_of_resetRegisters (h : ResetRegisters s) (body : Nat → State → State) :
    produceValues body s = .next s.setValv := by
  have hloop : forSignals s body = s := by
    rw [forSignals, State.numSignals, Nat.eq_zero_of_not_pos (not_signalOk_of_resetRegisters h 0)]
    rfl
  rw [produceValues, hloop, succeed_eq]
  exact congrArg (fun u : State => Host.Outcome.next u.setValv) (withErr_ok_of_resetRegisters h)

/-- An empty layout passes every assertion about it (R144). -/
theorem layoutOk_of_resetRegisters (h : ResetRegisters s) : InitLayoutOk s ∧ AllXformOk s := by
  have hnone (j : Nat) (hj : SignalOk s j) {p : Prop} : p := absurd hj (not_signalOk_of_resetRegisters h j)
  have hcount : CountOk s := Nat.le_of_not_lt fun hlt => hnone _ hlt
  exact ⟨⟨hcount, fun j hj => hnone j hj⟩, fun j hj => hnone j hj⟩

end

/-- Settles O24: the commands with a signal or a buffer fail their argument test, INIT and INIT.P have an empty loop,
and NOP and SRESET write what the registers hold. -/
theorem resetStateGuarantees : Obligations.ResetStateGuarantees := by
  intro s h
  have hlive := live_of_resetRegisters h
  obtain ⟨hl, hx⟩ := layoutOk_of_resetRegisters h
  have hbuffer {i : Instr} (hi : i ∈ bufferFrameCommands) : exec i s = .next (s.withErr .argument) :=
    exec_bufferFrameCommand_of_resetRegisters h hi
  refine ⟨fun i k => exec_signal_of_resetRegisters h, hbuffer (by simp), hbuffer (by simp), hbuffer (by simp),
    hbuffer (by simp), ?_, ?_, ?_, ?_⟩
  · exact (exec_init_eq hlive hl).trans (produceValues_of_resetRegisters h _)
  · exact (exec_initP_eq hlive hl hx).trans (produceValues_of_resetRegisters h _)
  · rw [exec_nop_live hlive, withErr_ok_of_resetRegisters h]
  · rw [exec_sreset, softReset_of_resetRegisters h]

end Sys2Proof.Machine
end

section
/-! PROOFS. The two halves of the value object (70_reset_and_hazards.md R171). Independence of a half is that a command
commutes with a change of it: `mapValues id fun _ => other` puts another PHYS in place, `mapValues (fun _ => other) id`
another RAW. No test before a command's effect reads either half, so only the work on one signal has to be looked at. -/

namespace Sys2Proof.Machine

/-- The state with its RAW and its PHYS changed. -/
def State.mapValues (g h : List Word → List Word) (s : State) : State := { s with raw := g s.raw, phys := h s.phys }

@[simp] theorem State.mapValues_params (g h : List Word → List Word) (s : State) :
    (s.mapValues g h).params = s.params := rfl

/-- The result whose next state has its RAW and its PHYS changed. -/
def mapResult (g h : List Word → List Word) : Result → Result
  | .next s => .next (s.mapValues g h)
  | .fault f => .fault f
  | .refused r => .refused r

/-- One signal's work commutes with the change of RAW and PHYS. -/
def CommutesWithMapValues (g h : List Word → List Word) (body : Nat → State → State) : Prop :=
  ∀ j t, body j (t.mapValues g h) = (body j t).mapValues g h

section
variable {g h : List Word → List Word} {s : State} {k k' : Result} {body : Nat → State → State}

/-! ### the tests before a command's effect (R146) -/

theorem whenLive_mapValues (hk : k' = mapResult g h k) :
    whenLive (s.mapValues g h) k' = mapResult g h (whenLive s k) := by
  subst hk
  unfold whenLive
  rw [apply_ite (mapResult g h)]
  rfl

theorem requireBuffer_mapValues {onErr : State} (hk : k' = mapResult g h k) :
    requireBuffer (s.mapValues g h) (onErr.mapValues g h) k' = mapResult g h (requireBuffer s onErr k) := by
  subst hk
  unfold requireBuffer
  rw [apply_ite (mapResult g h)]
  rfl

theorem requireBufferAndValues_mapValues {onErr : State} (hk : k' = mapResult g h k) :
    requireBufferAndValues (s.mapValues g h) (onErr.mapValues g h) k' =
      mapResult g h (requireBufferAndValues s onErr k) := by
  subst hk
  unfold requireBufferAndValues
  rw [apply_ite (mapResult g h)]
  rfl

theorem requireCapacity_mapValues {onErr : State} (hk : k' = mapResult g h k) :
    requireCapacity (s.mapValues g h) (onErr.mapValues g h) k' = mapResult g h (requireCapacity s onErr k) := by
  subst hk
  unfold requireCapacity
  rw [apply_ite (mapResult g h)]
  rfl

theorem asserting_mapValues {checks : List (Option LayoutFault)} (hk : k' = mapResult g h k) :
    asserting (s.mapValues g h) checks k' = mapResult g h (asserting s checks k) := by
  subst hk
  unfold asserting
  cases firstFault checks <;> rfl

theorem guardBytes_mapValues {bytes : List Nat} (hk : k' = mapResult g h k) :
    guardBytes (s.mapValues g h) bytes k' = mapResult g h (guardBytes s bytes k) := by
  subst hk
  unfold guardBytes
  rw [State.mapValues_params]
  cases bytes.find? fun b => decide (s.params.maxb ≤ b) <;> rfl

theorem onPackArguments_mapValues (hk : k' = mapResult g h k) :
    onPackArguments (s.mapValues g h) k' = mapResult g h (onPackArguments s k) :=
  whenLive_mapValues <| requireBufferAndValues_mapValues (onErr := s.setResult 0) <|
    requireCapacity_mapValues (onErr := s.setResult 0) hk

theorem onUnpackArguments_mapValues (hk : k' = mapResult g h k) :
    onUnpackArguments (s.mapValues g h) k' = mapResult g h (onUnpackArguments s k) :=
  whenLive_mapValues <| requireBuffer_mapValues <| requireCapacity_mapValues hk

/-! ### the signal loops (R110 phase 4) -/

theorem forSignals_mapValues (hbody : CommutesWithMapValues g h body) (s : State) :
    forSignals (s.mapValues g h) body = (forSignals s body).mapValues g h :=
  List.foldl_hom (State.mapValues g h) fun t j => hbody j t

theorem produceValues_mapValues (hbody : CommutesWithMapValues g h body) (s : State) :
    produceValues body (s.mapValues g h) = mapResult g h (produceValues body s) :=
  congrArg (fun t : State => succeed t.setValv) (forSignals_mapValues hbody s)

theorem packWith_mapValues (hbody : CommutesWithMapValues g h body) (s : State) :
    packWith body (s.mapValues g h) = mapResult g h (packWith body s) :=
  congrArg (fun t : State => succeed (t.setResult (BitVec.ofNat 64 s.frameBytes)))
    (forSignals_mapValues hbody (s.setFb (fbZero s.fb s.frameBytes)))

/-! ### the commands -/

theorem exec_init_mapValues (hbody : CommutesWithMapValues g h initSignal) (s : State) :
    exec .init (s.mapValues g h) = mapResult g h (exec .init s) :=
  whenLive_mapValues <| asserting_mapValues <| produceValues_mapValues hbody s

theorem exec_unpack_mapValues (hbody : CommutesWithMapValues g h unpackSignal) (s : State) :
    exec .unpack (s.mapValues g h) = mapResult g h (exec .unpack s) :=
  onUnpackArguments_mapValues <| asserting_mapValues <| guardBytes_mapValues <| produceValues_mapValues hbody s

theorem exec_pack_mapValues (hbody : CommutesWithMapValues g h packSignal) (s : State) :
    exec .pack (s.mapValues g h) = mapResult g h (exec .pack s) :=
  onPackArguments_mapValues <| asserting_mapValues <| guardBytes_mapValues <| packWith_mapValues hbody s

theorem exec_packP_mapValues (hbody : CommutesWithMapValues g h packSignalP) (s : State) :
    exec .packP (s.mapValues g h) = mapResult g h (exec .packP s) :=
  onPackArguments_mapValues <| asserting_mapValues <| guardBytes_mapValues <| packWith_mapValues hbody s

end

/-- The commands that R171 says have no part in PHYS. -/
abbrev rawCommands : List Instr := [.init, .unpack, .pack]

theorem rawCommands_not_mem_physWriters : ∀ i ∈ rawCommands, i ∉ [Instr.initP, .unpackP] := by decide

/-- The work of INIT, UNPACK and PACK on a signal looks at RAW alone: INIT, UNPACK and PACK go the same way with any
PHYS. -/
theorem exec_mapPhys {i : Instr} (hi : i ∈ rawCommands) (s : State) (h : List Word → List Word) :
    exec i (s.mapValues id h) = mapResult id h (exec i s) := by
  have hinit : CommutesWithMapValues id h initSignal := fun _ _ => rfl
  have hunpack : CommutesWithMapValues id h unpackSignal := fun _ _ => rfl
  have hpack : CommutesWithMapValues id h packSignal := fun _ _ => rfl
  simp only [List.mem_cons, List.not_mem_nil, or_false] at hi
  rcases hi with rfl | rfl | rfl
  · exact exec_init_mapValues hinit s
  · exact exec_unpack_mapValues hunpack s
  · exact exec_pack_mapValues hpack s

/-- PACK.P encodes PHYS alone: it goes the same way with any RAW. -/
theorem exec_packP_mapRaw (s : State) (g : List Word → List Word) :
    exec .packP (s.mapValues g id) = mapResult g id (exec .packP s) :=
  have hpackP : CommutesWithMapValues g id packSignalP := fun _ _ => rfl
  exec_packP_mapValues hpackP s

/-! ### the commands that leave a half of the value file as it is (R66) -/

section
variable {i : Instr} {s t : State}

theorem exec_keeps_raw (hi : i ∉ [Instr.init, .initP, .unpack, .unpackP]) (h : exec i s = .next t) :
    t.raw = s.raw := by
  obtain ⟨-, -, -, -, -, -, -, -, hraw, -⟩ := everyCommandStaysInItsWriteSet i s t h
  exact by_contra fun hne => hi (hraw hne)

theorem exec_keeps_phys (hi : i ∉ [Instr.initP, .unpackP]) (h : exec i s = .next t) : t.phys = s.phys := by
  obtain ⟨-, -, -, -, -, -, -, -, -, hphys, -⟩ := everyCommandStaysInItsWriteSet i s t h
  exact by_contra fun hne => hi (hphys hne)

end

/-- Settles O55: no command here reads the other half, the write sets say which half it leaves, and a host write stores
into the half it names. -/
theorem rawAndPhysAreIndependent : Obligations.RawAndPhysAreIndependent := by
  intro s other
  refine ⟨fun i hi => ?_, ?_, ?_, fun n v rest k hq => ⟨fun hreg => ?_, fun hreg => ?_⟩⟩
  · obtain ⟨t, ht⟩ := exec_next i s
    exact ⟨t, ht, exec_keeps_phys (rawCommands_not_mem_physWriters i hi) ht,
      (exec_mapPhys hi s fun _ => other).trans (congrArg (mapResult id fun _ => other) ht)⟩
  · obtain ⟨t, ht⟩ := exec_next .packP s
    exact ⟨t, ht, exec_keeps_raw (by simp) ht, exec_keeps_phys (by simp) ht,
      (exec_packP_mapRaw s fun _ => other).trans (congrArg (mapResult (fun _ => other) id) ht)⟩
  · obtain ⟨t, ht⟩ := exec_next .pack s
    exact ⟨t, ht, exec_keeps_raw (by simp) ht⟩
  · refine ⟨_, step_write_register hreg (by simp) hq, ?_⟩
    cases s.status.fatal <;> rfl
  · refine ⟨_, step_write_register hreg (by simp) hq, ?_⟩
    cases s.status.fatal <;> rfl

end Sys2Proof.Machine
end
